-- ==== Sys2Proof/Word.lean ====
section
/-! DEFINITION. The two bit vectors of the block: a byte is 8 bits and a channel 4 (00_scope.md R6). -/

namespace Sys2Proof

/-- A byte, an unsigned integer 0..255; bit 7 is the most significant (00_scope.md R7). -/
abbrev Byte := BitVec 8

/-- A channel number, 0..15 (00_scope.md R6). -/
abbrev Channel := BitVec 4

end Sys2Proof
end

