-- ==== Sys2Proof/Syntax.lean ====
section
/-! DEFINITION. The instructions of the block: one constructor for every mnemonic of
spec/opcode_table.json (30_encoding.md R100, R101, R103). -/

namespace Sys2Proof

/-- The three control states of the decoder (10_state.md R27). A wire byte means something else in each. -/
inductive DecState where
  | waitingForStatus
  | receivingSysex
  | accumulatingData
deriving DecidableEq, Repr

/-- A handler capability is opaque to the block (45_bridge_and_system.md R226, 93 U19): a name for it. -/
abbrev Handler := Nat

/-- The caller-supplied context value; its type is opaque to the block (10_state.md R35): a name for it. -/
abbrev ContextValue := Nat

/-- The instructions. The first fifteen are wire bytes, each the meaning of a byte in one decoder state
(30_encoding.md R96); the others are the port operations of 30_encoding.md R100. -/
inductive Instr where
  /-- `0x80..0x8F` in WaitingForStatus (40_decoder.md R121). -/
  | noteoff (ch : Channel)
  /-- `0x90..0x9F` in WaitingForStatus (R122). -/
  | noteon (ch : Channel)
  /-- `0xA0..0xAF` in WaitingForStatus (R123). -/
  | polykey (ch : Channel)
  /-- `0xB0..0xBF` in WaitingForStatus (R124). -/
  | cc (ch : Channel)
  /-- `0xC0..0xCF` in WaitingForStatus (R125). -/
  | program (ch : Channel)
  /-- `0xD0..0xDF` in WaitingForStatus (R126). -/
  | chanpress (ch : Channel)
  /-- `0xE0..0xEF` in WaitingForStatus (R127). -/
  | pitchbend (ch : Channel)
  /-- `0xF0` in WaitingForStatus (R129). -/
  | sox
  /-- `0x00..0x7F` in WaitingForStatus (R130). -/
  | discardData (v : BitVec 7)
  /-- `0xF1..0xF6` in WaitingForStatus (R131). -/
  | discardSyscommon (b : Byte)
  /-- `0xF7` in WaitingForStatus (R132). -/
  | discardEox
  /-- `0xF8..0xFF` in WaitingForStatus (R133). -/
  | discardRealtime (v : BitVec 3)
  /-- `0xF7` in ReceivingSysex (R134). -/
  | eox
  /-- Any byte but `0xF7` in ReceivingSysex (R135). -/
  | discardSysex (b : Byte)
  /-- Any byte in AccumulatingData (R136). -/
  | data (b : Byte)
  /-- One byte into the decoder (40_decoder.md R120). -/
  | decByte (b : Byte)
  /-- A list of `length` bytes into the decoder (R141). -/
  | decParse (bytes : List Byte) (length : Nat)
  /-- `count` bytes into the input ring (41_ring_input.md R150). -/
  | inWrite (bytes : List Byte) (count : Nat)
  /-- One byte out of the input ring (R152). -/
  | inRead
  /-- One byte into the output ring (42_ring_output.md R170). -/
  | outEnq (b : Byte)
  /-- `count` bytes into the output ring (R171). -/
  | outEnqn (bytes : List Byte) (count : Nat)
  /-- One burst from the output ring to the transport (R173). -/
  | outDrain
  /-- A read of slot `i` of the message store (43_message_store.md R190). -/
  | mqPeek (i : Nat)
  /-- The number of messages a reader at cursor `c` has pending (R191). -/
  | mqAvail (c : Nat)
  /-- The next message of a reader at cursor `c` (R192). -/
  | mqNext (c : Nat)
  /-- Encode a NoteOff (44_encoder.md R206); the operands are unbounded and masked (R205). -/
  | encNoteoff (ch d0 d1 : Nat)
  /-- Encode a NoteOn (R207). -/
  | encNoteon (ch d0 d1 : Nat)
  /-- Encode a PolyKeyPressure (R208). -/
  | encPolykey (ch d0 d1 : Nat)
  /-- Encode a ControlChange (R209). -/
  | encCc (ch d0 d1 : Nat)
  /-- Encode a ProgramChange (R210). -/
  | encProgram (ch d0 : Nat)
  /-- Encode a ChannelPressure (R211). -/
  | encChanpress (ch d0 : Nat)
  /-- Encode a PitchBend (R212). -/
  | encPitchbend (ch d0 d1 : Nat)
  /-- Write the callback register pair (45_bridge_and_system.md R225). -/
  | decSetcb (f : Option Handler) (a : ContextValue)
  /-- One activation of the input-direction loop (R228). -/
  | inPoll
  /-- One activation of the output-direction loop (R233). -/
  | outPoll
  /-- Creation of the endpoint with its parameters (70_reset_and_hazards.md R280). -/
  | epReset (capIn capOut msgSlots : Nat) (hasDecoder : Bool)
  /-- Teardown of the endpoint (R282). -/
  | epClose
deriving DecidableEq, Repr

end Sys2Proof
end

