-- ==== Sys2Proof/WellFormed.lean ====
section
/-! DEFINITION. Which terms of `Instr` are operations of the block: the operand conditions that do
not depend on the state (00_scope.md R5; 30_encoding.md R94, R100; 40_decoder.md R131, R135). -/

namespace Sys2Proof

/-- The operand conditions. `count` and `length` are the length of the list beside them
(30_encoding.md R100); the parameters of `EP.RESET` satisfy 00_scope.md R5; the two discards whose
byte range is no mask pattern hold a byte of that range (30_encoding.md R96). -/
def Instr.wellFormed : Instr → Bool
  | .discardSyscommon b => decide (0xF1#8 ≤ b) && decide (b ≤ 0xF6#8)
  | .discardSysex b => b != 0xF7#8
  | .decParse bytes length => length == bytes.length
  | .inWrite bytes count => count == bytes.length
  | .outEnqn bytes count => count == bytes.length
  | .epReset capIn capOut msgSlots _ =>
    decide (2 ≤ capIn) && decide (2 ≤ capOut) && decide (2 ≤ msgSlots)
  | .noteoff _ | .noteon _ | .polykey _ | .cc _ | .program _ | .chanpress _ | .pitchbend _
  | .sox | .discardData _ | .discardEox | .discardRealtime _ | .eox | .data _
  | .decByte _ | .inRead | .outEnq _ | .outDrain | .mqPeek _ | .mqAvail _ | .mqNext _
  | .encNoteoff _ _ _ | .encNoteon _ _ _ | .encPolykey _ _ _ | .encCc _ _ _
  | .encProgram _ _ | .encChanpress _ _ | .encPitchbend _ _ _
  | .decSetcb _ _ | .inPoll | .outPoll | .epClose => true

end Sys2Proof
end

