-- ==== Sys2Proof/Decode.lean ====
section
/-! DEFINITION. The wire bytes: the rows of the opcode table, the decoder that reads a byte in a
decoder state (30_encoding.md R90 to R97, R103), and after it the encoder. Port operations have no
encoding (30_encoding.md R100; log 9). -/

namespace Sys2Proof

/-- One wire row of spec/opcode_table.json: it applies to byte `b` iff `b & mask == pattern` and the
decoder is in `state` (30_encoding.md R103). `build` reads the operand bits (R97). -/
structure WireRow where
  state : DecState
  pattern : Byte
  mask : Byte
  build : Byte → Instr

/-- Bits 3:0 of a status byte (30_encoding.md R91). -/
def channelBits (b : Byte) : Channel := b.extractLsb' 0 4

/-- Rows of state WaitingForStatus (30_encoding.md R92, R94; 40_decoder.md R121 to R133). -/
def waitingRows : List WireRow :=
  [ ⟨.waitingForStatus, 0x80#8, 0xF0#8, fun b => .noteoff (channelBits b)⟩,
    ⟨.waitingForStatus, 0x90#8, 0xF0#8, fun b => .noteon (channelBits b)⟩,
    ⟨.waitingForStatus, 0xA0#8, 0xF0#8, fun b => .polykey (channelBits b)⟩,
    ⟨.waitingForStatus, 0xB0#8, 0xF0#8, fun b => .cc (channelBits b)⟩,
    ⟨.waitingForStatus, 0xC0#8, 0xF0#8, fun b => .program (channelBits b)⟩,
    ⟨.waitingForStatus, 0xD0#8, 0xF0#8, fun b => .chanpress (channelBits b)⟩,
    ⟨.waitingForStatus, 0xE0#8, 0xF0#8, fun b => .pitchbend (channelBits b)⟩ ] ++
  [ ⟨.waitingForStatus, 0xF0#8, 0xFF#8, fun _ => .sox⟩,
    ⟨.waitingForStatus, 0x00#8, 0x80#8, fun b => .discardData (b.extractLsb' 0 7)⟩,
    ⟨.waitingForStatus, 0xF1#8, 0xFF#8, .discardSyscommon⟩,
    ⟨.waitingForStatus, 0xF2#8, 0xFE#8, .discardSyscommon⟩,
    ⟨.waitingForStatus, 0xF4#8, 0xFE#8, .discardSyscommon⟩,
    ⟨.waitingForStatus, 0xF6#8, 0xFF#8, .discardSyscommon⟩,
    ⟨.waitingForStatus, 0xF7#8, 0xFF#8, fun _ => .discardEox⟩,
    ⟨.waitingForStatus, 0xF8#8, 0xF8#8, fun b => .discardRealtime (b.extractLsb' 0 3)⟩ ]

/-- Rows of state ReceivingSysex (40_decoder.md R134, R135). -/
def sysexRows : List WireRow :=
  [ ⟨.receivingSysex, 0xF7#8, 0xFF#8, fun _ => .eox⟩,
    ⟨.receivingSysex, 0x00#8, 0x80#8, .discardSysex⟩,
    ⟨.receivingSysex, 0x80#8, 0xC0#8, .discardSysex⟩,
    ⟨.receivingSysex, 0xC0#8, 0xE0#8, .discardSysex⟩,
    ⟨.receivingSysex, 0xE0#8, 0xF0#8, .discardSysex⟩,
    ⟨.receivingSysex, 0xF0#8, 0xFC#8, .discardSysex⟩,
    ⟨.receivingSysex, 0xF4#8, 0xFE#8, .discardSysex⟩,
    ⟨.receivingSysex, 0xF6#8, 0xFF#8, .discardSysex⟩,
    ⟨.receivingSysex, 0xF8#8, 0xF8#8, .discardSysex⟩ ]

/-- The one row of state AccumulatingData (40_decoder.md R136). -/
def accumulatingRows : List WireRow := [ ⟨.accumulatingData, 0x00#8, 0x00#8, .data⟩ ]

/-- All wire rows of the table. -/
def wireRows : List WireRow := waitingRows ++ sysexRows ++ accumulatingRows

/-- Whether a row applies to a byte in a state (30_encoding.md R103). -/
def WireRow.applies (st : DecState) (b : Byte) (row : WireRow) : Bool :=
  row.state == st && (b &&& row.mask) == row.pattern

/-- Why bytes do not decode. -/
inductive DecodeError where
  /-- There is no byte. -/
  | noByte
  /-- No row of the state applies; 30_encoding.md R96 says that this cannot be. -/
  | noRow
deriving DecidableEq, Repr

/-- The instruction a byte is in a decoder state (30_encoding.md R96). -/
def decodeByte (st : DecState) (b : Byte) : Option Instr :=
  (wireRows.find? (·.applies st b)).map (·.build b)

/-- Decode the first byte of a stream and hand back the rest. Every wire unit is one byte to the decoder
(30_encoding.md R95: a message's length is learned from its status byte, byte by byte). -/
def decode (st : DecState) : List Byte → Except DecodeError (Instr × List Byte)
  | [] => .error .noByte
  | b :: rest =>
    match decodeByte st b with
    | some i => .ok (i, rest)
    | none => .error .noRow

/-- The instruction read from the bits of a table row, `nbits` of them given (log 9, DESIGN CHOICE): a
wire byte is read as the decoder reads it right after reset, in WaitingForStatus (10_state.md R41). -/
def decodeTableWord (nbits w : Nat) : Option Instr :=
  if nbits ≠ 0 ∧ nbits ≤ 8 ∧ w < 256 then decodeByte .waitingForStatus (BitVec.ofNat 8 w) else none

/-- The decoder state and the byte that encode a wire instruction, written from 30_encoding.md R91 to
R94; a port operation has none (30_encoding.md R100). -/
def encode : Instr → Option (DecState × Byte)
  | .noteoff ch => some (.waitingForStatus, 0x8#4 ++ ch)
  | .noteon ch => some (.waitingForStatus, 0x9#4 ++ ch)
  | .polykey ch => some (.waitingForStatus, 0xA#4 ++ ch)
  | .cc ch => some (.waitingForStatus, 0xB#4 ++ ch)
  | .program ch => some (.waitingForStatus, 0xC#4 ++ ch)
  | .chanpress ch => some (.waitingForStatus, 0xD#4 ++ ch)
  | .pitchbend ch => some (.waitingForStatus, 0xE#4 ++ ch)
  | .sox => some (.waitingForStatus, 0xF0#8)
  | .discardData v => some (.waitingForStatus, 0#1 ++ v)
  | .discardSyscommon b => some (.waitingForStatus, b)
  | .discardEox => some (.waitingForStatus, 0xF7#8)
  | .discardRealtime v => some (.waitingForStatus, 0x1F#5 ++ v)
  | .eox => some (.receivingSysex, 0xF7#8)
  | .discardSysex b => some (.receivingSysex, b)
  | .data b => some (.accumulatingData, b)
  | .decByte _ | .decParse _ _ | .inWrite _ _ | .inRead | .outEnq _ | .outEnqn _ _ | .outDrain
  | .mqPeek _ | .mqAvail _ | .mqNext _
  | .encNoteoff _ _ _ | .encNoteon _ _ _ | .encPolykey _ _ _ | .encCc _ _ _
  | .encProgram _ _ | .encChanpress _ _ | .encPitchbend _ _ _
  | .decSetcb _ _ | .inPoll | .outPoll | .epReset _ _ _ _ | .epClose => none

end Sys2Proof
end

