-- ==== Sys2Proof/Config.lean ====
section
/-! DEFINITION. What is fixed for the machine or left open by the spec: the parameters of
`State.reset`, the answers the environment may give, and the free values (opaque constants, no body)
that stand for them when the input lists of the state are used up. -/

namespace Sys2Proof

/-- Who takes a step. `rt` is the real-time context; BG has one activation loop per direction, and the
two may interleave (00_scope.md R10; 45_bridge_and_system.md R234), so it is two agents, `bgIn` and
`bgOut` (log 6, DEDUCED); `owner` creates and releases the endpoint (60_exceptions.md R263). -/
inductive Agent where
  | rt
  | bgIn
  | bgOut
  | owner
deriving DecidableEq, Repr, Inhabited

/-- The two directions of polling (45_bridge_and_system.md R234). -/
inductive Direction where
  | input
  | output
deriving DecidableEq, Repr, Inhabited

/-- What a transport is opened for: "a read and/or write path" (70_reset_and_hazards.md R281). -/
inductive Access where
  | input
  | output
  | both
deriving DecidableEq, Repr, Inhabited

/-- Which context drives the decoder (45_bridge_and_system.md R240). -/
inductive Driver where
  | bg
  | rt
deriving DecidableEq, Repr, Inhabited

/-- An answer of the transport's non-blocking read (45_bridge_and_system.md R237). -/
inductive ReadAnswer where
  | read (data : List Byte)
  | wouldBlock
  | error
deriving DecidableEq, Repr, Inhabited

/-- An answer of the transport's write (45_bridge_and_system.md R237). -/
inductive WriteAnswer where
  | accepted (k : Nat)
  | error
deriving DecidableEq, Repr, Inhabited

/-- What happens next: an agent takes its next atomic step (20_memory.md R68), or something happens at
the boundary: the transport is opened (70_reset_and_hazards.md R281), the endpoint is added to a polled
set (45_bridge_and_system.md R236), the background task is shut down (R235). -/
inductive Event where
  | act (a : Agent)
  | openTransport (access : Access) (success : Bool)
  | register (d : Direction)
  | shutdown
deriving DecidableEq, Repr, Inhabited

/-- For each of the five fields of a record, whether a racing read sees the old value
(20_memory.md R78): bit 0 `type`, 1 `channel`, 2 `data[0]`, 3 `data[1]`, 4 `dataByteCount`. -/
abbrev TearMask := BitVec 5

namespace Config

/-- `CAP_IN` of `State.reset` (log 1, DESIGN CHOICE: the start state of spec/95_test_vectors.md). -/
def resetCapIn : Nat := 8

/-- `CAP_OUT` of `State.reset` (log 1, DESIGN CHOICE). -/
def resetCapOut : Nat := 8

/-- `MSG_SLOTS` of `State.reset` (log 1, DESIGN CHOICE). -/
def resetMsgSlots : Nat := 4

/-- `HAS_DECODER` of `State.reset` (log 1, DESIGN CHOICE). -/
def resetHasDecoder : Bool := true

/-- `CURSOR_BITS` of `State.reset` (00_scope.md R5; log 21, DESIGN CHOICE). -/
def resetCursorBits : Nat := 32

/-- `POLL_INTERVAL` (00_scope.md R5): about 1 ms, in a unit the spec does not fix; no rule depends on
it (70_reset_and_hazards.md R297). -/
opaque pollInterval : Nat

/-- The transport's answer to the n-th draw, where no listed answer is left (log 4). -/
opaque freeRead : Nat → ReadAnswer

/-- The transport's answer to a write, where no listed answer is left (log 4). -/
opaque freeWrite : Nat → WriteAnswer

/-- What a handler does at a call, where no listed script is left (log 14). -/
opaque freeScript : Nat → List Instr

/-- Which fields a racing peek reads old, where no listed mask is left (log 11). -/
opaque freeTear : Nat → TearMask

/-- What happens next, where no listed event is left (log 5). -/
opaque freeEvent : Nat → Event

end Config

end Sys2Proof
end

