-- ==== Sys2Proof/Machine/State.lean ====
section
/-! DEFINITION. The state: the endpoint as 10_state.md R20 lists it, the agents' operations in
progress (20_memory.md R68), and the collaborators at the block's boundary (10_state.md R39). -/

namespace Sys2Proof.Machine

/-- The message type, an enumeration with no numeric encoding (10_state.md R34). -/
inductive MsgType where
  | noteOff
  | noteOn
  | polyKeyPressure
  | controlChange
  | programChange
  | channelPressure
  | pitchBend
  | none
deriving DecidableEq, Repr

/-- A channel message record, one slot of STORE (10_state.md R30). `data` is 8 bits wide (R33). -/
structure Message where
  type : MsgType
  channel : Channel
  data0 : Byte
  data1 : Byte
  dataByteCount : BitVec 2
deriving DecidableEq, Repr

/-- The slot value after reset (10_state.md R42). -/
def Message.blank : Message :=
  { type := .none, channel := 0, data0 := 0, data1 := 0, dataByteCount := 0 }

/-- A byte space: the bytes written since reset, by index, strictly rising. An index that is not
listed has no value (10_state.md R40; log 2). -/
abbrev Memory := List Host.Cell

/-- A byte ring (10_state.md R21): its capacity, storage, `writeCursor` and `readCursor`. -/
structure Ring where
  cap : Nat
  cells : Memory
  w : Nat
  r : Nat
deriving DecidableEq, Repr

/-- The decoder and its message store (10_state.md R26, R32, R35). `MSG_SLOTS` is `store.length`. -/
structure Dec where
  state : DecState
  elapsed : BitVec 2
  writeSlot : Nat
  cb : Option Handler
  cbArg : ContextValue
  store : List Message
deriving DecidableEq, Repr

/-- One endpoint (10_state.md R20). `HAS_DECODER` is `dec.isSome`. -/
structure Endpoint where
  input : Ring
  output : Ring
  dec : Option Dec
deriving DecidableEq, Repr

/-- What an operation hands back to its caller (30_encoding.md R100). -/
inductive Result where
  | unit
  | count (n : Nat)
  | byte (b : Option Byte)
  | message (m : Message)
  | next (r : Option (Message × Nat))
deriving DecidableEq, Repr

/-- One atomic step of an operation that is still to be taken, with the values its earlier steps have
read (20_memory.md R68). `fin` is what the operation returns if this is its last step. -/
inductive Micro where
  /-- S2 of `IN.WRITE` (41_ring_input.md R150), `rs` being the snapshot of S1. -/
  | inWriteStore (rs : Nat) (bytes : List Byte) (count : Nat)
  /-- One `OUT.ENQ` of `OUT.ENQN` or of the encoder (42_ring_output.md R171). -/
  | outEnq (b : Byte) (fin : Option Result)
  /-- S2.i of `OUT.DRAIN` (42_ring_output.md R173): `n` bytes from `r0`, `burst` read so far. -/
  | drainRead (r0 n i : Nat) (burst : List Byte) (poll : Bool)
  /-- S3 of `OUT.DRAIN`. `poll` says that the drain is an `OUT.POLL`, which returns nothing. -/
  | drainFinish (r0 : Nat) (burst : List Byte) (poll : Bool)
  /-- One `DEC.BYTE` of `DEC.PARSE` (40_decoder.md R141). -/
  | decByte (b : Byte) (fin : Option Result)
  /-- S2 of a completing `DEC.BYTE`: the call of the handler (40_decoder.md R138). -/
  | callback
  /-- S3 of a completing `DEC.BYTE`: advance `writeSlot`, state WaitingForStatus. -/
  | advance (fin : Option Result)
  /-- The end of a peek of slot `i` that began when the slot held `old` (20_memory.md R78). -/
  | peekFinish (i : Nat) (old : Message)
  /-- The `MQ.PEEK` of an `MQ.NEXT` (43_message_store.md R192). -/
  | nextPeek (c : Nat)
  /-- The end of that peek. -/
  | nextFinish (c : Nat) (old : Message)
  /-- The transport read of `IN.POLL` (45_bridge_and_system.md R228): at most `f` bytes. -/
  | pollDraw (w0 f : Nat)
  /-- S1 of the `IN.WRITE` of `IN.POLL`. -/
  | pollSnap (w0 f : Nat) (data : List Byte)
  /-- S2 of the `IN.WRITE` of `IN.POLL`. -/
  | pollStore (rs w0 f : Nat) (data : List Byte)
  /-- `DEC.BYTE` of burst byte `i`, read from the ring at `w0 + i`. -/
  | pollFeed (w0 i : Nat)
  /-- The loop test of `IN.POLL`: `k` bytes came, `f` were asked for (R229). -/
  | pollNext (k f : Nat)
  /-- Step (2) of `EP.CLOSE` (70_reset_and_hazards.md R282): drain and release the handle. -/
  | closeTransport
  /-- Step (3) of `EP.CLOSE`: the endpoint's state ceases to exist. -/
  | closeDestroy
  /-- What is left of an operation that `EP.CLOSE` found in progress (93_implementation_defined.md U16; log 16):
  a step that is refused. -/
  | lost
deriving DecidableEq, Repr

/-- What an agent has still to do: issue an operation, or take a step of one in progress. -/
inductive Task where
  | issue (i : Instr)
  | micro (m : Micro)
deriving DecidableEq, Repr

/-- One agent: its work list, first task first, and the result of the last operation that returned
(`none` while an operation of several steps is in progress). -/
structure Thread where
  todo : List Task
  ret : Option Result
deriving DecidableEq, Repr

/-- The four agents' threads. -/
structure Threads where
  rt : Thread
  bgIn : Thread
  bgOut : Thread
  owner : Thread
deriving DecidableEq, Repr

/-- The transport handle (45_bridge_and_system.md R237; 70_reset_and_hazards.md R281, R282). -/
inductive Handle where
  | unopened
  | opened (access : Access)
  /-- `TransportOpenFailure` (60_exceptions.md R252). -/
  | failed
  /-- After `drainAndClose`. -/
  | released
deriving DecidableEq, Repr

/-- One invocation of the callback (60_exceptions.md R260). -/
structure Call where
  handler : Handler
  message : Message
  arg : ContextValue
deriving DecidableEq, Repr

/-- What is logged outside the block (60_exceptions.md R254, R268): that a read or a write failed. The spec has one
name for both, `TransportIOError`, and no log format: the two kinds of line are the model's choice, DESIGN CHOICE
(log 32). -/
inductive Diagnostic where
  | transportReadError
  | transportWriteError
deriving DecidableEq, Repr

/-- The collaborators of the block (10_state.md R38, R39; 45_bridge_and_system.md R234 to R240): what
they have done, the inputs still to come, and what they have been given. -/
structure Env where
  /-- What happens next, first event first; then `Config.freeEvent`. -/
  sched : List Event
  /-- The transport's next read answers; then `Config.freeRead`. -/
  reads : List ReadAnswer
  /-- The transport's next write answers; then `Config.freeWrite`. -/
  writes : List WriteAnswer
  /-- The next masks of racing peeks; then `Config.freeTear`. -/
  tears : List TearMask
  /-- What the handler issues at its next calls; then `Config.freeScript`. -/
  scripts : List (List Instr)
  /-- The model's own counter of free values taken. -/
  draws : Nat
  handle : Handle
  polledIn : Bool
  polledOut : Bool
  /-- This endpoint has been polled: its first `IN.POLL` or `OUT.POLL` was issued
  (45_bridge_and_system.md R225; log 24). -/
  begun : Bool
  /-- `EP.CLOSE` has begun (93_implementation_defined.md U16). -/
  closing : Bool
  /-- The background task was shut down (45_bridge_and_system.md R235). -/
  shutdown : Bool
  /-- Fixed for a run (45_bridge_and_system.md R240). -/
  driver : Driver
  /-- `CURSOR_BITS`, the width of a cursor register, a parameter (00_scope.md R5; log 21). -/
  cursorBits : Nat
  /-- The bytes the transport has accepted, in order. -/
  sent : List Byte
  /-- The callback's invocations, in order. -/
  calls : List Call
  log : List Diagnostic
deriving DecidableEq, Repr

/-- The whole state. `ep` is absent before `EP.RESET` and after `EP.CLOSE`; `cur` is the agent whose
step is being taken. -/
structure State where
  ep : Option Endpoint
  env : Env
  threads : Threads
  cur : Agent
deriving DecidableEq, Repr

/-- The two byte spaces (20_memory.md R60). -/
inductive Space where
  | input
  | output
deriving DecidableEq, Repr

/-- Why the machine may fault. -/
inductive Fault where
  /-- A read of a storage byte that nothing has written since reset. Raised by `IN.READ`,
  `OUT.DRAIN` and the decoder feed of `IN.POLL`. Safe: 10_state.md R40 says no operation makes such a
  read, and `SysInv` of Safety.lean rules it out. -/
  | unwrittenStorage (space : Space) (index : Nat)
deriving DecidableEq, Repr

/-- Why the machine gives an execution no meaning. Each is safe: the model stops where the spec gives
no behaviour. -/
inductive Refusal where
  /-- An instruction that has no meaning yet; raised by `exec` only. -/
  | notModelled (mnemonic : String)
  /-- An operation of another role, or of a role in which another agent is acting
  (93_implementation_defined.md U4); raised by every operation. -/
  | role (a : Agent)
  /-- No endpoint: before `EP.RESET` or after `EP.CLOSE` (U16); raised by every operation but `EP.RESET`. -/
  | noEndpoint
  /-- An operation issued, or a step of an operation taken, after `EP.CLOSE` has begun (U16; logs 16 and 29);
  raised by every operation but `EP.RESET`. -/
  | closing
  /-- BG operates on an endpoint that is not in the polled set (U16; 45_bridge_and_system.md R236); raised
  by every operation BG may issue. -/
  | notRegistered (d : Direction)
  /-- BG uses a transport handle that is not open for the direction (R234, R235, R282; log 18); raised by
  `IN.POLL`, `OUT.POLL` and `OUT.DRAIN`; by `EP.RESET` where none is open (R281). -/
  | transportNotOpen
  /-- DEC or STORE of an endpoint without a decoder (10_state.md R20; 45_bridge_and_system.md R227);
  raised by the wire bytes, `DEC.*` and `MQ.*`. -/
  | noDecoder
  /-- A byte for a decoder whose callback is running (U5); raised by the wire byte `DATA`, `DEC.BYTE`,
  `DEC.PARSE` and the decoder feed of `IN.POLL`. -/
  | reentry
  /-- `DEC.SETCB` concurrent with a `DEC.BYTE` (45_bridge_and_system.md R225). -/
  | setcbDuringByte
  /-- A slot index or reader cursor outside STORE (U3); raised by `MQ.*`. -/
  | slotIndex (i : Nat)
  /-- A wire byte's row in a decoder state it does not belong to (30_encoding.md R103); raised by the
  fifteen wire bytes, and never by a step that decodes the byte. -/
  | wireRow (state : DecState)
  /-- `EP.RESET` of a live endpoint: there is no such operation (70_reset_and_hazards.md R280). -/
  | endpointExists
  /-- `EP.RESET` with a capacity above `2^CURSOR_BITS` (00_scope.md R5; 70_reset_and_hazards.md R283). -/
  | cursorWidth
  /-- The encoder's general form with a kind outside the table (U9). -/
  | kindOutsideTable
  /-- Operands that are no operation of the block (`Instr.wellFormed`); raised by `step`. -/
  | illFormed
deriving DecidableEq, Repr

/-- A ring after reset: both cursors 0, nothing written (10_state.md R40). -/
def Ring.reset (cap : Nat) : Ring := { cap := cap, cells := [], w := 0, r := 0 }

/-- The decoder after reset (10_state.md R41 to R43). `cbArg` is unspecified there: 0 is the model's
value (log 3, DESIGN CHOICE); it is read only after `DEC.SETCB` has written it. -/
def Dec.reset (msgSlots : Nat) : Dec :=
  { state := .waitingForStatus, elapsed := 0, writeSlot := 0, cb := none, cbArg := 0,
    store := List.replicate msgSlots Message.blank }

/-- What `EP.RESET` brings into being (70_reset_and_hazards.md R280). -/
def Endpoint.reset (capIn capOut msgSlots : Nat) (hasDecoder : Bool) : Endpoint :=
  { input := Ring.reset capIn, output := Ring.reset capOut,
    dec := if hasDecoder then some (Dec.reset msgSlots) else none }

/-- A thread with nothing to do. -/
def Thread.idle : Thread := { todo := [], ret := none }

/-- The boundary right after `EP.RESET` (log 18, DESIGN CHOICE): the transport was opened before, for both
directions (70_reset_and_hazards.md R281 step 1), registration is still to come (step 4), no input is
listed. -/
def Env.reset : Env :=
  { sched := [], reads := [], writes := [], tears := [], scripts := [], draws := 0,
    handle := .opened .both, polledIn := false, polledOut := false, begun := false, closing := false,
    shutdown := false, driver := .bg, cursorBits := Config.resetCursorBits, sent := [], calls := [], log := [] }

/-- The machine right after reset (10_state.md R44), with the parameters of Config. -/
def State.reset : State :=
  { ep := some (Endpoint.reset Config.resetCapIn Config.resetCapOut Config.resetMsgSlots
      Config.resetHasDecoder),
    env := Env.reset,
    threads := { rt := Thread.idle, bgIn := Thread.idle, bgOut := Thread.idle, owner := Thread.idle },
    cur := .bgIn }

end Sys2Proof.Machine
end

