-- ==== Sys2Proof/Machine/Flags.lean ====
section
/-! DEFINITION. The flags of 10_state.md R37 and the derived conditions: the decoder's two flags, a
ring's empty, unread and free, a message's complete. -/

namespace Sys2Proof

/-- `DEC.waitingForStatus` in each control state (10_state.md R27). -/
def DecState.waitingFlag : DecState → Bool
  | .waitingForStatus => true
  | .receivingSysex => false
  | .accumulatingData => false

/-- `DEC.receivingSysex` in each control state (10_state.md R27). -/
def DecState.sysexFlag : DecState → Bool
  | .waitingForStatus => false
  | .receivingSysex => true
  | .accumulatingData => false

/-- The state a flag pair encodes; the pair (1, 1) encodes none (10_state.md R27, 93 U1). -/
def DecState.ofFlags : Bool → Bool → Option DecState
  | true, false => some .waitingForStatus
  | false, true => some .receivingSysex
  | false, false => some .accumulatingData
  | true, true => none

end Sys2Proof

namespace Sys2Proof.Machine

/-- `(a - b) mod n` for `a`, `b` in `[0, n)`, by the two cases of 00_scope.md R7 (log 25). -/
def modSub (a b n : Nat) : Nat := if b ≤ a then a - b else a + n - b

/-- `(c + k) mod n`: the advance of a cursor or slot index (20_memory.md R80). -/
def modAdd (c k n : Nat) : Nat := (c + k) % n

/-- `unread(B)` (10_state.md R23). -/
def Ring.unread (q : Ring) : Nat := modSub q.w q.r q.cap

/-- `empty(B)`: the cursors are equal; a full ring is not told apart (10_state.md R23, R25). -/
def Ring.isEmpty (q : Ring) : Bool := q.r == q.w

/-- `free(B) = CAP - unread(B)`, in `[1, CAP]` (10_state.md R24). -/
def Ring.free (q : Ring) : Nat := q.cap - q.unread

/-- `count(type)`, the fixed table 2,2,2,2,1,1,2,0 (10_state.md R31). -/
def MsgType.count : MsgType → BitVec 2
  | .noteOff => 2
  | .noteOn => 2
  | .polyKeyPressure => 2
  | .controlChange => 2
  | .programChange => 1
  | .channelPressure => 1
  | .pitchBend => 2
  | .none => 0

/-- The record at `writeSlot`, `STORE[ws]`. -/
def Dec.slot (d : Dec) : Message := d.store.getD d.writeSlot Message.blank

/-- The message in progress has all its data bytes but has not been handed over: the decoder is
between S1 and S3 of a completing `DEC.BYTE` (20_memory.md R68), where the callback runs
(60_exceptions.md R260: AccumulatingData with `elapsed == dataByteCount`). -/
def Dec.completing (d : Dec) : Bool :=
  d.state == .accumulatingData && !decide (d.elapsed < d.slot.dataByteCount)

end Sys2Proof.Machine
end

