-- ==== Sys2Proof/Machine/Operands.lean ====
section
/-! DEFINITION. Operand forms: the status table, the masks of the encoder, lists of bytes with a count,
and the fields of a record (30_encoding.md R92, R97, R98; 44_encoder.md R205; 10_state.md R30). -/

namespace Sys2Proof

/-- The agent that drives the decoder (45_bridge_and_system.md R240). -/
def Driver.agent : Driver → Agent
  | .bg => .bgIn
  | .rt => .rt

/-- The directions a transport was opened for (70_reset_and_hazards.md R281). -/
def Access.includes : Access → Direction → Bool
  | .input, .input | .output, .output | .both, .input | .both, .output => true
  | .input, .output | .output, .input => false

end Sys2Proof

namespace Sys2Proof.Machine

/-- The handle is open for a direction (45_bridge_and_system.md R234, R237). -/
def Handle.serves : Handle → Direction → Bool
  | .opened access, d => access.includes d
  | .unopened, _ | .failed, _ | .released, _ => false

/-- The handle is open. -/
def Handle.isOpen : Handle → Bool
  | .opened _ => true
  | .unopened | .failed | .released => false

/-- After `drainAndClose`; only an open handle is released (70_reset_and_hazards.md R282 "exactly once"). -/
def Handle.release : Handle → Handle
  | .opened _ => .released
  | .unopened => .unopened
  | .failed => .failed
  | .released => .released

/-- A step of a drain (42_ring_output.md R173). -/
def Task.isDrain : Task → Bool
  | .micro (.drainRead _ _ _ _ _) | .micro (.drainFinish _ _ _) => true
  | _ => false

/-- The endpoint is in the polled set of a direction (45_bridge_and_system.md R236). -/
def Env.polled (v : Env) : Direction → Bool
  | .input => v.polledIn
  | .output => v.polledOut

/-- `b & 0xF0`. -/
def hiNibble (b : Byte) : Byte := b &&& 0xF0#8

/-- `b & 0x0F`, the channel of a status byte (30_encoding.md R97). -/
def loNibble (b : Byte) : Channel := b.extractLsb' 0 4

/-- The status table, on a high nibble `b & 0xF0` (30_encoding.md R92); `none` has no row, and stands
for a value that is not in the table. -/
def tableType (h : Byte) : MsgType :=
  if h = 0x80#8 then .noteOff
  else if h = 0x90#8 then .noteOn
  else if h = 0xA0#8 then .polyKeyPressure
  else if h = 0xB0#8 then .controlChange
  else if h = 0xC0#8 then .programChange
  else if h = 0xD0#8 then .channelPressure
  else if h = 0xE0#8 then .pitchBend
  else .none

/-- `(kind & 0xF0) | (channel & 0x0F)` (30_encoding.md R98). -/
def statusByte (kind : Byte) (ch : Nat) : Byte :=
  hiNibble kind ||| (BitVec.ofNat 8 ch &&& 0x0F#8)

/-- A data value masked to 7 bits, `d & 0x7F` (30_encoding.md R98). -/
def dataByte (d : Nat) : Byte := BitVec.ofNat 8 d &&& 0x7F#8

/-- The bytes `ENC(kind, ch, d0, d1)` enqueues (44_encoder.md R205); none for a kind whose high nibble
is not in the status table (R215). -/
def encBytes (kind : Byte) (ch d0 d1 : Nat) : Option (List Byte) :=
  let n := (tableType (hiNibble kind)).count
  if n = 0 then none
  else if n = 2 then some [statusByte kind ch, dataByte d0, dataByte d1]
  else some [statusByte kind ch, dataByte d0]

/-- The result carried by the step of a list's element, `rest` being what follows it: the operation
returns with its last element. -/
def lastFin (rest : List Byte) (res : Result) : Option Result :=
  match rest with
  | [] => some res
  | _ :: _ => none

/-- `STORE[i].data[e] <- b` (40_decoder.md R136); there is no third element (60_exceptions.md R261). -/
def Message.setData (m : Message) (e : BitVec 2) (b : Byte) : Option Message :=
  if e = 0 then some { m with data0 := b }
  else if e = 1 then some { m with data1 := b }
  else none

/-- One field of a racing peek: the old or the new value, as the mask bit says (20_memory.md R78). -/
def tornField {α : Type} (useOld : Bool) (old new : α) : α := if useOld then old else new

/-- The record a peek returns that began when the slot held `old` and ends when it holds `new`
(20_memory.md R78, 93 U8): field by field either value. -/
def tornMessage (mask : TearMask) (old new : Message) : Message :=
  { type := tornField (mask.getLsbD 0) old.type new.type,
    channel := tornField (mask.getLsbD 1) old.channel new.channel,
    data0 := tornField (mask.getLsbD 2) old.data0 new.data0,
    data1 := tornField (mask.getLsbD 3) old.data1 new.data1,
    dataByteCount := tornField (mask.getLsbD 4) old.dataByteCount new.dataByteCount }

/-- A read answer under the law of 45_bridge_and_system.md R237: at most `f` bytes (log 4). -/
def clampRead (f : Nat) : ReadAnswer → ReadAnswer
  | .read data => .read (data.take f)
  | .wouldBlock => .wouldBlock
  | .error => .error

/-- How many of `n` offered bytes a write answer takes, under the law of R237 (log 4); on `Error` none
(42_ring_output.md R175). -/
def acceptedCount (n : Nat) : WriteAnswer → Nat
  | .accepted k => min k n
  | .error => 0

end Sys2Proof.Machine
end

