-- ==== Sys2Proof/Machine/Ops.lean ====
section
/-! DEFINITION. The named operations the meanings share: byte storage, rings, threads, roles, draws, and
the transitions of the decoder with its callback. -/

namespace Sys2Proof.Machine

/-- The result type of every meaning. -/
abbrev Outcome := Host.Outcome State Fault Refusal

/-! ### Byte storage (20_memory.md R61) -/

/-- The byte last stored at an index; `none` where nothing was written since reset (log 2). -/
def Memory.read (m : Memory) (a : Nat) : Option Byte :=
  match m with
  | [] => none
  | c :: rest => if a = c.1 then some c.2 else Memory.read rest a

/-- Replace the byte at an index, keeping the list strictly rising. -/
def Memory.write (m : Memory) (a : Nat) (b : Byte) : Memory :=
  match m with
  | [] => [(a, b)]
  | c :: rest =>
    if a < c.1 then (a, b) :: c :: rest
    else if a = c.1 then (a, b) :: rest
    else c :: Memory.write rest a b

/-- The canonical form: indices strictly rising. (An unlisted index has no value, so no entry can equal
what an unlisted index reads as.) -/
def Memory.wf (m : Memory) : Bool :=
  match m with
  | [] => true
  | c :: rest => (match rest with | [] => true | d :: _ => decide (c.1 < d.1)) && Memory.wf rest

/-! ### Rings (10_state.md R21 to R25) -/

/-- Store a burst: byte `i` at index `(c + i) mod cap` (20_memory.md R63). -/
def storeBurst (m : Memory) (cap c : Nat) (bytes : List Byte) : Memory :=
  match bytes with
  | [] => m
  | b :: rest => storeBurst (Memory.write m (c % cap) b) cap (c + 1) rest

/-- S2 of `IN.WRITE` (41_ring_input.md R150): how many bytes are accepted, `rs` being the snapshot of the
consumer's cursor. -/
def Ring.accepts (q : Ring) (rs count : Nat) : Nat := min count (q.cap - modSub q.w rs q.cap)

/-- Accept the first `n` bytes: store them, then publish `w` (R150). -/
def Ring.accept (q : Ring) (bytes : List Byte) (n : Nat) : Ring :=
  { q with cells := storeBurst q.cells q.cap q.w (bytes.take n), w := modAdd q.w n q.cap }

/-- `OUT.ENQ` (42_ring_output.md R170): `r` is neither read nor written. -/
def Ring.enqueue (q : Ring) (b : Byte) : Ring :=
  { q with cells := Memory.write q.cells q.w b, w := modAdd q.w 1 q.cap }

/-- Advance the read cursor (10_state.md R22). -/
def Ring.consume (q : Ring) (n : Nat) : Ring := { q with r := modAdd q.r n q.cap }

/-- S3 of a drain: the read cursor goes `k` past where the drain began (42_ring_output.md R173). -/
def Ring.resume (q : Ring) (r0 k : Nat) : Ring := { q with r := modAdd r0 k q.cap }

/-! ### Threads and results -/

def Threads.get (ts : Threads) : Agent → Thread
  | .rt => ts.rt
  | .bgIn => ts.bgIn
  | .bgOut => ts.bgOut
  | .owner => ts.owner

def Threads.set (ts : Threads) (a : Agent) (t : Thread) : Threads :=
  match a with
  | .rt => { ts with rt := t }
  | .bgIn => { ts with bgIn := t }
  | .bgOut => { ts with bgOut := t }
  | .owner => { ts with owner := t }

def State.thread (s : State) (a : Agent) : Thread := s.threads.get a

def State.setThread (s : State) (a : Agent) (t : Thread) : State :=
  { s with threads := s.threads.set a t }

/-- The acting agent's next tasks: these first, then what it had. -/
def State.push (s : State) (ts : List Task) : State :=
  s.setThread s.cur { s.thread s.cur with todo := ts ++ (s.thread s.cur).todo }

/-- The acting agent's operation goes on in later steps: it has returned nothing yet. -/
def State.begin (s : State) : State := s.setThread s.cur { s.thread s.cur with ret := none }

/-- Hand a result back to the acting agent, if this step is the operation's last. -/
def State.finish (s : State) (fin : Option Result) : State :=
  match fin with
  | none => s
  | some r => s.setThread s.cur { s.thread s.cur with ret := some r }

/-- Hand back a result and end the step. -/
def State.answer (s : State) (r : Result) : Outcome := .next (s.finish (some r))

def State.setEndpoint (s : State) (e : Endpoint) : State := { s with ep := some e }

def State.setDec (s : State) (e : Endpoint) (d : Dec) : State :=
  s.setEndpoint { e with dec := some d }

/-- An agent has an operation in progress, between two of its atomic steps. -/
def Thread.inFlight (t : Thread) : Bool :=
  t.todo.any fun k => match k with | .micro _ => true | .issue _ => false

/-- `EP.CLOSE` begins: an operation in progress on the endpoint can only be refused, when its agent next takes
a step (93_implementation_defined.md U16; log 16). -/
def Thread.lose (t : Thread) : Thread := if t.inFlight then { t with todo := [.micro .lost] } else t

/-- So for RT and BG. -/
def State.loseOthers (s : State) : State :=
  { s with threads := { s.threads with
      rt := s.threads.rt.lose, bgIn := s.threads.bgIn.lose, bgOut := s.threads.bgOut.lose } }

/-- BG has a drain in progress, in either of its loops. -/
def State.draining (s : State) : Bool :=
  (s.thread .bgIn).todo.any Task.isDrain || (s.thread .bgOut).todo.any Task.isDrain

/-! ### Roles and presence (60_exceptions.md R263; 93_implementation_defined.md U4, U16) -/

/-- The rows of the role matrix (60_exceptions.md R263). -/
inductive Role where
  | producerIn
  | consumerIn
  | producerOut
  | consumerOut
  | driver
  | reader
  | registrar
  | owner
deriving DecidableEq, Repr

/-- The agent that drives the decoder. -/
def State.driverAgent (s : State) : Agent := s.env.driver.agent

/-- The acting agent is inside the callback of the decoder it drives: it is that agent, and a completing
`DEC.BYTE` has stored its byte and not yet ended. -/
def State.inHandler (s : State) : Bool :=
  s.cur == s.driverAgent &&
    (match s.ep with
     | some e => (match e.dec with | some d => d.completing | none => false)
     | none => false)

/-- Whether the acting agent holds a role (60_exceptions.md R263). OUT is drained by the output loop, and by
the input loop from inside a handler, which has BG's roles (R261), but never by both at once
(93_implementation_defined.md U4; log 6). `DEC.SETCB` is for the driver, and for the owner before polling
begins (45_bridge_and_system.md R225; log 24). -/
def State.holds (s : State) : Role → Bool
  | .producerIn => s.cur == .bgIn
  | .consumerIn => s.cur == .rt
  | .producerOut => s.cur == .rt
  | .consumerOut => (s.cur == .bgOut || (s.cur == .bgIn && s.inHandler)) && !s.draining
  | .driver => s.cur == s.driverAgent
  | .reader => s.cur != .owner
  | .registrar => s.cur == s.driverAgent || (s.cur == .owner && !s.env.begun)
  | .owner => s.cur == .owner

/-- The polled set an operation of BG lacks: a loop operates only on the endpoints of its own set, and on a
ring only in the direction the ring belongs to (45_bridge_and_system.md R234, R236; log 18). -/
def State.unregistered (s : State) (r : Role) : Option Direction :=
  if (s.cur = .bgIn ∨ r = .producerIn) ∧ s.env.polledIn = false then some .input
  else if (s.cur = .bgOut ∨ r = .consumerOut) ∧ s.env.polledOut = false then some .output
  else none

/-- What every operation needs but `EP.RESET`: the role, an endpoint, that `EP.CLOSE` has not begun (log 29),
and for BG that the endpoint is polled. -/
def guarded (r : Role) (s : State) (k : Endpoint → Outcome) : Outcome :=
  if s.holds r then
    match s.ep with
    | none => .refused .noEndpoint
    | some e =>
      if s.env.closing then .refused .closing
      else match s.unregistered r with
        | some d => .refused (.notRegistered d)
        | none => k e
  else .refused (.role s.cur)

/-- A step of an operation in progress, which acts on the endpoint there is. -/
def onEndpoint (s : State) (k : Endpoint → Outcome) : Outcome :=
  match s.ep with
  | none => .refused .noEndpoint
  | some e => k e

/-- An endpoint without a decoder has no DEC and no STORE (45_bridge_and_system.md R227). -/
def onDecoder (e : Endpoint) (k : Dec → Outcome) : Outcome :=
  match e.dec with
  | none => .refused .noDecoder
  | some d => k d

/-- BG needs the transport's handle, open for the direction (45_bridge_and_system.md R234; log 18). -/
def onTransport (d : Direction) (s : State) (k : Outcome) : Outcome :=
  if s.env.handle.serves d then k else .refused .transportNotOpen

/-! ### Draws (00_scope.md R8; 45_bridge_and_system.md R237; log 4)

Each takes the next entry of its input list; with the list used up, a free value. -/

def State.setEnv (s : State) (v : Env) : State := { s with env := v }

/-- The endpoint is polled: polling has begun (45_bridge_and_system.md R225; log 24). -/
def State.polling (s : State) : State := s.setEnv { s.env with begun := true }

/-- A free value was taken: the next one is another. -/
def Env.drawn (v : Env) : Env := { v with draws := v.draws + 1 }

/-- The transport's answer to a read of at most `f` bytes. -/
def State.drawRead (s : State) (f : Nat) : ReadAnswer × State :=
  match s.env.reads with
  | a :: rest => (clampRead f a, s.setEnv { s.env with reads := rest })
  | [] => (clampRead f (Config.freeRead s.env.draws), s.setEnv s.env.drawn)

/-- The transport's answer to a write. -/
def State.drawWrite (s : State) : WriteAnswer × State :=
  match s.env.writes with
  | a :: rest => (a, s.setEnv { s.env with writes := rest })
  | [] => (Config.freeWrite s.env.draws, s.setEnv s.env.drawn)

/-- Which fields of a racing peek are old. -/
def State.drawTear (s : State) : TearMask × State :=
  match s.env.tears with
  | a :: rest => (a, s.setEnv { s.env with tears := rest })
  | [] => (Config.freeTear s.env.draws, s.setEnv s.env.drawn)

/-- What the handler issues at this call. -/
def State.drawScript (s : State) : List Instr × State :=
  match s.env.scripts with
  | a :: rest => (a, s.setEnv { s.env with scripts := rest })
  | [] => (Config.freeScript s.env.draws, s.setEnv s.env.drawn)

/-- A diagnostic line, outside the block (60_exceptions.md R254, R268). -/
def State.logLine (s : State) (x : Diagnostic) : State :=
  s.setEnv { s.env with log := s.env.log ++ [x] }

/-- The handler is called (60_exceptions.md R260). -/
def State.recordCall (s : State) (c : Call) : State :=
  s.setEnv { s.env with calls := s.env.calls ++ [c] }

/-- The transport takes bytes, in order (42_ring_output.md R173). -/
def State.transmit (s : State) (bytes : List Byte) : State :=
  s.setEnv { s.env with sent := s.env.sent ++ bytes }

/-! ### The decoder's transitions (40_decoder.md) -/

/-- The record at `writeSlot` replaced. -/
def Dec.setSlot (d : Dec) (m : Message) : Dec := { d with store := d.store.set d.writeSlot m }

/-- The remaining steps of a completing `DEC.BYTE` (20_memory.md R68): the callback, if registered, then
the advance (40_decoder.md R138). -/
def completion (d : Dec) (fin : Option Result) : List Task :=
  if d.cb.isSome then [.micro .callback, .micro (.advance fin)] else [.micro (.advance fin)]

/-- `STATUS(b)` on the decoder's registers (40_decoder.md R128): `data` is not written. A type with no
data bytes does not enter AccumulatingData (R139). -/
def Dec.acceptStatus (d : Dec) (t : MsgType) (ch : Channel) : Dec :=
  let d' := d.setSlot { d.slot with type := t, channel := ch, dataByteCount := t.count }
  { d' with
    elapsed := 0
    state := if t.count = 0 then d.state else .accumulatingData }

/-- A status byte (40_decoder.md R128); a type with no data bytes completes at once (R139). -/
def statusStep (t : MsgType) (ch : Channel) (fin : Option Result) (s : State) (e : Endpoint) (d : Dec) :
    Outcome :=
  let d' := d.acceptStatus t ch
  if t.count = 0 then .next ((s.setDec e d').push (completion d' fin))
  else .next ((s.setDec e d').finish fin)

/-- The decoder goes to a control state and nothing else is written (40_decoder.md R129, R134). -/
def gotoStep (st : DecState) (fin : Option Result) (s : State) (e : Endpoint) (d : Dec) : Outcome :=
  .next ((s.setDec e { d with state := st }).finish fin)

/-- The byte changes no state of the block at all (00_scope.md R12 "discard"). -/
def discardStep (fin : Option Result) (s : State) : Outcome := .next (s.finish fin)

/-- `DATA(b)` on the decoder's registers (40_decoder.md R136); `none` if all data bytes are there
already, which is a byte for a decoder whose callback is running (60_exceptions.md R261). -/
def Dec.storeData (d : Dec) (b : Byte) : Option Dec :=
  if d.elapsed < d.slot.dataByteCount then
    (d.slot.setData d.elapsed b).map fun m => { d.setSlot m with elapsed := d.elapsed + 1 }
  else none

/-- A data byte (40_decoder.md R136) and the completion test after the increment (R137). -/
def dataStep (b : Byte) (fin : Option Result) (s : State) (e : Endpoint) (d : Dec) : Outcome :=
  match d.storeData b with
  | none => .refused .reentry
  | some d' =>
    if d'.elapsed = d'.slot.dataByteCount then .next ((s.setDec e d').push (completion d' fin))
    else .next ((s.setDec e d').finish fin)

/-- The dispatch of `DEC.BYTE b` (40_decoder.md R120). -/
def byteStep (b : Byte) (fin : Option Result) (s : State) (e : Endpoint) (d : Dec) : Outcome :=
  match d.state with
  | .waitingForStatus =>
    if 0x80#8 ≤ b ∧ b < 0xF0#8 then statusStep (tableType (hiNibble b)) (loNibble b) fin s e d
    else if b = 0xF0#8 then gotoStep .receivingSysex fin s e d
    else discardStep fin s
  | .receivingSysex =>
    if b = 0xF7#8 then gotoStep .waitingForStatus fin s e d
    else discardStep fin s
  | .accumulatingData => dataStep b fin s e d

/-- A byte for the decoder of the endpoint there is. -/
def feedByte (b : Byte) (fin : Option Result) (s : State) : Outcome :=
  onEndpoint s fun e => onDecoder e fun d => byteStep b fin s e d

/-! ### The callback: the one transfer of control out of the block (60_exceptions.md R260 to R262) -/

/-- Entry (R260): the handler registered now is called with the record at `writeSlot` and the context
value. No register of the block is saved or changed; what the handler issues runs next, in the driver's
context, and when it has been issued the completion goes on (R261: nothing is restored). -/
def callbackEnter (s : State) : Outcome :=
  onEndpoint s fun e => onDecoder e fun d =>
    match d.cb with
    | none => .next s
    | some h =>
      let s1 := s.recordCall { handler := h, message := d.slot, arg := d.cbArg }
      .next (s1.drawScript.2.push (s1.drawScript.1.map Task.issue))

/-- The end of a completion (40_decoder.md R138): advance `writeSlot`, state WaitingForStatus. -/
def Dec.advance (d : Dec) : Dec :=
  { d with writeSlot := modAdd d.writeSlot 1 d.store.length, state := .waitingForStatus }

def advanceStep (fin : Option Result) (s : State) : Outcome :=
  onEndpoint s fun e => onDecoder e fun d => .next ((s.setDec e d.advance).finish fin)

/-! ### Enqueuing (42_ring_output.md R170, R171) -/

/-- One `OUT.ENQ`. -/
def enqueueStep (b : Byte) (fin : Option Result) (s : State) (e : Endpoint) : Outcome :=
  .next ((s.setEndpoint { e with output := e.output.enqueue b }).finish fin)

/-- The `OUT.ENQ` steps of a list; the last one returns. -/
def enqueueTasks (bytes : List Byte) : List Task :=
  match bytes with
  | [] => []
  | b :: rest => .micro (.outEnq b (lastFin rest .unit)) :: enqueueTasks rest

/-- Enqueue a list: its first byte in this step, one step for each further byte (R171). -/
def enqueueAll (bytes : List Byte) (s : State) (e : Endpoint) : Outcome :=
  match bytes with
  | [] => s.answer .unit
  | b :: rest => enqueueStep b (lastFin rest .unit) (s.begin.push (enqueueTasks rest)) e

/-- `ENC(kind, ch, d0, d1)` (44_encoder.md R205); a kind outside the table has no meaning (R215). -/
def encodeAll (kind : Byte) (ch d0 d1 : Nat) (s : State) : Outcome :=
  guarded .producerOut s fun e =>
    match encBytes kind ch d0 d1 with
    | none => .refused .kindOutsideTable
    | some bytes => enqueueAll bytes s e

end Sys2Proof.Machine
end

