-- ==== Sys2Proof/Machine/OutputRing.lean ====
section
/-! DEFINITION. The operations of the output ring (42_ring_output.md R170, R171, R173). -/

namespace Sys2Proof.Machine

/-- 42_ring_output.md R170. -/
def execOutEnq (b : Byte) (s : State) : Outcome :=
  guarded .producerOut s fun e => enqueueStep b (some .unit) s e

/-- 42_ring_output.md R171: `count` separate steps. -/
def execOutEnqn (bytes : List Byte) (count : Nat) (s : State) : Outcome :=
  guarded .producerOut s fun e => enqueueAll (bytes.take count) s e

/-- An `OUT.ENQ` of an operation in progress. -/
def outEnqStep (b : Byte) (fin : Option Result) (s : State) : Outcome :=
  onEndpoint s fun e => enqueueStep b fin s e

/-- What a drain hands back: the count to `OUT.DRAIN`, nothing to `OUT.POLL`
(42_ring_output.md R173; 45_bridge_and_system.md R233). -/
def drainResult (poll : Bool) (k : Nat) : Result := if poll then .unit else .count k

/-- S1 of a drain (R173): the snapshot; an empty ring ends it, with no draw. -/
def drainStart (poll : Bool) (s : State) (e : Endpoint) : Outcome :=
  let n := e.output.unread
  if n = 0 then s.answer (drainResult poll 0)
  else .next (s.begin.push [.micro (.drainRead e.output.r n 0 [] poll)])

/-- S2.i of a drain: burst byte `i`, as it stands now (20_memory.md R77). -/
def drainReadStep (r0 n i : Nat) (burst : List Byte) (poll : Bool) (s : State) : Outcome :=
  onEndpoint s fun e =>
    let a := modAdd r0 i e.output.cap
    match Memory.read e.output.cells a with
    | none => .fault (.unwrittenStorage .output a)
    | some b =>
      if i + 1 < n then .next (s.push [.micro (.drainRead r0 n (i + 1) (burst ++ [b]) poll)])
      else .next (s.push [.micro (.drainFinish r0 (burst ++ [b]) poll)])

/-- S3 of a drain: the transport takes the first `k` bytes of the burst and `r` moves by `k`; on `Error`
`k` is 0 and a line is logged (R173 to R175). -/
def drainFinishStep (r0 : Nat) (burst : List Byte) (poll : Bool) (s : State) : Outcome :=
  onEndpoint s fun e =>
    let ans := s.drawWrite.1
    let k := acceptedCount burst.length ans
    let s1 := s.drawWrite.2.transmit (burst.take k)
    let s2 := if ans = .error then s1.logLine .transportWriteError else s1
    (s2.setEndpoint { e with output := e.output.resume r0 k }).answer (drainResult poll k)

/-- 42_ring_output.md R173. -/
def execOutDrain (s : State) : Outcome :=
  guarded .consumerOut s fun e => onTransport .output s (drainStart false s e)

end Sys2Proof.Machine
end

