-- ==== Sys2Proof/Machine/Bridge.lean ====
section
/-! DEFINITION. The bridge sequences of the background I/O task: `IN.POLL` and `OUT.POLL`
(45_bridge_and_system.md R228 to R233). -/

namespace Sys2Proof.Machine

/-- The decoder is fed from the burst: there is one, and BG drives it (45_bridge_and_system.md R228,
R232). -/
def feeds (s : State) (e : Endpoint) : Bool := e.dec.isSome && s.env.driver == .bg

/-- The head of the loop of `IN.POLL` (R228): `w0` and, from a snapshot of `IN.r`, `f = free(IN)`. -/
def pollHead (s : State) (e : Endpoint) : State :=
  s.push [.micro (.pollDraw e.input.w e.input.free)]

/-- 45_bridge_and_system.md R228: one activation begins. That a handler called from the feed of one `IN.POLL`
may itself issue `IN.POLL` is the model's choice, DESIGN CHOICE (log 31): 60_exceptions.md R261 and R270 leave
it open. -/
def execInPoll (s : State) : Outcome :=
  guarded .producerIn s fun e => onTransport .input s (.next (pollHead s.polling.begin e))

/-- The transport's answer: `WouldBlock` ends the activation (R230), `Error` is logged and ends it
(R231), data goes into the ring. -/
def pollDrawStep (w0 f : Nat) (s : State) : Outcome :=
  let s1 := (s.drawRead f).2
  match (s.drawRead f).1 with
  | .wouldBlock => s1.answer .unit
  | .error => (s1.logLine .transportReadError).answer .unit
  | .read data => .next (s1.push [.micro (.pollSnap w0 f data)])

/-- S1 of the `IN.WRITE` in the loop. -/
def pollSnapStep (w0 f : Nat) (data : List Byte) (s : State) : Outcome :=
  onEndpoint s fun e => .next (s.push [.micro (.pollStore e.input.r w0 f data)])

/-- The decoder feed of a burst: one `DEC.BYTE` for each byte accepted, in index order (R228). -/
def feedTasks (w0 n : Nat) : List Task := (List.range n).map fun i => .micro (.pollFeed w0 i)

/-- S2 of the `IN.WRITE` in the loop, then the feed and the loop test (R228; the count accepted is the
count read, log 12). -/
def pollStoreStep (rs w0 f : Nat) (data : List Byte) (s : State) : Outcome :=
  onEndpoint s fun e =>
    let n := e.input.accepts rs data.length
    let s1 := s.setEndpoint { e with input := e.input.accept data n }
    .next (s1.push ((if feeds s e then feedTasks w0 n else []) ++ [.micro (.pollNext data.length f)]))

/-- One fed byte: read from the ring, `IN.r` left alone (R232), and given to the decoder. -/
def pollFeedStep (w0 i : Nat) (s : State) : Outcome :=
  onEndpoint s fun e =>
    let a := modAdd w0 i e.input.cap
    match Memory.read e.input.cells a with
    | none => .fault (.unwrittenStorage .input a)
    | some b => feedByte b none s

/-- The loop test (R229): again exactly when the read filled the space asked for. -/
def pollNextStep (k f : Nat) (s : State) : Outcome :=
  onEndpoint s fun e => if k = f then .next (pollHead s e) else s.answer .unit

/-- 45_bridge_and_system.md R233: one drain, nothing handed back. -/
def execOutPoll (s : State) : Outcome :=
  guarded .consumerOut s fun e => onTransport .output s (drainStart true s.polling e)

end Sys2Proof.Machine
end

