-- ==== Sys2Proof/Machine/Decoder.lean ====
section
/-! DEFINITION. The port operations of the decoder: `DEC.BYTE`, `DEC.PARSE`, `DEC.SETCB`
(40_decoder.md R120, R141; 45_bridge_and_system.md R225). -/

namespace Sys2Proof.Machine

/-- 40_decoder.md R120. It returns nothing. -/
def execDecByte (b : Byte) (s : State) : Outcome :=
  guarded .driver s fun _ => feedByte b (some .unit) s.begin

/-- The `DEC.BYTE`s of a list; the last one returns the count of all (40_decoder.md R141). -/
def parseTasks (length : Nat) (bytes : List Byte) : List Task :=
  match bytes with
  | [] => []
  | b :: rest => .micro (.decByte b (lastFin rest (.count length))) :: parseTasks length rest

/-- 40_decoder.md R141: the first byte in this step, the others in later ones; the empty list returns 0
and changes no decoder state (R142). From inside the callback it is a re-entry, whatever the list
(60_exceptions.md R261). -/
def execDecParse (bytes : List Byte) (length : Nat) (s : State) : Outcome :=
  guarded .driver s fun e => onDecoder e fun d =>
    if d.completing then .refused .reentry
    else match bytes with
      | [] => s.answer (.count length)
      | b :: rest => feedByte b (lastFin rest (.count length)) (s.begin.push (parseTasks length rest))

/-- 45_bridge_and_system.md R225: both registers in one step. Only the driver may issue it inside a
completing `DEC.BYTE`, from the handler. -/
def execDecSetcb (f : Option Handler) (a : ContextValue) (s : State) : Outcome :=
  guarded .registrar s fun e => onDecoder e fun d =>
    if d.completing && s.cur != s.driverAgent then .refused .setcbDuringByte
    else (s.setDec e { d with cb := f, cbArg := a }).answer .unit

end Sys2Proof.Machine
end

