-- ==== Sys2Proof/Machine/Encoder.lean ====
section
/-! DEFINITION. The message encoder: seven operations, each the general form with its kind fixed
(44_encoder.md R205 to R212). -/

namespace Sys2Proof.Machine

/-- 44_encoder.md R206. -/
def execEncNoteoff (ch d0 d1 : Nat) (s : State) : Outcome := encodeAll 0x80#8 ch d0 d1 s

/-- 44_encoder.md R207. -/
def execEncNoteon (ch d0 d1 : Nat) (s : State) : Outcome := encodeAll 0x90#8 ch d0 d1 s

/-- 44_encoder.md R208. -/
def execEncPolykey (ch d0 d1 : Nat) (s : State) : Outcome := encodeAll 0xA0#8 ch d0 d1 s

/-- 44_encoder.md R209. -/
def execEncCc (ch d0 d1 : Nat) (s : State) : Outcome := encodeAll 0xB0#8 ch d0 d1 s

/-- 44_encoder.md R210: one data value, so the general form's `d1` is not used. -/
def execEncProgram (ch d0 : Nat) (s : State) : Outcome := encodeAll 0xC0#8 ch d0 0 s

/-- 44_encoder.md R211. -/
def execEncChanpress (ch d0 : Nat) (s : State) : Outcome := encodeAll 0xD0#8 ch d0 0 s

/-- 44_encoder.md R212: two data bytes, `d0` first. -/
def execEncPitchbend (ch d0 d1 : Nat) (s : State) : Outcome := encodeAll 0xE0#8 ch d0 d1 s

end Sys2Proof.Machine
end

