-- ==== Sys2Proof/Machine/InputRing.lean ====
section
/-! DEFINITION. The operations of the input ring (41_ring_input.md R150, R152). -/

namespace Sys2Proof.Machine

/-- S1 of `IN.WRITE` (41_ring_input.md R150): the snapshot of the consumer's cursor. -/
def execInWrite (bytes : List Byte) (count : Nat) (s : State) : Outcome :=
  guarded .producerIn s fun e =>
    .next (s.begin.push [.micro (.inWriteStore e.input.r bytes count)])

/-- S2 of `IN.WRITE`: store the accepted bytes, publish `w`, return how many (R150). -/
def inWriteStoreStep (rs : Nat) (bytes : List Byte) (count : Nat) (s : State) : Outcome :=
  onEndpoint s fun e =>
    let n := e.input.accepts rs count
    (s.setEndpoint { e with input := e.input.accept bytes n }).answer (.count n)

/-- 41_ring_input.md R152, one step. -/
def execInRead (s : State) : Outcome :=
  guarded .consumerIn s fun e =>
    if e.input.isEmpty then s.answer (.byte none)
    else match Memory.read e.input.cells e.input.r with
      | none => .fault (.unwrittenStorage .input e.input.r)
      | some v => (s.setEndpoint { e with input := e.input.consume 1 }).answer (.byte (some v))

end Sys2Proof.Machine
end

