-- ==== Sys2Proof/Machine/MessageStore.lean ====
section
/-! DEFINITION. The readers' operations on the message store (43_message_store.md R190 to R192). None
writes any state of the block (R196). -/

namespace Sys2Proof.Machine

/-- `STORE[i]`. -/
def Dec.slotAt (d : Dec) (i : Nat) : Message := d.store.getD i Message.blank

/-- A reader's operation on slot or cursor `i`; outside STORE it is no operation (93 U3). -/
def onSlot (d : Dec) (i : Nat) (k : Outcome) : Outcome :=
  if i < d.store.length then k else .refused (.slotIndex i)

/-- Completed messages a reader at `c` has not consumed (43_message_store.md R191). -/
def Dec.available (d : Dec) (c : Nat) : Nat := modSub d.writeSlot c d.store.length

/-- The end of a read of a slot that held `old` when the read began and holds `new` now: one atomic read
if nothing was written in between, else each field is old or new (20_memory.md R78; log 11). -/
def State.endPeek (s : State) (old new : Message) : Message × State :=
  if old = new then (new, s) else (tornMessage s.drawTear.1 old new, s.drawTear.2)

/-- 43_message_store.md R190. The read begins in this step and ends in the next; if the decoder writes
the slot in between, each field is old or new (20_memory.md R78; log 11). -/
def execMqPeek (i : Nat) (s : State) : Outcome :=
  guarded .reader s fun e => onDecoder e fun d => onSlot d i <|
    .next (s.begin.push [.micro (.peekFinish i (d.slotAt i))])

/-- The end of `MQ.PEEK`: the record, as the peek's begin and end and the drawn mask give it. -/
def peekFinishStep (i : Nat) (old : Message) (s : State) : Outcome :=
  onEndpoint s fun e => onDecoder e fun d =>
    (s.endPeek old (d.slotAt i)).2.answer (.message (s.endPeek old (d.slotAt i)).1)

/-- 43_message_store.md R191, one step. -/
def execMqAvail (c : Nat) (s : State) : Outcome :=
  guarded .reader s fun e => onDecoder e fun d => onSlot d c <|
    s.answer (.count (d.available c))

/-- 43_message_store.md R192: the `MQ.AVAIL` step, then the `MQ.PEEK`. -/
def execMqNext (c : Nat) (s : State) : Outcome :=
  guarded .reader s fun e => onDecoder e fun d => onSlot d c <|
    if d.available c = 0 then s.answer (.next none)
    else .next (s.begin.push [.micro (.nextPeek c)])

/-- The beginning of the peek of `MQ.NEXT`. -/
def nextPeekStep (c : Nat) (s : State) : Outcome :=
  onEndpoint s fun e => onDecoder e fun d =>
    .next (s.push [.micro (.nextFinish c (d.slotAt c))])

/-- The end of `MQ.NEXT`: the message and the reader's new cursor. -/
def nextFinishStep (c : Nat) (old : Message) (s : State) : Outcome :=
  onEndpoint s fun e => onDecoder e fun d =>
    (s.endPeek old (d.slotAt c)).2.answer
      (.next (some ((s.endPeek old (d.slotAt c)).1, modAdd c 1 d.store.length)))

end Sys2Proof.Machine
end

