-- ==== Sys2Proof/Machine/System.lean ====
section
/-! DEFINITION. Creation and teardown of the endpoint, and what happens at the boundary between the
agents' steps (70_reset_and_hazards.md R280 to R282; 45_bridge_and_system.md R235 to R237). -/

namespace Sys2Proof.Machine

/-- The capacities fit the cursor registers (00_scope.md R5: `2^CURSOR_BITS >= CAP`). -/
def fitsCursors (bits capIn capOut : Nat) : Bool := decide (capIn ≤ 2 ^ bits) && decide (capOut ≤ 2 ^ bits)

/-- 70_reset_and_hazards.md R280, step 2 of the boot order (R281): the transport is open and there is
no endpoint yet. -/
def execEpReset (capIn capOut msgSlots : Nat) (hasDecoder : Bool) (s : State) : Outcome :=
  if s.holds .owner then
    if s.ep.isSome then .refused .endpointExists
    else if s.env.handle.isOpen then
      if fitsCursors s.env.cursorBits capIn capOut then
        ((s.setEndpoint (Endpoint.reset capIn capOut msgSlots hasDecoder)).setEnv
          { s.env with polledIn := false, polledOut := false, begun := false, closing := false }).answer
          .unit
      else .refused .cursorWidth
    else .refused .transportNotOpen
  else .refused (.role s.cur)

/-- Step (1) of `EP.CLOSE` (70_reset_and_hazards.md R282): out of the polled sets. It waits for no agent
(20_memory.md R74); that an operation it finds in progress is refused at its next step is log 16 (DEDUCED). -/
def execEpClose (s : State) : Outcome :=
  guarded .owner s fun _ =>
    .next ((s.loseOthers.setEnv { s.env with polledIn := false, polledOut := false, closing := true }).begin.push
      [.micro .closeTransport])

/-- Step (2) of `EP.CLOSE`: `drainAndClose`, on an open handle only (R282 "exactly once"). -/
def closeTransportStep (s : State) : Outcome :=
  .next ((s.setEnv { s.env with handle := s.env.handle.release }).push [.micro .closeDestroy])

/-- Step (3) of `EP.CLOSE`: no state survives (R282). -/
def closeDestroyStep (s : State) : Outcome :=
  (({ s with ep := none } : State).setEnv { s.env with closing := false }).answer .unit

/-- A step of an operation on an endpoint whose `EP.CLOSE` has begun since (93_implementation_defined.md U16:
`refuse`; log 16). -/
def lostStep (_ : State) : Outcome := .refused .closing

/-- The transport may be opened for an endpoint that does not exist yet, for one direction or both
(R281 step 1). -/
def openTransportEvent (access : Access) (success : Bool) (s : State) : State :=
  if s.ep = none ∧ s.env.handle.isOpen = false then
    s.setEnv { s.env with handle := if success then .opened access else .failed }
  else s

/-- Registration in a polled set (R281 step 4; 45_bridge_and_system.md R236), in a direction the transport was
opened for (R234); it cannot happen to an endpoint that is absent or closing, or after the shutdown. That
polling does not begin here but with the first activation is the model's choice, DESIGN CHOICE (log 24). -/
def registerEvent (d : Direction) (s : State) : State :=
  if s.ep ≠ none ∧ s.env.handle.serves d ∧ s.env.closing = false ∧ s.env.shutdown = false then
    match d with
    | .input => s.setEnv { s.env with polledIn := true }
    | .output => s.setEnv { s.env with polledOut := true }
  else s

/-- Shutdown of the background task (45_bridge_and_system.md R235), between activations
(60_exceptions.md R270): nothing is polled any more, and the handle of a registered endpoint is drained and
released. -/
def shutdownEvent (s : State) : State :=
  if (s.thread .bgIn).inFlight || (s.thread .bgOut).inFlight then s
  else s.setEnv { s.env with
    polledIn := false
    polledOut := false
    shutdown := true
    handle := if s.env.polledIn || s.env.polledOut then s.env.handle.release else s.env.handle }

end Sys2Proof.Machine
end

