-- ==== Sys2Proof/Machine/Wire.lean ====
section
/-! DEFINITION. The meanings of the wire bytes, one row of the decode map each (30_encoding.md R96;
40_decoder.md R121 to R136). A row has a meaning in its own decoder state only (30_encoding.md R103). -/

namespace Sys2Proof.Machine

/-- A wire byte is a `DEC.BYTE`, issued by the decoder's driver, in the state its row names. -/
def onWire (st : DecState) (s : State) (k : Endpoint → Dec → Outcome) : Outcome :=
  guarded .driver s fun e => onDecoder e fun d =>
    if d.state = st then k e d else .refused (.wireRow st)

/-- 40_decoder.md R121. -/
def execNoteoff (ch : Channel) (s : State) : Outcome :=
  onWire .waitingForStatus s (statusStep .noteOff ch (some .unit) s.begin)

/-- 40_decoder.md R122. -/
def execNoteon (ch : Channel) (s : State) : Outcome :=
  onWire .waitingForStatus s (statusStep .noteOn ch (some .unit) s.begin)

/-- 40_decoder.md R123. -/
def execPolykey (ch : Channel) (s : State) : Outcome :=
  onWire .waitingForStatus s (statusStep .polyKeyPressure ch (some .unit) s.begin)

/-- 40_decoder.md R124. -/
def execCc (ch : Channel) (s : State) : Outcome :=
  onWire .waitingForStatus s (statusStep .controlChange ch (some .unit) s.begin)

/-- 40_decoder.md R125. -/
def execProgram (ch : Channel) (s : State) : Outcome :=
  onWire .waitingForStatus s (statusStep .programChange ch (some .unit) s.begin)

/-- 40_decoder.md R126. -/
def execChanpress (ch : Channel) (s : State) : Outcome :=
  onWire .waitingForStatus s (statusStep .channelPressure ch (some .unit) s.begin)

/-- 40_decoder.md R127. -/
def execPitchbend (ch : Channel) (s : State) : Outcome :=
  onWire .waitingForStatus s (statusStep .pitchBend ch (some .unit) s.begin)

/-- 40_decoder.md R129. -/
def execSox (s : State) : Outcome :=
  onWire .waitingForStatus s (gotoStep .receivingSysex (some .unit) s.begin)

/-- 40_decoder.md R130. -/
def execDiscardData (s : State) : Outcome :=
  onWire .waitingForStatus s fun _ _ => discardStep (some .unit) s.begin

/-- 40_decoder.md R131. -/
def execDiscardSyscommon (s : State) : Outcome :=
  onWire .waitingForStatus s fun _ _ => discardStep (some .unit) s.begin

/-- 40_decoder.md R132. -/
def execDiscardEox (s : State) : Outcome :=
  onWire .waitingForStatus s fun _ _ => discardStep (some .unit) s.begin

/-- 40_decoder.md R133. -/
def execDiscardRealtime (s : State) : Outcome :=
  onWire .waitingForStatus s fun _ _ => discardStep (some .unit) s.begin

/-- 40_decoder.md R134. -/
def execEox (s : State) : Outcome :=
  onWire .receivingSysex s (gotoStep .waitingForStatus (some .unit) s.begin)

/-- 40_decoder.md R135. -/
def execDiscardSysex (s : State) : Outcome :=
  onWire .receivingSysex s fun _ _ => discardStep (some .unit) s.begin

/-- 40_decoder.md R136, R137. -/
def execData (b : Byte) (s : State) : Outcome :=
  onWire .accumulatingData s (dataStep b (some .unit) s.begin)

end Sys2Proof.Machine
end

