-- ==== Sys2Proof/Machine/Dispatch.lean ====
section
/-! DEFINITION. The meaning of every instruction: what the step that issues it does. -/

namespace Sys2Proof.Machine

def exec (i : Instr) (s : State) : Host.Outcome State Fault Refusal :=
  match i with
  | .noteoff ch => Sys2Proof.Machine.execNoteoff ch s
  | .noteon ch => Sys2Proof.Machine.execNoteon ch s
  | .polykey ch => Sys2Proof.Machine.execPolykey ch s
  | .cc ch => Sys2Proof.Machine.execCc ch s
  | .program ch => Sys2Proof.Machine.execProgram ch s
  | .chanpress ch => Sys2Proof.Machine.execChanpress ch s
  | .pitchbend ch => Sys2Proof.Machine.execPitchbend ch s
  | .sox => Sys2Proof.Machine.execSox s
  | .discardData _ => Sys2Proof.Machine.execDiscardData s
  | .discardSyscommon _ => Sys2Proof.Machine.execDiscardSyscommon s
  | .discardEox => Sys2Proof.Machine.execDiscardEox s
  | .discardRealtime _ => Sys2Proof.Machine.execDiscardRealtime s
  | .eox => Sys2Proof.Machine.execEox s
  | .discardSysex _ => Sys2Proof.Machine.execDiscardSysex s
  | .data b => Sys2Proof.Machine.execData b s
  | .decByte b => Sys2Proof.Machine.execDecByte b s
  | .decParse bytes length => Sys2Proof.Machine.execDecParse bytes length s
  | .inWrite bytes count => Sys2Proof.Machine.execInWrite bytes count s
  | .inRead => Sys2Proof.Machine.execInRead s
  | .outEnq b => Sys2Proof.Machine.execOutEnq b s
  | .outEnqn bytes count => Sys2Proof.Machine.execOutEnqn bytes count s
  | .outDrain => Sys2Proof.Machine.execOutDrain s
  | .mqPeek k => Sys2Proof.Machine.execMqPeek k s
  | .mqAvail c => Sys2Proof.Machine.execMqAvail c s
  | .mqNext c => Sys2Proof.Machine.execMqNext c s
  | .encNoteoff ch d0 d1 => Sys2Proof.Machine.execEncNoteoff ch d0 d1 s
  | .encNoteon ch d0 d1 => Sys2Proof.Machine.execEncNoteon ch d0 d1 s
  | .encPolykey ch d0 d1 => Sys2Proof.Machine.execEncPolykey ch d0 d1 s
  | .encCc ch d0 d1 => Sys2Proof.Machine.execEncCc ch d0 d1 s
  | .encProgram ch d0 => Sys2Proof.Machine.execEncProgram ch d0 s
  | .encChanpress ch d0 => Sys2Proof.Machine.execEncChanpress ch d0 s
  | .encPitchbend ch d0 d1 => Sys2Proof.Machine.execEncPitchbend ch d0 d1 s
  | .decSetcb f a => Sys2Proof.Machine.execDecSetcb f a s
  | .inPoll => Sys2Proof.Machine.execInPoll s
  | .outPoll => Sys2Proof.Machine.execOutPoll s
  | .epReset capIn capOut msgSlots hasDecoder => Sys2Proof.Machine.execEpReset capIn capOut msgSlots hasDecoder s
  | .epClose => Sys2Proof.Machine.execEpClose s

end Sys2Proof.Machine
end

