-- ==== Sys2Proof/Machine/Tasks.lean ====
section
/-! DEFINITION. What each later step of an operation in progress does (20_memory.md R68). -/

namespace Sys2Proof.Machine

/-- One atomic step of an operation in progress. -/
def runMicro (m : Micro) (s : State) : Outcome :=
  match m with
  | .inWriteStore rs bytes count => inWriteStoreStep rs bytes count s
  | .outEnq b fin => outEnqStep b fin s
  | .drainRead r0 n i burst poll => drainReadStep r0 n i burst poll s
  | .drainFinish r0 burst poll => drainFinishStep r0 burst poll s
  | .decByte b fin => feedByte b fin s
  | .callback => callbackEnter s
  | .advance fin => advanceStep fin s
  | .peekFinish i old => peekFinishStep i old s
  | .nextPeek c => nextPeekStep c s
  | .nextFinish c old => nextFinishStep c old s
  | .pollDraw w0 f => pollDrawStep w0 f s
  | .pollSnap w0 f data => pollSnapStep w0 f data s
  | .pollStore rs w0 f data => pollStoreStep rs w0 f data s
  | .pollFeed w0 i => pollFeedStep w0 i s
  | .pollNext k f => pollNextStep k f s
  | .closeTransport => closeTransportStep s
  | .closeDestroy => closeDestroyStep s
  | .lost => lostStep s

end Sys2Proof.Machine
end

