-- ==== Sys2Proof/Machine/Step.lean ====
section
/-! DEFINITION. One atomic step of the machine: which agent acts, and what it does
(20_memory.md R68). -/

namespace Sys2Proof.Machine

/-- An agent's turn: issue its next operation, or take the next step of the one in progress. An agent
with nothing to do waits (log 5). -/
def runTask (k : Task) (s : State) : Outcome :=
  match k with
  | .issue i => if i.wellFormed then exec i s else .refused .illFormed
  | .micro m => runMicro m s

/-- The state in which agent `a` takes a step: it acts, and its first task is taken off its list. -/
def State.turnOf (s : State) (a : Agent) (rest : List Task) : State :=
  ({ s with cur := a } : State).setThread a { s.thread a with todo := rest }

/-- An agent's turn. -/
def runAgent (a : Agent) (s : State) : Outcome :=
  match (s.thread a).todo with
  | [] => .next s
  | k :: rest => runTask k (s.turnOf a rest)

/-- What happens next. -/
def takeEvent (v : Event) (s : State) : Outcome :=
  match v with
  | .act a => runAgent a s
  | .openTransport access success => .next (openTransportEvent access success s)
  | .register d => .next (registerEvent d s)
  | .shutdown => .next (shutdownEvent s)

/-- One step: the next event of the schedule, or a free one where the schedule is used up. -/
def step (s : State) : Host.Outcome State Fault Refusal :=
  match s.env.sched with
  | v :: rest => takeEvent v (s.setEnv { s.env with sched := rest })
  | [] => takeEvent (Config.freeEvent s.env.draws) (s.setEnv s.env.drawn)

/-- The state in which the decoder's driver takes the next step and feeds the byte `w` (log 10); a driver of
BG's operates on polled endpoints only (45_bridge_and_system.md R236), so the endpoint is polled. -/
def State.withFetchWord (s : State) (nbits w : Nat) : State :=
  let a := s.driverAgent
  let b : Byte := BitVec.ofNat 8 (w % 2 ^ min nbits 8)
  (s.setThread a { s.thread a with todo := .issue (.decByte b) :: (s.thread a).todo }).setEnv
    { s.env with sched := .act a :: s.env.sched, polledIn := s.env.polledIn || a == .bgIn }

end Sys2Proof.Machine
end

