-- ==== Sys2Proof/Safety.lean ====
section
/-! DEFINITION. The terms claims are stated in: uninterrupted runs of one agent, the abstract queue of
a ring, the decoder's merged transition, and the invariant that holds in every reachable state
(10_state.md R45). -/

namespace Sys2Proof.Machine

/-! ### Runs -/

/-- `n` turns of one agent in a row, no other agent acting in between. -/
def turns (a : Agent) : Nat → State → Outcome
  | 0, s => .next s
  | n + 1, s =>
    match runAgent a s with
    | .next t => turns a n t
    | o => o

/-- The acting agent may issue an operation of role `r` on the endpoint `e`: it holds the role
(60_exceptions.md R263), `EP.CLOSE` has not begun (93_implementation_defined.md U16), and where the agent is
BG's the endpoint is polled (45_bridge_and_system.md R236). -/
structure State.Admits (s : State) (r : Role) (e : Endpoint) : Prop where
  role : s.holds r = true
  present : s.ep = some e
  live : s.env.closing = false
  polled : s.unregistered r = none

/-- The acting agent's operation has returned `r`: it has the same work left as in `s`, no other thread has
changed, and the environment is `v`. Of the endpoint nothing is said. -/
structure ReturnedIn (s u : State) (v : Env) (r : Result) : Prop where
  env : u.env = v
  agent : u.cur = s.cur
  others : ∀ b, b ≠ s.cur → u.thread b = s.thread b
  todo : (u.thread s.cur).todo = (s.thread s.cur).todo
  ret : (u.thread s.cur).ret = some r

/-- As `ReturnedIn`, with nothing changed outside the block. -/
abbrev Returned (s u : State) (r : Result) : Prop := ReturnedIn s u s.env r

/-- As `ReturnedIn`, but the acting agent's operation goes on with the tasks `ts`. -/
structure GoesOnIn (s u : State) (v : Env) (ts : List Task) : Prop where
  env : u.env = v
  agent : u.cur = s.cur
  others : ∀ b, b ≠ s.cur → u.thread b = s.thread b
  todo : (u.thread s.cur).todo = ts ++ (s.thread s.cur).todo

/-- As `GoesOnIn`, with nothing changed outside the block. -/
abbrev GoesOn (s u : State) (ts : List Task) : Prop := GoesOnIn s u s.env ts

/-! ### Roles -/

/-- The role matrix of 60_exceptions.md R263, cell by cell, with BG's column split between its two loops
(log 6): the input loop has IN, the decoder and, inside a handler, OUT; the output loop has OUT. The wire
bytes are `DEC.BYTE`s (30_encoding.md R96). -/
def mayIssue (s : State) (a : Agent) : Instr → Bool
  | .inWrite _ _ | .inPoll => a == .bgIn
  | .outDrain | .outPoll => (a == .bgOut || (a == .bgIn && s.inHandler)) && !s.draining
  | .inRead | .outEnq _ | .outEnqn _ _
  | .encNoteoff _ _ _ | .encNoteon _ _ _ | .encPolykey _ _ _ | .encCc _ _ _
  | .encProgram _ _ | .encChanpress _ _ | .encPitchbend _ _ _ => a == .rt
  | .noteoff _ | .noteon _ | .polykey _ | .cc _ | .program _ | .chanpress _ | .pitchbend _
  | .sox | .discardData _ | .discardSyscommon _ | .discardEox | .discardRealtime _ | .eox
  | .discardSysex _ | .data _ | .decByte _ | .decParse _ _ => a == s.env.driver.agent
  | .mqPeek _ | .mqAvail _ | .mqNext _ => a == .rt || a == .bgIn || a == .bgOut
  | .decSetcb _ _ => a == s.env.driver.agent || (a == .owner && !s.env.begun)
  | .epReset _ _ _ _ | .epClose => a == .owner

/-- The operations that act on DEC or STORE (10_state.md R20). -/
def needsDecoder : Instr → Bool
  | .noteoff _ | .noteon _ | .polykey _ | .cc _ | .program _ | .chanpress _ | .pitchbend _
  | .sox | .discardData _ | .discardSyscommon _ | .discardEox | .discardRealtime _ | .eox
  | .discardSysex _ | .data _ | .decByte _ | .decParse _ _
  | .mqPeek _ | .mqAvail _ | .mqNext _ | .decSetcb _ _ => true
  | .inWrite _ _ | .inRead | .outEnq _ | .outEnqn _ _ | .outDrain
  | .encNoteoff _ _ _ | .encNoteon _ _ _ | .encPolykey _ _ _ | .encCc _ _ _
  | .encProgram _ _ | .encChanpress _ _ | .encPitchbend _ _ _
  | .inPoll | .outPoll | .epReset _ _ _ _ | .epClose => false

/-! ### Rings -/

/-- The unread bytes in the order they will be read (10_state.md R23). -/
def Ring.queue (q : Ring) : List (Option Byte) :=
  (List.range q.unread).map fun i => Memory.read q.cells (modAdd q.r i q.cap)

/-- `q'` is `q` with a list of bytes stored from the write cursor on, and nothing else changed: the stored
indices are those of 20_memory.md R63, and of a list longer than the ring the last bytes remain. -/
structure Ring.Stored (q q' : Ring) (bytes : List Byte) : Prop where
  cap : q'.cap = q.cap
  read_cursor : q'.r = q.r
  write_cursor : q'.w = (q.w + bytes.length) % q.cap
  stored : ∀ i, i < bytes.length → bytes.length - i ≤ q.cap →
    Memory.read q'.cells ((q.w + i) % q.cap) = bytes[i]?
  kept : ∀ a, (∀ i, i < bytes.length → a ≠ (q.w + i) % q.cap) →
    Memory.read q'.cells a = Memory.read q.cells a

/-- What 10_state.md R45 item 1 and R40 say of a ring, with the canonical form of its storage: both
cursors are below the capacity, and every unread index has been written. -/
structure Ring.Ok (q : Ring) : Prop where
  capacity : 2 ≤ q.cap
  write_in : q.w < q.cap
  read_in : q.r < q.cap
  canonical : Memory.wf q.cells = true
  inside : ∀ a, (Memory.read q.cells a).isSome = true → a < q.cap
  written : ∀ i, i < q.unread → (Memory.read q.cells (modAdd q.r i q.cap)).isSome = true

/-! ### The decoder -/

/-- One `DEC.BYTE` from its first to its last step, for a decoder without a callback: the transition
of 40_decoder.md R120, a completion merged into it. -/
def Dec.feed (d : Dec) (b : Byte) : Dec :=
  match d.state with
  | .waitingForStatus =>
    if 0x80#8 ≤ b ∧ b < 0xF0#8 then d.acceptStatus (tableType (hiNibble b)) (loNibble b)
    else if b = 0xF0#8 then { d with state := .receivingSysex }
    else d
  | .receivingSysex => if b = 0xF7#8 then { d with state := .waitingForStatus } else d
  | .accumulatingData =>
    match d.storeData b with
    | none => d
    | some d' => if d'.elapsed = d'.slot.dataByteCount then d'.advance else d'

/-- The record handed over when byte `b` completes a message (40_decoder.md R138). -/
def Dec.handed (d : Dec) (b : Byte) : Option Message :=
  match d.state with
  | .waitingForStatus | .receivingSysex => none
  | .accumulatingData =>
    match d.storeData b with
    | none => none
    | some d' => if d'.elapsed = d'.slot.dataByteCount then some d'.slot else none

/-- The messages a list of bytes produces, in order (40_decoder.md R146 item 4). -/
def Dec.messages (d : Dec) : List Byte → List Message
  | [] => []
  | b :: rest => (d.handed b).toList ++ (d.feed b).messages rest

/-- 10_state.md R45 items 2, 3, 5 and 6 (item 6 up to the end of the data bytes; `SysInv.handing` says
when they may all be there). Items 4 and 7 hold by the types. -/
structure Dec.Ok (d : Dec) : Prop where
  slots : 2 ≤ d.store.length
  slot_in : d.writeSlot < d.store.length
  elapsed_le : d.elapsed ≠ 3
  counts : ∀ m ∈ d.store, m.dataByteCount = m.type.count
  building : d.state = .accumulatingData → d.slot.type ≠ .none ∧ d.elapsed ≤ d.slot.dataByteCount

/-! ### The invariant -/

structure Endpoint.Ok (e : Endpoint) : Prop where
  input : e.input.Ok
  output : e.output.Ok
  dec : ∀ d, e.dec = some d → d.Ok

/-- Which agent takes which later steps, `drv` being the decoder's driver (60_exceptions.md R263). -/
def Micro.belongs (drv a : Agent) : Micro → Prop
  | .inWriteStore _ _ _ | .pollDraw _ _ | .pollSnap _ _ _ | .pollStore _ _ _ _ | .pollNext _ _ => a = .bgIn
  | .pollFeed _ _ => a = .bgIn ∧ a = drv
  | .outEnq _ _ => a = .rt
  | .drainRead _ _ _ _ _ | .drainFinish _ _ _ => a = .bgOut ∨ (a = .bgIn ∧ a = drv)
  | .decByte _ _ | .callback | .advance _ => a = drv
  | .peekFinish _ _ | .nextPeek _ | .nextFinish _ _ | .lost => a ≠ .owner
  | .closeTransport | .closeDestroy => a = .owner

/-- A burst of `n` bytes from the read cursor may be read: it lies in the unread region, or the producer
has lapped it and every index of the ring is written (20_memory.md R77). -/
def Ring.Drainable (q : Ring) (n : Nat) : Prop :=
  n ≤ q.cap ∧ (n ≤ q.unread ∨ ∀ a, a < q.cap → (Memory.read q.cells a).isSome = true)

/-- A snapshot of the read cursor: the consumer may have read on since, so it shows no more room than
there is (41_ring_input.md R157). -/
def Ring.Snapshot (q : Ring) (rs : Nat) : Prop := rs < q.cap ∧ q.unread ≤ modSub q.w rs q.cap

/-- What a later step relies on: its snapshots of cursors that only its own agent moves still hold, and
the storage bytes it will read have been written (10_state.md R22, R40). -/
def Micro.Ready (e : Endpoint) : Micro → Prop
  | .inWriteStore rs bytes count => count = bytes.length ∧ e.input.Snapshot rs
  | .drainRead r0 n i burst _ => r0 = e.output.r ∧ i < n ∧ burst.length = i ∧ e.output.Drainable n
  | .drainFinish r0 burst _ => r0 = e.output.r ∧ e.output.Drainable burst.length
  | .pollDraw w0 f => w0 = e.input.w ∧ f ≤ e.input.free
  | .pollSnap w0 f data => w0 = e.input.w ∧ data.length ≤ f ∧ f ≤ e.input.free
  | .pollStore rs w0 f data =>
    w0 = e.input.w ∧ data.length ≤ f ∧ f ≤ e.input.cap - modSub e.input.w rs e.input.cap ∧
      e.input.Snapshot rs
  | .advance _ => ∃ d, e.dec = some d ∧ d.completing = true
  | .pollFeed w0 i => (Memory.read e.input.cells (modAdd w0 i e.input.cap)).isSome = true
  | _ => True

/-- The steps that hold a snapshot of their own agent's cursor, and those of the teardown: each is the next
step of its agent, for nothing of that agent comes between. -/
def Micro.headOnly : Micro → Bool
  | .inWriteStore _ _ _ | .drainRead _ _ _ _ _ | .drainFinish _ _ _
  | .pollDraw _ _ | .pollSnap _ _ _ | .pollStore _ _ _ _ | .closeTransport | .closeDestroy => true
  | _ => false

/-- The step that stores into IN, of an `IN.WRITE` or of an `IN.POLL`: its snapshot and the bytes offered. -/
def Micro.Stores (m : Micro) (rs : Nat) (data : List Byte) : Prop :=
  m = .inWriteStore rs data data.length ∨ ∃ w0 f, m = .pollStore rs w0 f data

/-- Between `s` and `t` agent `a` has taken no step: what it has to do is as before, or is refused since an
`EP.CLOSE` began. -/
def State.Waits (s t : State) (a : Agent) : Prop :=
  (t.thread a).todo = (s.thread a).todo ∨ (t.thread a).todo = [.micro .lost]

/-- The last step of a completing `DEC.BYTE`. -/
def Task.isAdvance : Task → Bool
  | .micro (.advance _) => true
  | _ => false

/-- A drain in progress has read bytes that are still at the head of the unread region: the producer has not
overrun the ring since the drain began (70_reset_and_hazards.md R286). -/
def OutputCoherent (s : State) : Prop :=
  ∀ e, s.ep = some e →
    (∀ a r0 n i burst poll, Task.micro (.drainRead r0 n i burst poll) ∈ (s.thread a).todo →
      n ≤ e.output.unread ∧ burst.map some <+: e.output.queue) ∧
    (∀ a r0 burst poll, Task.micro (.drainFinish r0 burst poll) ∈ (s.thread a).todo →
      burst.map some <+: e.output.queue)

/-- The boundary's invariant: an endpoint is polled only in a direction its transport is open for
(45_bridge_and_system.md R234), and only while it exists, is not being closed and the background task runs
(R235, R236). -/
structure State.BoundaryOk (s : State) : Prop where
  serves : ∀ d, s.env.polled d = true → s.env.handle.serves d = true
  alive : ∀ d, s.env.polled d = true → s.ep ≠ none ∧ s.env.closing = false ∧ s.env.shutdown = false

/-- The cursor registers are wide enough for both rings (00_scope.md R5). -/
def Endpoint.Fits (bits : Nat) (e : Endpoint) : Prop := e.input.cap ≤ 2 ^ bits ∧ e.output.cap ≤ 2 ^ bits

/-- What holds of the work the agents have to do, whatever the endpoint holds. -/
structure WorkInv (s : State) : Prop where
  roles : ∀ a m, Task.micro m ∈ (s.thread a).todo → m.belongs s.driverAgent a
  heads : ∀ a m, Task.micro m ∈ (s.thread a).todo.tail → m.headOnly = false
  /-- One message is completed at a time (10_state.md R29). -/
  once : ∀ a, (s.thread a).todo.countP Task.isAdvance ≤ 1
  /-- From the beginning of `EP.CLOSE` on RT and BG take no step of an operation: what they had in progress is
  refused (93_implementation_defined.md U16; log 16, DEDUCED). -/
  still : s.ep = none ∨ s.env.closing = true → ∀ a m, a ≠ .owner → Task.micro m ∈ (s.thread a).todo → m = .lost
  /-- The owner's one operation of several steps is the teardown. -/
  tearing : ∀ m, Task.micro m ∈ (s.thread .owner).todo → s.env.closing = true
  /-- A loop of BG has an operation in progress only on an endpoint it polls (45_bridge_and_system.md R236). -/
  pollsIn : ∀ m, Task.micro m ∈ (s.thread .bgIn).todo → m ≠ .lost → s.env.polledIn = true
  pollsOut : ∀ m, Task.micro m ∈ (s.thread .bgOut).todo → m ≠ .lost → s.env.polledOut = true
  /-- OUT is drained by one loop at a time (93_implementation_defined.md U4). -/
  oneDrain : (s.thread .bgIn).todo.any Task.isDrain = false ∨ (s.thread .bgOut).todo.any Task.isDrain = false

/-- The invariant of the machine: 10_state.md R45, with what the steps in progress rely on. -/
structure SysInv (s : State) : Prop extends WorkInv s where
  endpoint : ∀ e, s.ep = some e → e.Ok
  ready : ∀ a m, Task.micro m ∈ (s.thread a).todo → ∀ e, s.ep = some e → m.Ready e
  boundary : s.BoundaryOk
  fits : ∀ e, s.ep = some e → e.Fits s.env.cursorBits
  /-- All data bytes of the message in progress are there only between the steps of a completing
  `DEC.BYTE` (20_memory.md R68), whose last step is then still to come, unless `EP.CLOSE` has begun since. -/
  handing : s.env.closing = false → ∀ e d, s.ep = some e → e.dec = some d → d.completing = true →
    ∃ a fin, Task.micro (.advance fin) ∈ (s.thread a).todo

end Sys2Proof.Machine
end

