-- ==== Sys2Proof/Certificates/Slice0/Obligations.lean ====
section
/-! DEFINITION. The statements for the provers. `s` is a state in which agent `s.cur` takes its step, its
task already off its list; `turns s.cur n t` are that agent's next `n` steps with no other in between. -/

section ObligationsSlice0

open Sys2Proof Sys2Proof.Machine

/-! ### Reset and the machine as a whole -/

/-- What reset leaves, at the parameters of `State.reset` (10_state.md R40 to R44; log 1). -/
def Obligations.ResetGivesStatedValues : Prop :=
  ∃ e d, State.reset.ep = some e ∧ e.dec = some d ∧
    e.input.w = 0 ∧ e.input.r = 0 ∧ e.output.w = 0 ∧ e.output.r = 0 ∧
    e.input.free = e.input.cap ∧ e.output.free = e.output.cap ∧
    d.state.waitingFlag = true ∧ d.state.sysexFlag = false ∧ d.elapsed = 0 ∧ d.writeSlot = 0 ∧
    d.cb = none ∧
    ∀ m ∈ d.store, m = { type := .none, channel := 0, data0 := 0, data1 := 0, dataByteCount := 0 }

/-- The invariant holds at reset; that reset leaves the transport open and the endpoint unpolled is log 18. -/
def Obligations.ResetMeetsInv : Prop := SysInv State.reset

/-- Every step keeps the invariant (10_state.md R45), from every state that meets it; with it that of the
boundary (45_bridge_and_system.md R234 to R236) and the width of the cursors (00_scope.md R5). Its clause `still`,
that RT and BG take no step of an operation that `EP.CLOSE` found in progress, is the model's reading of
93_implementation_defined.md U16 (log 16, DEDUCED); `oneDrain` is U4, with BG's two loops as two agents (log 6). -/
def Obligations.StepKeepsInv : Prop := ∀ s t, SysInv s → step s = .next t → SysInv t

/-- No step faults: no operation reads a storage byte that has not been written (10_state.md R40). -/
def Obligations.InvStepNeverFaults : Prop := ∀ s f, SysInv s → step s ≠ .fault f

/-- Each cursor is moved, and each storage written, by its owner alone, and the parameters never change
(10_state.md R22; 00_scope.md R5; log 6 for the two agents of BG: OUT is drained by the output loop, or by the
input loop where it drives the decoder, for a handler may drain). -/
def Obligations.CursorOwnership : Prop :=
  ∀ s t e e', SysInv s → step s = .next t → s.ep = some e → t.ep = some e' →
    ((e'.input.w ≠ e.input.w ∨ e'.input.cells ≠ e.input.cells) → t.cur = .bgIn) ∧
    (e'.input.r ≠ e.input.r → t.cur = .rt) ∧
    ((e'.output.w ≠ e.output.w ∨ e'.output.cells ≠ e.output.cells) → t.cur = .rt) ∧
    (e'.output.r ≠ e.output.r → t.cur = .bgOut ∨ (t.cur = .bgIn ∧ s.driverAgent = .bgIn)) ∧
    t.env.cursorBits = s.env.cursorBits ∧ e'.input.cap = e.input.cap ∧ e'.output.cap = e.output.cap ∧
    (∀ d, e.dec = some d → ∃ d', e'.dec = some d' ∧ d'.store.length = d.store.length) ∧
    (e.dec = none → e'.dec = none)

/-- Only the decoder's driver writes STORE and the decoder's control registers, only the slot at
`writeSlot` is ever written, and `writeSlot` moves by one at the end of a completion and at no other time
(43_message_store.md R196; 10_state.md R29). -/
def Obligations.StoreWriters : Prop :=
  ∀ s t e e' d d', SysInv s → step s = .next t → s.ep = some e → t.ep = some e' →
    e.dec = some d → e'.dec = some d' →
    (∀ k, k ≠ d.writeSlot → d'.store[k]? = d.store[k]?) ∧
    ((d'.store ≠ d.store ∨ d'.writeSlot ≠ d.writeSlot ∨ d'.state ≠ d.state ∨ d'.elapsed ≠ d.elapsed) →
      t.cur = s.driverAgent) ∧
    (d'.writeSlot ≠ d.writeSlot →
      d.completing = true ∧ d'.state = .waitingForStatus ∧ d'.store = d.store ∧
        d'.writeSlot = (d.writeSlot + 1) % d.store.length)

/-- The callback register pair is written by `DEC.SETCB` alone, both registers at once
(10_state.md R35; 45_bridge_and_system.md R225). -/
def Obligations.CallbackRegisterWriters : Prop :=
  ∀ s t e e' d d', step s = .next t → s.ep = some e → t.ep = some e' →
    e.dec = some d → e'.dec = some d' → (d'.cb ≠ d.cb ∨ d'.cbArg ≠ d.cbArg) →
    ∃ f a rest, (s.thread t.cur).todo = .issue (.decSetcb f a) :: rest ∧ d'.cb = f ∧ d'.cbArg = a

/-- After the shutdown of the background task nothing is polled again, and nothing moves bytes to or from the
transport any more (45_bridge_and_system.md R235): what the transport has taken, the bytes written into IN and
the cursor that a drain moves stay as they are. That BG's other operations are refused too, the endpoint being in no polled set, is log 18
(DESIGN CHOICE). -/
def Obligations.ShutdownStopsPolling : Prop :=
  ∀ s t, SysInv s → s.env.shutdown = true → step s = .next t →
    t.env.shutdown = true ∧ t.env.polledIn = false ∧ t.env.polledOut = false ∧ t.env.sent = s.env.sent ∧
    ∀ e e', s.ep = some e → t.ep = some e' →
      e'.input.w = e.input.w ∧ e'.input.cells = e.input.cells ∧ e'.output.r = e.output.r

/-- What the events at the boundary do, and that they do nothing else. The transport is opened for an endpoint
that does not exist yet, for the directions given, or fails to open (70_reset_and_hazards.md R281 step 1); the
endpoint is registered in a direction its transport is open for (R281 step 4; 45_bridge_and_system.md R234,
R236); the shutdown empties both polled sets and releases the open handle of a registered endpoint, once
(R235). As events of a schedule they are the model's form (log 5), and so is what each needs: no endpoint and no
open handle; an endpoint that is not closing and a task that runs; no activation in progress (log 18). That a
registration leaves `begun` as it was, for polling begins with the first activation, is log 24 (DESIGN CHOICE). -/
def Obligations.BoundaryEventsDoAsSaid : Prop :=
  ∀ (s : State) (v : List Event),
    (∀ a ok, s.env.sched = .openTransport a ok :: v →
      (s.ep = none → s.env.handle.isOpen = false → step s = .next (s.setEnv { s.env with
        sched := v, handle := if ok then .opened a else .failed })) ∧
      (s.ep ≠ none ∨ s.env.handle.isOpen = true → step s = .next (s.setEnv { s.env with sched := v }))) ∧
    (∀ d, s.env.sched = .register d :: v →
      (s.ep ≠ none → s.env.handle.serves d = true → s.env.closing = false → s.env.shutdown = false →
        (d = .input → step s = .next (s.setEnv { s.env with sched := v, polledIn := true })) ∧
        (d = .output → step s = .next (s.setEnv { s.env with sched := v, polledOut := true }))) ∧
      (s.ep = none ∨ s.env.handle.serves d = false ∨ s.env.closing = true ∨ s.env.shutdown = true →
        step s = .next (s.setEnv { s.env with sched := v }))) ∧
    (s.env.sched = .shutdown :: v →
      ((s.thread .bgIn).inFlight = false → (s.thread .bgOut).inFlight = false →
        ∃ t, step s = .next t ∧ t.ep = s.ep ∧ t.threads = s.threads ∧ t.cur = s.cur ∧
          t.env = { s.env with
            sched := v, polledIn := false, polledOut := false, shutdown := true, handle := t.env.handle } ∧
          (s.env.handle.isOpen = true → s.env.polledIn = true ∨ s.env.polledOut = true →
            t.env.handle = .released) ∧
          (s.env.handle.isOpen = false ∨ (s.env.polledIn = false ∧ s.env.polledOut = false) →
            t.env.handle = s.env.handle)) ∧
      ((s.thread .bgIn).inFlight = true ∨ (s.thread .bgOut).inFlight = true →
        step s = .next (s.setEnv { s.env with sched := v })))

/-! ### Encoding and the step -/

/-- Decoding the encoding of a well-formed instruction gives it back, with every operand bit, and leaves
the rest of the stream. -/
def Obligations.DecodeOfEncode : Prop :=
  ∀ (i : Instr) (st : DecState) (b : Byte) (rest : List Byte), i.wellFormed = true →
    encode i = some (st, b) → decode st (b :: rest) = .ok (i, rest)

/-- Every byte decodes in every state, to a well-formed instruction whose encoding it is
(30_encoding.md R96, R99). -/
def Obligations.EncodeOfDecode : Prop :=
  ∀ (st : DecState) (b : Byte) (rest : List Byte),
    ∃ i, decode st (b :: rest) = .ok (i, rest) ∧ i.wellFormed = true ∧ encode i = some (st, b)

/-- The rows of one state are disjoint and cover all 256 values (30_encoding.md R103). -/
def Obligations.OneRowAppliesToEachByte : Prop :=
  ∀ (st : DecState) (b : Byte), (wireRows.filter (·.applies st b)).length = 1

/-- The complete map from state and byte to instruction (30_encoding.md R96), range by range, each operand
the bits R97 names. -/
def Obligations.EveryByteDecodesByTheMap : Prop :=
  ∀ b : Byte,
    (b ≤ 0x7F#8 → decodeByte .waitingForStatus b = some (.discardData (b.extractLsb' 0 7))) ∧
    (0x80#8 ≤ b ∧ b ≤ 0x8F#8 → decodeByte .waitingForStatus b = some (.noteoff (b.extractLsb' 0 4))) ∧
    (0x90#8 ≤ b ∧ b ≤ 0x9F#8 → decodeByte .waitingForStatus b = some (.noteon (b.extractLsb' 0 4))) ∧
    (0xA0#8 ≤ b ∧ b ≤ 0xAF#8 → decodeByte .waitingForStatus b = some (.polykey (b.extractLsb' 0 4))) ∧
    (0xB0#8 ≤ b ∧ b ≤ 0xBF#8 → decodeByte .waitingForStatus b = some (.cc (b.extractLsb' 0 4))) ∧
    (0xC0#8 ≤ b ∧ b ≤ 0xCF#8 → decodeByte .waitingForStatus b = some (.program (b.extractLsb' 0 4))) ∧
    (0xD0#8 ≤ b ∧ b ≤ 0xDF#8 → decodeByte .waitingForStatus b = some (.chanpress (b.extractLsb' 0 4))) ∧
    (0xE0#8 ≤ b ∧ b ≤ 0xEF#8 → decodeByte .waitingForStatus b = some (.pitchbend (b.extractLsb' 0 4))) ∧
    (b = 0xF0#8 → decodeByte .waitingForStatus b = some .sox) ∧
    (0xF1#8 ≤ b ∧ b ≤ 0xF6#8 → decodeByte .waitingForStatus b = some (.discardSyscommon b)) ∧
    (b = 0xF7#8 → decodeByte .waitingForStatus b = some .discardEox ∧
      decodeByte .receivingSysex b = some .eox) ∧
    (0xF8#8 ≤ b → decodeByte .waitingForStatus b = some (.discardRealtime (b.extractLsb' 0 3))) ∧
    (b ≠ 0xF7#8 → decodeByte .receivingSysex b = some (.discardSysex b)) ∧
    decodeByte .accumulatingData b = some (.data b)

/-- One byte of every row's mnemonic. 0x8F, 0xA2, 0xD0, 0x7F and the discarded 0xF7 are written out from the map of
30_encoding.md R96 and the operand fields of R97; the others stand in R104 or in spec/95_test_vectors.md
section 2.17. -/
def Obligations.WireBytesDecodeAsListed : Prop :=
  ∀ p ∈ [(DecState.waitingForStatus, 0x8F#8, Instr.noteoff 15), (.waitingForStatus, 0x93#8, .noteon 3),
      (.waitingForStatus, 0xA2#8, .polykey 2), (.waitingForStatus, 0xB3#8, .cc 3),
      (.waitingForStatus, 0xC9#8, .program 9), (.waitingForStatus, 0xD0#8, .chanpress 0),
      (.waitingForStatus, 0xEF#8, .pitchbend 15), (.waitingForStatus, 0xF0#8, .sox),
      (.waitingForStatus, 0x7F#8, .discardData 0x7F#7), (.waitingForStatus, 0xF5#8, .discardSyscommon 0xF5#8),
      (.waitingForStatus, 0xF7#8, .discardEox), (.waitingForStatus, 0xFA#8, .discardRealtime 2),
      (.receivingSysex, 0xF7#8, .eox), (.receivingSysex, 0x93#8, .discardSysex 0x93#8),
      (.accumulatingData, 0xF7#8, .data 0xF7#8)],
    decodeByte p.1 p.2.1 = some p.2.2

/-- A step is the next scheduled agent's next task: the issue of an operation is `exec` of it, and a task
of an operation in progress is that one step (20_memory.md R68; logs 5 and 10). That a term whose operands are no
operation of the block (30_encoding.md R100; 00_scope.md R5) is refused is the model's choice (log 27, DEDUCED). -/
def Obligations.StepRunsNextTask : Prop :=
  ∀ (s : State) (a : Agent) (v : List Event), s.env.sched = .act a :: v →
    (∀ i rest, (s.thread a).todo = .issue i :: rest → i.wellFormed = true →
      step s = exec i ((s.setEnv { s.env with sched := v }).turnOf a rest)) ∧
    (∀ i rest, (s.thread a).todo = .issue i :: rest → i.wellFormed = false →
      step s = .refused .illFormed) ∧
    (∀ m rest, (s.thread a).todo = .micro m :: rest →
      step s = runMicro m ((s.setEnv { s.env with sched := v }).turnOf a rest)) ∧
    ((s.thread a).todo = [] → step s = .next (s.setEnv { s.env with sched := v }))

/-- When the byte placed for the decoder's driver decodes, in the decoder's state, to an instruction, the
step is `exec` of that instruction in the driver's turn, its own work still to come. The placement polls the
endpoint where BG drives (log 10). -/
def Obligations.StepRunsDecodedByte : Prop :=
  ∀ (s : State) (e : Endpoint) (d : Dec) (b : Byte) (i : Instr), s.ep = some e → e.dec = some d →
    decode d.state [b] = .ok (i, []) →
    step (s.withFetchWord 8 b.toNat) =
      exec i ((s.setEnv { s.env with polledIn := s.env.polledIn || s.driverAgent == .bgIn }).turnOf
        s.driverAgent (s.thread s.driverAgent).todo)

/-- `DEC.BYTE b` is the instruction `b` decodes to in the decoder's state (40_decoder.md R120;
30_encoding.md R96): the same outcome in every state, refusals included.
That the fifteen wire rows are instructions of their own is log 28 (DEDUCED). -/
def Obligations.DecByteIsDecodedInstruction : Prop :=
  ∀ (s : State) (e : Endpoint) (d : Dec) (b : Byte) (i : Instr), s.ep = some e → e.dec = some d →
    decodeByte d.state b = some i → exec (.decByte b) s = exec i s

/-! ### The decoder -/

/-- 40_decoder.md R121 to R128: a status byte sets type, channel and count of the slot at `writeSlot`, resets
`elapsed`, and goes to AccumulatingData; `data` stays (the spec's decision D10;
log 22, unsafe). -/
def Obligations.StatusRowsStartMessage : Prop :=
  ∀ (s : State) (e : Endpoint) (d : Dec) (ch : Channel) (i : Instr) (T : MsgType) (n : BitVec 2),
    s.Admits .driver e → e.dec = some d → d.state = .waitingForStatus →
    (i, T, n) ∈ [(Instr.noteoff ch, MsgType.noteOff, 2#2), (.noteon ch, .noteOn, 2#2),
      (.polykey ch, .polyKeyPressure, 2#2), (.cc ch, .controlChange, 2#2),
      (.program ch, .programChange, 1#2), (.chanpress ch, .channelPressure, 1#2),
      (.pitchbend ch, .pitchBend, 2#2)] →
    ∃ t, exec i s = .next t ∧ Returned s t .unit ∧
      t.ep = some { e with dec := some { d with
        state := .accumulatingData, elapsed := 0,
        store := d.store.set d.writeSlot { d.slot with type := T, channel := ch, dataByteCount := n } } }

/-- 40_decoder.md R129 and R134: `0xF0` and `0xF7` move the control state and nothing else. -/
def Obligations.SysexRowsMoveState : Prop :=
  ∀ (s : State) (e : Endpoint) (d : Dec), s.Admits .driver e → e.dec = some d →
    (d.state = .waitingForStatus → ∃ t, exec .sox s = .next t ∧ Returned s t .unit ∧
      t.ep = some { e with dec := some { d with state := .receivingSysex } }) ∧
    (d.state = .receivingSysex → ∃ t, exec .eox s = .next t ∧ Returned s t .unit ∧
      t.ep = some { e with dec := some { d with state := .waitingForStatus } })

/-- 40_decoder.md R130 to R133 and R135: the discards change no state of the block. -/
def Obligations.DiscardRowsChangeNothing : Prop :=
  ∀ (s : State) (e : Endpoint) (d : Dec), s.Admits .driver e → e.dec = some d →
    (d.state = .waitingForStatus → ∀ (v : BitVec 7) (b : Byte) (r : BitVec 3),
      ∀ i ∈ [Instr.discardData v, .discardSyscommon b, .discardEox, .discardRealtime r],
        ∃ t, exec i s = .next t ∧ Returned s t .unit ∧ t.ep = s.ep) ∧
    (d.state = .receivingSysex → ∀ b : Byte,
      ∃ t, exec (.discardSysex b) s = .next t ∧ Returned s t .unit ∧ t.ep = s.ep)

/-- 40_decoder.md R136 and R137: while a data byte is owed, any byte is stored whole as data byte `elapsed`
and `elapsed` counts it; if it was the last one owed, the completion is what the agent does next. -/
def Obligations.DataRowStoresByte : Prop :=
  ∀ (s : State) (e : Endpoint) (d : Dec) (b : Byte), s.Admits .driver e → e.dec = some d → d.Ok →
    d.state = .accumulatingData → d.elapsed < d.slot.dataByteCount →
    ∃ t, exec (.data b) s = .next t ∧
      t.ep = some { e with dec := some { d with
        elapsed := d.elapsed + 1
        store := d.store.set d.writeSlot
          (if d.elapsed = 0 then { d.slot with data0 := b } else { d.slot with data1 := b }) } } ∧
      (d.elapsed + 1 ≠ d.slot.dataByteCount → Returned s t .unit) ∧
      (d.elapsed + 1 = d.slot.dataByteCount → d.cb = none →
        GoesOn s t [.micro (.advance (some .unit))]) ∧
      (d.elapsed + 1 = d.slot.dataByteCount → d.cb ≠ none →
        GoesOn s t [.micro .callback, .micro (.advance (some .unit))])

/-- 40_decoder.md R138: callback if registered, then advance `writeSlot`, then WaitingForStatus, in exactly
this order. `e1` is the endpoint after the message's last data byte, which is what the handler sees; that what
the handler issues is a list taken from `env.scripts`, issued before the advance, is the model's choice
(log 14). The advance's step is the last clause. -/
def Obligations.CompletionSequence : Prop :=
  ∀ (s : State) (e : Endpoint) (d : Dec) (b : Byte), s.Admits .driver e → e.dec = some d → d.Ok →
    d.state = .accumulatingData → d.elapsed + 1 = d.slot.dataByteCount →
    (∃ t e1 d1, exec (.data b) s = .next t ∧ t.ep = some e1 ∧ e1.dec = some d1 ∧
      d1.state = .accumulatingData ∧ d1.elapsed = d1.slot.dataByteCount ∧ d1.writeSlot = d.writeSlot ∧
      (d.cb = none → GoesOn s t [.micro (.advance (some .unit))] ∧
        ∃ u, turns s.cur 1 t = .next u ∧ Returned s u .unit ∧
          u.ep = some { e1 with dec := some { d1 with
            writeSlot := (d1.writeSlot + 1) % d1.store.length, state := .waitingForStatus } }) ∧
      (∀ h script rest, d.cb = some h → s.env.scripts = script :: rest →
        ∃ u, turns s.cur 1 t = .next u ∧ u.ep = t.ep ∧
          GoesOnIn s u { s.env with
            scripts := rest
            calls := s.env.calls ++ [{ handler := h, message := d1.slot, arg := d.cbArg }] }
            (script.map .issue ++ [.micro (.advance (some .unit))]))) ∧
    (∀ (x : State) (e2 : Endpoint) (d2 : Dec), x.ep = some e2 → e2.dec = some d2 →
      ∃ v, runMicro (.advance (some .unit)) x = .next v ∧ Returned x v .unit ∧
        v.ep = some { e2 with dec := some { d2 with
          writeSlot := (d2.writeSlot + 1) % d2.store.length, state := .waitingForStatus } })

/-- 60_exceptions.md R260: the handler registered at completion time is called with the record at `writeSlot` and
the context value, and entering it changes no state of the block. R261: it runs in the driver's context. That what
it issues is a list taken from `env.scripts`, which that agent has to do next, is the model's choice (log 14, DESIGN
CHOICE). What comes after it is CompletionSequence. -/
def Obligations.CallbackEntryPassesRecord : Prop :=
  ∀ (s : State) (e : Endpoint) (d : Dec) (h : Handler) (script : List Instr) (rest : List (List Instr)),
    s.ep = some e → e.dec = some d → d.cb = some h → s.env.scripts = script :: rest →
    ∃ u, runMicro .callback s = .next u ∧ u.ep = s.ep ∧
      GoesOnIn s u { s.env with
        scripts := rest
        calls := s.env.calls ++ [{ handler := h, message := d.slot, arg := d.cbArg }] }
        (script.map .issue)

/-- `DEC.BYTE`, from its first to its last step, in every configuration of the decoder that takes a byte:
it always succeeds (40_decoder.md R120, R145) and is the one transition `Dec.feed`. -/
def Obligations.DecByteFeedsDecoder : Prop :=
  ∀ (s : State) (e : Endpoint) (d : Dec) (b : Byte), s.Admits .driver e → e.dec = some d → d.Ok →
    d.completing = false →
    ∃ t, exec (.decByte b) s = .next t ∧
      (d.cb = none → ∃ n u, n ≤ 1 ∧ turns s.cur n t = .next u ∧ Returned s u .unit ∧
        u.ep = some { e with dec := some (d.feed b) })

/-- `DEC.PARSE` is the `DEC.BYTE`s of its list in order and returns the length; the empty list changes
nothing (40_decoder.md R141, R142). -/
def Obligations.DecParseFeedsEveryByte : Prop :=
  ∀ (s : State) (e : Endpoint) (d : Dec) (bytes : List Byte), s.Admits .driver e → e.dec = some d →
    d.Ok → d.completing = false → d.cb = none →
    ∃ t n u, exec (.decParse bytes bytes.length) s = .next t ∧ turns s.cur n t = .next u ∧
      Returned s u (.count bytes.length) ∧ u.ep = some { e with dec := some (bytes.foldl Dec.feed d) }

/-- Streaming equivalence: two calls of `DEC.PARSE` leave what one call with the joined list leaves
(40_decoder.md R142). -/
def Obligations.DecParseStreams : Prop :=
  ∀ (s : State) (e : Endpoint) (d : Dec) (a b : List Byte), s.Admits .driver e → e.dec = some d →
    d.Ok → d.completing = false → d.cb = none →
    ∃ t1 n1 u1 t2 n2 u2 t3 n3 u3,
      exec (.decParse a a.length) s = .next t1 ∧ turns s.cur n1 t1 = .next u1 ∧
      Returned s u1 (.count a.length) ∧
      exec (.decParse b b.length) u1 = .next t2 ∧ turns s.cur n2 t2 = .next u2 ∧
      Returned u1 u2 (.count b.length) ∧
      exec (.decParse (a ++ b) (a ++ b).length) s = .next t3 ∧ turns s.cur n3 t3 = .next u3 ∧
      Returned s u3 (.count (a.length + b.length)) ∧ u3.ep = u2.ep

/-- With a handler registered that issues nothing (every script drawn is empty, log 14), `DEC.PARSE` calls it
once for every message its list completes, in order, and leaves the same decoder (40_decoder.md R141;
60_exceptions.md R260). -/
def Obligations.DecParseCallsBackInOrder : Prop :=
  ∀ (s : State) (e : Endpoint) (d : Dec) (h : Handler) (bytes : List Byte) (rest : List (List Instr)),
    s.Admits .driver e → e.dec = some d → d.Ok → d.completing = false → d.cb = some h →
    s.env.scripts = List.replicate (d.messages bytes).length [] ++ rest →
    ∃ t n u, exec (.decParse bytes bytes.length) s = .next t ∧ turns s.cur n t = .next u ∧
      ReturnedIn s u { s.env with
        scripts := rest
        calls := s.env.calls ++ (d.messages bytes).map fun m => ⟨h, m, d.cbArg⟩ }
        (.count bytes.length) ∧
      u.ep = some { e with dec := some (bytes.foldl Dec.feed d) }

/-- A status byte and the data bytes its type takes, whatever their values, produce exactly one message,
equal to what was sent; data bytes that follow without a status byte are dropped
(40_decoder.md R140, R144, R146 item 1). That `data1` of a message with one data byte is what the slot held
before is the spec's decision D10 (log 22, unsafe), that `elapsed` keeps its final value its decision D11. -/
def Obligations.OneMessagePerStatusByte : Prop :=
  ∀ (d : Dec) (b : Byte) (data stray : List Byte), d.Ok → d.state = .waitingForStatus →
    0x80#8 ≤ b → b < 0xF0#8 → data.length = (tableType (hiNibble b)).count.toNat →
    (∀ x ∈ stray, x < 0x80#8) →
    let m : Message :=
      { type := tableType (hiNibble b), channel := loNibble b, data0 := data.getD 0 0,
        data1 := data.getD 1 d.slot.data1, dataByteCount := (tableType (hiNibble b)).count }
    d.messages (b :: data ++ stray) = [m] ∧
      (b :: data ++ stray).foldl Dec.feed d =
        { d with
          elapsed := m.dataByteCount, writeSlot := (d.writeSlot + 1) % d.store.length
          store := d.store.set d.writeSlot m }

/-- A System Exclusive block produces no message and leaves the decoder as it was, whatever is between the
delimiters (40_decoder.md R146 item 2). -/
def Obligations.SysexBlockProducesNothing : Prop :=
  ∀ (d : Dec) (payload : List Byte), d.state = .waitingForStatus → (∀ b ∈ payload, b ≠ 0xF7#8) →
    d.messages (0xF0#8 :: payload ++ [0xF7#8]) = [] ∧
      (0xF0#8 :: payload ++ [0xF7#8]).foldl Dec.feed d = d

/-- Message `j` of an input stands in the slot `j` places after the first one, until the decoder comes round
to that slot (20_memory.md R71; 43_message_store.md R194). -/
def Obligations.MessagesStandInDecodeOrder : Prop :=
  ∀ (d : Dec) (bytes : List Byte), d.Ok → d.completing = false →
    (bytes.foldl Dec.feed d).writeSlot = (d.writeSlot + (d.messages bytes).length) % d.store.length ∧
    ∀ j, j < (d.messages bytes).length → (d.messages bytes).length < j + d.store.length →
      (d.messages bytes)[j]? =
        some ((bytes.foldl Dec.feed d).slotAt ((d.writeSlot + j) % d.store.length))

/-- 45_bridge_and_system.md R225: both registers are written in one step and nothing else, by the driver, also
from inside its handler, or by the owner before the endpoint is first polled (log 24). -/
def Obligations.SetcbWritesBothRegisters : Prop :=
  ∀ (s : State) (e : Endpoint) (d : Dec) (f : Option Handler) (a : ContextValue),
    s.Admits .registrar e → e.dec = some d → (d.completing = true → s.cur = s.driverAgent) →
    ∃ t, exec (.decSetcb f a) s = .next t ∧ Returned s t .unit ∧
      t.ep = some { e with dec := some { d with cb := f, cbArg := a } }

/-! ### The input ring -/

/-- 41_ring_input.md R150 and R156, uninterrupted: the first `min(count, free)` bytes are stored, `w` is
published, the number accepted is the result. -/
def Obligations.InWriteAcceptsFirstBytes : Prop :=
  ∀ (s : State) (e : Endpoint) (bytes : List Byte), s.Admits .producerIn e → e.input.Ok →
    ∃ t u n q, exec (.inWrite bytes bytes.length) s = .next t ∧
      GoesOn s t [.micro (.inWriteStore e.input.r bytes bytes.length)] ∧ t.ep = s.ep ∧
      turns s.cur 1 t = .next u ∧ n = min bytes.length e.input.free ∧ Returned s u (.count n) ∧
      u.ep = some { e with input := q } ∧ e.input.Stored q (bytes.take n)

/-- Step S2 of `IN.WRITE` on its own, with the snapshot `rs` its S1 took (41_ring_input.md R150, R155):
the count is computed from the snapshot, and no unread byte is touched. -/
def Obligations.InWriteStoreSparesUnread : Prop :=
  ∀ (s : State) (e : Endpoint) (rs : Nat) (bytes : List Byte), s.ep = some e → e.input.Ok →
    e.input.Snapshot rs →
    ∃ u n q, runMicro (.inWriteStore rs bytes bytes.length) s = .next u ∧
      n = min bytes.length (e.input.cap - (e.input.w + e.input.cap - rs) % e.input.cap) ∧
      Returned s u (.count n) ∧ u.ep = some { e with input := q } ∧ e.input.Stored q (bytes.take n) ∧
      n ≤ e.input.free ∧
      ∀ j, j < e.input.unread →
        Memory.read q.cells ((e.input.r + j) % e.input.cap) =
          Memory.read e.input.cells ((e.input.r + j) % e.input.cap)

/-- 41_ring_input.md R154: an `IN.WRITE` that is offered all the free space fills the ring, which then reads
as empty. -/
def Obligations.FullInputReadsEmpty : Prop :=
  ∀ (s : State) (e : Endpoint) (bytes : List Byte), s.Admits .producerIn e → e.input.Ok →
    e.input.free ≤ bytes.length →
    ∃ t u q, exec (.inWrite bytes bytes.length) s = .next t ∧ turns s.cur 1 t = .next u ∧
      Returned s u (.count e.input.free) ∧ u.ep = some { e with input := q } ∧
      q.w = q.r ∧ q.unread = 0 ∧ q.isEmpty = true

/-- 41_ring_input.md R152. -/
def Obligations.InReadTakesOldest : Prop :=
  ∀ (s : State) (e : Endpoint), s.Admits .consumerIn e → e.input.Ok →
    (e.input.r = e.input.w →
      ∃ t, exec .inRead s = .next t ∧ Returned s t (.byte none) ∧ t.ep = s.ep) ∧
    (e.input.r ≠ e.input.w →
      ∃ t v, exec .inRead s = .next t ∧ Memory.read e.input.cells e.input.r = some v ∧
        Returned s t (.byte (some v)) ∧
        t.ep = some { e with input := { e.input with r := (e.input.r + 1) % e.input.cap } })

/-- First in, first out, over every step of the machine (41_ring_input.md R153, R154). In a store step of the input
loop the queue of unread bytes grows at its tail by exactly the bytes the step accepts, those of its data that the
snapshot shows room for (R150), and empties when they fill the ring; in an `IN.READ` it gives its head to the
caller; in every other step it stays, and the store or the read at the head of its agent's list is still to come, or is
refused since an `EP.CLOSE` began (log 16).
That only the input loop of BG stores is log 6 (DEDUCED). -/
def Obligations.InputIsFirstInFirstOut : Prop :=
  ∀ s t e e', SysInv s → step s = .next t → s.ep = some e → t.ep = some e' →
    (e'.input.queue = e.input.queue ∧
      (∀ m rs data rest, (s.thread .bgIn).todo = .micro m :: rest → m.Stores rs data → s.Waits t .bgIn) ∧
      (∀ rest, (s.thread .rt).todo = .issue .inRead :: rest → e.input.queue ≠ [] → s.Waits t .rt)) ∨
    (∃ (m : Micro) (rs : Nat) (data bytes : List Byte) (rest : List Task), t.cur = .bgIn ∧
      (s.thread .bgIn).todo = .micro m :: rest ∧ m.Stores rs data ∧
      bytes = data.take (e.input.cap - (e.input.w + e.input.cap - rs) % e.input.cap) ∧
      e.input.Stored e'.input bytes ∧ e.input.unread + bytes.length ≤ e.input.cap ∧
      e'.input.queue = if e.input.unread + bytes.length < e.input.cap
        then e.input.queue ++ bytes.map some else []) ∨
    (∃ (v : Byte) (rest : List Task), t.cur = .rt ∧ (s.thread .rt).todo = .issue .inRead :: rest ∧
      e.input.queue = some v :: e'.input.queue ∧ (t.thread .rt).ret = some (.byte (some v)))

/-! ### The output ring -/

/-- 42_ring_output.md R170. -/
def Obligations.OutEnqStoresUnconditionally : Prop :=
  ∀ (s : State) (e : Endpoint) (b : Byte), s.Admits .producerOut e → e.output.w < e.output.cap →
    ∃ t q, exec (.outEnq b) s = .next t ∧ Returned s t .unit ∧ t.ep = some { e with output := q } ∧
      q.cap = e.output.cap ∧ q.r = e.output.r ∧ q.w = (e.output.w + 1) % e.output.cap ∧
      Memory.read q.cells e.output.w = some b ∧
      ∀ a, a ≠ e.output.w → Memory.read q.cells a = Memory.read e.output.cells a

/-- 42_ring_output.md R172: one byte too many makes the ring read as empty; the next one is then the only
byte to be sent. -/
def Obligations.OutEnqOverflowEmptiesRing : Prop :=
  ∀ (s : State) (e : Endpoint) (b : Byte), s.Admits .producerOut e → e.output.Ok →
    ∃ t q, exec (.outEnq b) s = .next t ∧ t.ep = some { e with output := q } ∧
      (e.output.unread < e.output.cap - 1 → q.queue = e.output.queue ++ [some b]) ∧
      (e.output.unread = e.output.cap - 1 →
        q.unread = 0 ∧ ∀ a, a ≠ e.output.w → Memory.read q.cells a = Memory.read e.output.cells a)

/-- 42_ring_output.md R171: `count` separate steps of `OUT.ENQ`, the first in the issuing step. -/
def Obligations.OutEnqnEnqueuesInOrder : Prop :=
  ∀ (s : State) (e : Endpoint) (bytes : List Byte), s.Admits .producerOut e → e.output.Ok →
    ∃ t u q, exec (.outEnqn bytes bytes.length) s = .next t ∧
      turns s.cur (bytes.length - 1) t = .next u ∧ Returned s u .unit ∧
      u.ep = some { e with output := q } ∧ e.output.Stored q bytes ∧
      (∀ b rest, bytes = b :: rest → ∃ q1, t.ep = some { e with output := q1 } ∧ e.output.Stored q1 [b])

/-- A drain of an empty ring returns 0 at once and draws no answer (42_ring_output.md R173); `OUT.POLL` returns
nothing, and the endpoint has then been polled (log 24). -/
def Obligations.DrainOfEmptyRing : Prop :=
  ∀ (s : State) (e : Endpoint), s.Admits .consumerOut e → s.env.handle.serves .output = true →
    e.output.w = e.output.r →
    (∃ t, exec .outDrain s = .next t ∧ Returned s t (.count 0) ∧ t.ep = s.ep) ∧
    (∃ t, exec .outPoll s = .next t ∧ ReturnedIn s t { s.env with begun := true } .unit ∧ t.ep = s.ep)

/-- 42_ring_output.md R173 to R175, uninterrupted: the transport is offered the unread bytes in order, takes
the first `k`, and `r` moves by `k`; on `Error` it takes none and a line is logged (the spec's D16,
log 13; what the line says is log 32). -/
def Obligations.DrainSendsBurst : Prop :=
  ∀ (s : State) (e : Endpoint) (ans : WriteAnswer) (rest : List WriteAnswer),
    s.Admits .consumerOut e → s.env.handle.serves .output = true → e.output.Ok → e.output.unread ≠ 0 →
    s.env.writes = ans :: rest →
    ∃ (t u : State) (burst : List Byte) (k : Nat), exec .outDrain s = .next t ∧ t.ep = s.ep ∧
      turns s.cur (e.output.unread + 1) t = .next u ∧
      burst.map some = e.output.queue ∧
      (∀ n, ans = .accepted n → k = min n e.output.unread) ∧ (ans = .error → k = 0) ∧
      ReturnedIn s u { s.env with
        writes := rest
        sent := s.env.sent ++ burst.take k
        log := if ans = .error then s.env.log ++ [.transportWriteError] else s.env.log } (.count k) ∧
      u.ep = some { e with output := { e.output with r := (e.output.r + k) % e.output.cap } }

/-- Step S2.i of a drain reads the byte that stands at its index now (20_memory.md R77), and writes
nothing. -/
def Obligations.DrainReadsByteAsItStands : Prop :=
  ∀ (s : State) (e : Endpoint) (r0 n i : Nat) (burst : List Byte) (poll : Bool) (b : Byte),
    s.ep = some e → Memory.read e.output.cells ((r0 + i) % e.output.cap) = some b →
    ∃ t, runMicro (.drainRead r0 n i burst poll) s = .next t ∧ t.ep = s.ep ∧
      (i + 1 < n → GoesOn s t [.micro (.drainRead r0 n (i + 1) (burst ++ [b]) poll)]) ∧
      (¬ i + 1 < n → GoesOn s t [.micro (.drainFinish r0 (burst ++ [b]) poll)])

/-- No loss, no duplication, no reordering on the way out, over every step of the machine that does not
overrun the ring (42_ring_output.md R178): what the transport has taken, followed by what is unread, grows
at its end by the byte enqueued and never changes otherwise. At a write that the transport answers with `Error`
this rests on 0 bytes being taken, the spec's decision D16 (R175; log 13, DEDUCED, unsafe): it would be false of a
transport that takes bytes and reports an error. -/
def Obligations.OutputIsSentInOrder : Prop :=
  ∀ s t e e', SysInv s → OutputCoherent s → step s = .next t → s.ep = some e → t.ep = some e' →
    (e'.output.w = e.output.w ∨ e.output.unread + 1 < e.output.cap) →
    OutputCoherent t ∧ ∃ bytes : List Byte, bytes.length ≤ 1 ∧
      (bytes ≠ [] → t.cur = .rt) ∧
      t.env.sent.map some ++ e'.output.queue =
        s.env.sent.map some ++ e.output.queue ++ bytes.map some

/-! ### The message store -/

/-- 43_message_store.md R191. -/
def Obligations.MqAvailCountsPending : Prop :=
  ∀ (s : State) (e : Endpoint) (d : Dec) (c : Nat), s.Admits .reader e → e.dec = some d → d.Ok →
    c < d.store.length →
    ∃ t, exec (.mqAvail c) s = .next t ∧ t.ep = s.ep ∧
      Returned s t (.count ((d.writeSlot + d.store.length - c) % d.store.length))

/-- 43_message_store.md R190: a peek that no decoder step interrupts returns the record. R68 gives it one step;
that it takes two is the model's choice (log 11). -/
def Obligations.MqPeekReturnsRecord : Prop :=
  ∀ (s : State) (e : Endpoint) (d : Dec) (i : Nat) (m : Message), s.Admits .reader e →
    e.dec = some d → d.store[i]? = some m →
    ∃ t u, exec (.mqPeek i) s = .next t ∧ turns s.cur 1 t = .next u ∧ Returned s u (.message m) ∧
      u.ep = s.ep

/-- 20_memory.md R78: a peek that began when the slot held `old` and ends when it holds `new` returns,
field by field, one of the two; where the two are equal, it returns the record and draws nothing. That a peek has a
begin and an end is the model's choice (log 11, DESIGN CHOICE), unsafe for a slot written twice in between: values
that stood only in the meantime are never returned, and a slot written back to `old` counts as unwritten. -/
def Obligations.RacingPeekIsOldOrNewByField : Prop :=
  ∀ (s : State) (e : Endpoint) (d : Dec) (i : Nat) (old new : Message), s.ep = some e →
    e.dec = some d → d.store[i]? = some new →
    ∃ t m, runMicro (.peekFinish i old) s = .next t ∧ t.ep = s.ep ∧
      (t.thread s.cur).ret = some (.message m) ∧
      (m.type = old.type ∨ m.type = new.type) ∧ (m.channel = old.channel ∨ m.channel = new.channel) ∧
      (m.data0 = old.data0 ∨ m.data0 = new.data0) ∧ (m.data1 = old.data1 ∨ m.data1 = new.data1) ∧
      (m.dataByteCount = old.dataByteCount ∨ m.dataByteCount = new.dataByteCount) ∧
      (old = new → m = new ∧ Returned s t (.message m))

/-- 43_message_store.md R192, uninterrupted: nothing pending gives `none`; else the message at the cursor,
which is not the one under assembly, and the cursor after it. Of the two steps after the `MQ.AVAIL` step the
second is the model's choice: it splits the peek, to which R68 gives one (log 11). -/
def Obligations.MqNextReturnsOldestPending : Prop :=
  ∀ (s : State) (e : Endpoint) (d : Dec) (c : Nat) (m : Message), s.Admits .reader e →
    e.dec = some d → d.Ok → d.store[c]? = some m →
    (c = d.writeSlot → ∃ t, exec (.mqNext c) s = .next t ∧ Returned s t (.next none) ∧ t.ep = s.ep) ∧
    (c ≠ d.writeSlot → ∃ t u, exec (.mqNext c) s = .next t ∧ turns s.cur 2 t = .next u ∧
      Returned s u (.next (some (m, (c + 1) % d.store.length))) ∧ u.ep = s.ep)

/-! ### The encoder -/

/-- 44_encoder.md R206 to R211: the bytes each operation enqueues, in order, its operands masked. -/
def Obligations.EncoderEmitsMaskedBytes : Prop :=
  ∀ (s : State) (e : Endpoint) (ch d0 d1 : Nat) (i : Instr) (bytes : List Byte),
    s.Admits .producerOut e → e.output.Ok →
    (i, bytes) ∈
      [(Instr.encNoteoff ch d0 d1,
          [BitVec.ofNat 8 (0x80 + ch % 16), BitVec.ofNat 8 (d0 % 128), BitVec.ofNat 8 (d1 % 128)]),
       (.encNoteon ch d0 d1,
          [BitVec.ofNat 8 (0x90 + ch % 16), BitVec.ofNat 8 (d0 % 128), BitVec.ofNat 8 (d1 % 128)]),
       (.encPolykey ch d0 d1,
          [BitVec.ofNat 8 (0xA0 + ch % 16), BitVec.ofNat 8 (d0 % 128), BitVec.ofNat 8 (d1 % 128)]),
       (.encCc ch d0 d1,
          [BitVec.ofNat 8 (0xB0 + ch % 16), BitVec.ofNat 8 (d0 % 128), BitVec.ofNat 8 (d1 % 128)]),
       (.encProgram ch d0, [BitVec.ofNat 8 (0xC0 + ch % 16), BitVec.ofNat 8 (d0 % 128)]),
       (.encChanpress ch d0, [BitVec.ofNat 8 (0xD0 + ch % 16), BitVec.ofNat 8 (d0 % 128)])] →
    ∃ t u q, exec i s = .next t ∧ turns s.cur (bytes.length - 1) t = .next u ∧ Returned s u .unit ∧
      u.ep = some { e with output := q } ∧ e.output.Stored q bytes

/-- 44_encoder.md R212: the two data bytes as given, `d0` first (the spec's decision D27). -/
def Obligations.EncoderPitchbendEmitsMaskedBytes : Prop :=
  ∀ (s : State) (e : Endpoint) (ch d0 d1 : Nat), s.Admits .producerOut e → e.output.Ok →
    ∃ t u q, exec (.encPitchbend ch d0 d1) s = .next t ∧ turns s.cur 2 t = .next u ∧
      Returned s u .unit ∧ u.ep = some { e with output := q } ∧
      e.output.Stored q
        [BitVec.ofNat 8 (0xE0 + ch % 16), BitVec.ofNat 8 (d0 % 128), BitVec.ofNat 8 (d1 % 128)]

/-- 44_encoder.md R214: what an encoder operation puts into OUT, a decoder in WaitingForStatus turns into
exactly one message, equal to the masked operands. R214 claims the data bytes the type takes; that `data1` of
a message with one data byte is what the slot held before is the spec's decision D10 (log 22, unsafe). -/
def Obligations.EncodeDecodeRoundTrip : Prop :=
  ∀ (s : State) (e : Endpoint) (ch d0 d1 : Nat) (i : Instr) (T : MsgType),
    s.Admits .producerOut e → e.output.Ok →
    (i, T) ∈ [(Instr.encNoteoff ch d0 d1, MsgType.noteOff), (.encNoteon ch d0 d1, .noteOn),
      (.encPolykey ch d0 d1, .polyKeyPressure), (.encCc ch d0 d1, .controlChange),
      (.encProgram ch d0, .programChange), (.encChanpress ch d0, .channelPressure),
      (.encPitchbend ch d0 d1, .pitchBend)] →
    e.output.unread + 1 + T.count.toNat < e.output.cap →
    ∃ (t u : State) (q : Ring) (bytes : List Byte), exec i s = .next t ∧
      turns s.cur T.count.toNat t = .next u ∧ Returned s u .unit ∧
      u.ep = some { e with output := q } ∧ q.queue = e.output.queue ++ bytes.map some ∧
      ∀ d : Dec, d.Ok → d.state = .waitingForStatus →
        d.messages bytes =
          [{ type := T, channel := BitVec.ofNat 4 ch, data0 := BitVec.ofNat 8 (d0 % 128),
             data1 := if T.count = 2 then BitVec.ofNat 8 (d1 % 128) else d.slot.data1,
             dataByteCount := T.count }] ∧
        (bytes.foldl Dec.feed d).state = .waitingForStatus

/-! ### The bridge -/

/-- An activation of `IN.POLL` begins with a read of at most the free space (45_bridge_and_system.md R228), and
the endpoint has then been polled (log 24). Whenever `WouldBlock` is the answer the activation ends, with nothing
written and nothing logged, and the endpoint stays polled (R230); whenever `Error` is the answer it ends with one
line logged and nothing else changed (R231, the spec's decision D24). The split into steps is log 12, what the
line says log 32. -/
def Obligations.InPollEndsOnWouldBlockOrError : Prop :=
  (∀ (s : State) (e : Endpoint), s.Admits .producerIn e → s.env.handle.serves .input = true →
    ∃ t, exec .inPoll s = .next t ∧ t.ep = s.ep ∧
      GoesOnIn s t { s.env with begun := true } [.micro (.pollDraw e.input.w (e.input.cap - e.input.unread))]) ∧
  (∀ (s : State) (w0 f : Nat) (rest : List ReadAnswer), s.env.reads = .wouldBlock :: rest →
    ∃ u, runMicro (.pollDraw w0 f) s = .next u ∧ u.ep = s.ep ∧
      ReturnedIn s u { s.env with reads := rest } .unit) ∧
  (∀ (s : State) (w0 f : Nat) (rest : List ReadAnswer), s.env.reads = .error :: rest →
    ∃ u, runMicro (.pollDraw w0 f) s = .next u ∧ u.ep = s.ep ∧
      ReturnedIn s u { s.env with reads := rest, log := s.env.log ++ [.transportReadError] } .unit)

/-- 45_bridge_and_system.md R228, R229 and R232, one turn of the loop, uninterrupted, with a decoder that BG
drives and no callback: the bytes read go into the ring, every one of them is fed to the decoder, `IN.r` stays,
and the loop goes round again exactly when the read filled the space asked for. The split into steps is log 12. -/
def Obligations.InPollFeedsDecoder : Prop :=
  ∀ (s : State) (e : Endpoint) (d : Dec) (data : List Byte) (rest : List ReadAnswer),
    s.Admits .producerIn e → s.env.handle.serves .input = true → e.input.Ok →
    e.dec = some d → s.env.driver = .bg → d.Ok → d.completing = false → d.cb = none →
    s.env.reads = .read data :: rest → data.length ≤ e.input.free →
    ∃ t n u q, exec .inPoll s = .next t ∧ turns s.cur n t = .next u ∧
      u.ep = some { e with input := q, dec := some (data.foldl Dec.feed d) } ∧ e.input.Stored q data ∧
      (data.length < e.input.free → ReturnedIn s u { s.env with reads := rest, begun := true } .unit) ∧
      (data.length = e.input.free →
        GoesOnIn s u { s.env with reads := rest, begun := true } [.micro (.pollDraw q.w q.free)])

/-- The same where nothing is fed: there is no decoder (45_bridge_and_system.md R227), or RT drives it
(R232). The split into steps is log 12. -/
def Obligations.InPollWithoutFeed : Prop :=
  ∀ (s : State) (e : Endpoint) (data : List Byte) (rest : List ReadAnswer),
    s.Admits .producerIn e → s.env.handle.serves .input = true → e.input.Ok →
    (e.dec = none ∨ s.env.driver = .rt) →
    s.env.reads = .read data :: rest → data.length ≤ e.input.free →
    ∃ t u q, exec .inPoll s = .next t ∧ turns s.cur 4 t = .next u ∧
      u.ep = some { e with input := q } ∧ e.input.Stored q data ∧
      (data.length < e.input.free → ReturnedIn s u { s.env with reads := rest, begun := true } .unit) ∧
      (data.length = e.input.free →
        GoesOnIn s u { s.env with reads := rest, begun := true } [.micro (.pollDraw q.w q.free)])

/-- The count `IN.WRITE` accepts in `IN.POLL` is the count the transport gave, in every interleaving
(45_bridge_and_system.md R228 "n == k always"). -/
def Obligations.InPollAcceptsAllItRead : Prop :=
  ∀ (s : State) (e : Endpoint) (rs w0 f : Nat) (data : List Byte), SysInv s → s.ep = some e →
    Task.micro (.pollStore rs w0 f data) ∈ (s.thread .bgIn).todo →
    e.input.accepts rs data.length = data.length ∧ e.input.unread + data.length ≤ e.input.cap

/-- 45_bridge_and_system.md R233: `OUT.POLL` is one drain, and returns nothing. That a write answered with `Error`
takes no byte is the spec's decision D16 (42_ring_output.md R175; log 13, unsafe); what the line logged says is
log 32. -/
def Obligations.OutPollDrainsOnce : Prop :=
  ∀ (s : State) (e : Endpoint) (ans : WriteAnswer) (rest : List WriteAnswer),
    s.Admits .consumerOut e → s.env.handle.serves .output = true → e.output.Ok →
    e.output.unread ≠ 0 → s.env.writes = ans :: rest →
    ∃ (t u : State) (burst : List Byte) (k : Nat), exec .outPoll s = .next t ∧ t.ep = s.ep ∧
      turns s.cur (e.output.unread + 1) t = .next u ∧
      burst.map some = e.output.queue ∧
      (∀ n, ans = .accepted n → k = min n e.output.unread) ∧ (ans = .error → k = 0) ∧
      ReturnedIn s u { s.env with
        writes := rest
        begun := true
        sent := s.env.sent ++ burst.take k
        log := if ans = .error then s.env.log ++ [.transportWriteError] else s.env.log } .unit ∧
      u.ep = some { e with output := { e.output with r := (e.output.r + k) % e.output.cap } }

/-! ### Creation, teardown and refusals -/

/-- 70_reset_and_hazards.md R280: `EP.RESET` brings an endpoint into being with the reset values. (That it
needs an open transport and leaves the polled sets empty is R281, that the cursors hold the capacities
00_scope.md R5; logs 17, 18 and 21. That polling has then not begun is log 24. `cbArg` is the model's 0, log 3.) -/
def Obligations.EpResetCreatesEndpoint : Prop :=
  ∀ (s : State) (capIn capOut slots : Nat) (hasDecoder : Bool), s.cur = .owner → s.ep = none →
    s.env.handle.isOpen = true → capIn ≤ 2 ^ s.env.cursorBits → capOut ≤ 2 ^ s.env.cursorBits →
    ∃ t, exec (.epReset capIn capOut slots hasDecoder) s = .next t ∧
      ReturnedIn s t { s.env with
        polledIn := false, polledOut := false, begun := false, closing := false } .unit ∧
      t.ep = some
        { input := { cap := capIn, cells := [], w := 0, r := 0 }
          output := { cap := capOut, cells := [], w := 0, r := 0 }
          dec := if hasDecoder then some
            { state := .waitingForStatus, elapsed := 0, writeSlot := 0, cb := none, cbArg := 0,
              store := List.replicate slots
                { type := .none, channel := 0, data0 := 0, data1 := 0, dataByteCount := 0 } }
            else none }

/-- 70_reset_and_hazards.md R282, in order: out of the polled sets, the handle drained and released if it is open
(after a shutdown it is not, and is not released again), the endpoint's state gone. `EP.CLOSE` waits for nobody
(20_memory.md R74): it begins at once, and each of its later steps is taken in every state. What it finds in
progress of RT or BG has one step left, which is refused (93_implementation_defined.md U16; that it is read so of an
operation issued before is log 16, DEDUCED). `x` is `s` with those threads so. -/
def Obligations.EpCloseTearsDownInOrder : Prop :=
  (∀ (s : State) (e : Endpoint), s.Admits .owner e →
    ∃ x t u v, x.ep = s.ep ∧ x.env = s.env ∧ x.cur = s.cur ∧ x.thread .owner = s.thread .owner ∧
      (∀ a, a ≠ .owner →
        ((s.thread a).inFlight = false → x.thread a = s.thread a) ∧
        ((s.thread a).inFlight = true → x.thread a = { s.thread a with todo := [.micro .lost] })) ∧
      exec .epClose s = .next t ∧ t.ep = s.ep ∧
      GoesOnIn x t { s.env with polledIn := false, polledOut := false, closing := true }
        [.micro .closeTransport] ∧
      turns s.cur 1 t = .next u ∧ u.ep = s.ep ∧
      (s.env.handle.isOpen = true → u.env.handle = .released) ∧
      (s.env.handle.isOpen = false → u.env.handle = s.env.handle) ∧
      GoesOnIn x u { s.env with
        polledIn := false, polledOut := false, closing := true, handle := u.env.handle }
        [.micro .closeDestroy] ∧
      turns s.cur 1 u = .next v ∧ v.ep = none ∧
      ReturnedIn x v { s.env with
        polledIn := false, polledOut := false, closing := false, handle := u.env.handle } .unit) ∧
  (∀ y : State, (∃ z, runMicro .closeTransport y = .next z ∧ z.ep = y.ep ∧
      z.env.handle = (if y.env.handle.isOpen then .released else y.env.handle) ∧
      GoesOnIn y z { y.env with handle := z.env.handle } [.micro .closeDestroy]) ∧
    (∃ z, runMicro .closeDestroy y = .next z ∧ z.ep = none ∧ ReturnedIn y z { y.env with closing := false } .unit) ∧
    runMicro .lost y = .refused .closing)

/-- An operation of another role is refused (60_exceptions.md R263; 93_implementation_defined.md U4; log 7), and
a drain of OUT where another is in progress. `mayIssue` is R263's matrix with BG's column split between its two
loops: `IN.WRITE`, `IN.POLL` and the decoder are the input loop's alone, `OUT.DRAIN` and `OUT.POLL` the output
loop's, and the input loop's from inside a handler (R261). The split is the model's reading (log 6, DEDUCED,
unsafe): R263's BG column has no such split. -/
def Obligations.RoleMatrixIsEnforced : Prop :=
  ∀ (s : State) (i : Instr), mayIssue s s.cur i = false → exec i s = .refused (.role s.cur)

/-- What the spec leaves without a meaning is refused by name: no endpoint, a closing one, one that BG does not
poll, no decoder, a handle that is not open for the direction, a re-entry from the callback (of `DEC.BYTE` and of
`DEC.PARSE`, whatever its list), a `DEC.SETCB` of the owner while a byte is being decoded, a slot outside STORE, a
row of another decoder state (93_implementation_defined.md U3, U5, U16; 45_bridge_and_system.md R225, R227, R236;
60_exceptions.md R261). The model's own are: that a row of another state is refused (30_encoding.md R103
gives it no meaning there; log 8, DEDUCED); that `DEC.PARSE` of the empty list is a re-entry like any other (log 15,
DEDUCED); that a closing endpoint refuses a handler's operations too (log 29, DEDUCED); that each loop of BG has its
polled set and needs it, so that a handler's drain on `bgIn` is refused where only the output set lacks the endpoint
(log 18, DESIGN CHOICE; log 6, DEDUCED); and that a transfer needs a handle open for its direction (log 18): R234 to
R236 say that such an operation is not issued, and not how it is met. -/
def Obligations.UndefinedExecutionsAreRefused : Prop :=
  ∀ (s : State) (i : Instr), mayIssue s s.cur i = true → (∀ a b c h, i ≠ .epReset a b c h) →
    (s.ep = none → exec i s = .refused .noEndpoint) ∧
    (∀ e, s.ep = some e →
      (s.env.closing = true → exec i s = .refused .closing) ∧
      (s.env.closing = false →
        (s.cur = .bgIn → s.env.polledIn = false → exec i s = .refused (.notRegistered .input)) ∧
        (s.cur = .bgOut → s.env.polledOut = false → exec i s = .refused (.notRegistered .output)) ∧
        (s.cur = .bgIn → s.env.polledIn = true → s.env.polledOut = false → i = .outDrain ∨ i = .outPoll →
          exec i s = .refused (.notRegistered .output)) ∧
        ((s.cur = .bgIn → s.env.polledIn = true) → (s.cur = .bgOut → s.env.polledOut = true) →
          (e.dec = none → needsDecoder i = true → exec i s = .refused .noDecoder) ∧
          (s.env.handle.serves .input = false → i = .inPoll → exec i s = .refused .transportNotOpen) ∧
          (s.env.handle.serves .output = false → s.env.polledOut = true → i = .outPoll ∨ i = .outDrain →
            exec i s = .refused .transportNotOpen) ∧
          (∀ d, e.dec = some d →
            (d.completing = true →
              (∃ b, i = .decByte b ∨ i = .data b) ∨ (∃ bytes n, i = .decParse bytes n) →
              exec i s = .refused .reentry) ∧
            (d.completing = true → s.cur = .owner → (∃ f a, i = .decSetcb f a) →
              exec i s = .refused .setcbDuringByte) ∧
            (∀ c, d.store.length ≤ c → i = .mqPeek c ∨ i = .mqAvail c ∨ i = .mqNext c →
              exec i s = .refused (.slotIndex c)) ∧
            (∀ st b, encode i = some (st, b) → d.state ≠ st → exec i s = .refused (.wireRow st))))))

/-- There is no reset of a live endpoint (70_reset_and_hazards.md R280), no endpoint results where the
transport did not open (R281; 60_exceptions.md R252), and none whose capacities the cursor registers cannot hold
(00_scope.md R5; log 21). That `EP.RESET` is refused in each of these cases is the model's reading (log 17,
DEDUCED): the spec says that there is no such operation, or that no endpoint results. -/
def Obligations.EpResetNeedsNoEndpointAndOpenTransport : Prop :=
  ∀ (s : State) (a b c : Nat) (h : Bool), s.cur = .owner →
    (s.ep ≠ none → exec (.epReset a b c h) s = .refused .endpointExists) ∧
    (s.ep = none → s.env.handle.isOpen = false → exec (.epReset a b c h) s = .refused .transportNotOpen) ∧
    (s.ep = none → s.env.handle.isOpen = true → (2 ^ s.env.cursorBits < a ∨ 2 ^ s.env.cursorBits < b) →
      exec (.epReset a b c h) s = .refused .cursorWidth)

end ObligationsSlice0
end

