-- ==== Sys2Proof/Laws/Memory.lean ====
section
/-! SUPPORT. Byte storage: read after write, the frame of a write, the canonical form, bursts. -/

namespace Sys2Proof.Machine

namespace Memory

@[simp] theorem read_nil (a : Nat) : Memory.read [] a = none := rfl

theorem read_cons (c : Host.Cell) (m : Memory) (a : Nat) :
    Memory.read (c :: m) a = if a = c.1 then some c.2 else Memory.read m a := rfl

/-- In a list of indices above `k`, nothing stands at `k` or below. -/
theorem read_eq_none_of_lt {m : Memory} {k a : Nat} (h : ∀ c ∈ m, k < c.1) (ha : a ≤ k) :
    Memory.read m a = none := by
  induction m with
  | nil => rfl
  | cons c m ih =>
    rw [read_cons, if_neg (by have := h c (by simp); omega)]
    exact ih fun x hx => h x (by simp [hx])

theorem wf_cons {c : Host.Cell} {m : Memory} :
    Memory.wf (c :: m) = true ↔ (∀ x ∈ m, c.1 < x.1) ∧ Memory.wf m = true := by
  induction m generalizing c with
  | nil => simp [Memory.wf]
  | cons d m ih =>
    simp only [Memory.wf, Bool.and_eq_true, decide_eq_true_eq, List.mem_cons, forall_eq_or_imp]
    constructor
    · rintro ⟨h, h'⟩
      have hd := (ih (c := d)).1 (by simpa [Memory.wf] using h')
      exact ⟨⟨h, fun x hx => Nat.lt_trans h (hd.1 x hx)⟩, h'⟩
    · rintro ⟨⟨h, _⟩, h'⟩
      exact ⟨h, h'⟩

theorem read_write_self (m : Memory) (a : Nat) (b : Byte) :
    Memory.read (Memory.write m a b) a = some b := by
  induction m with
  | nil => simp [Memory.write, read_cons]
  | cons c m ih =>
    simp only [Memory.write]
    split
    · simp [read_cons]
    · split
      · simp [read_cons]
      · rw [read_cons, if_neg ‹_›, ih]

theorem read_write_ne {m : Memory} {a k : Nat} (h : k ≠ a) (b : Byte) :
    Memory.read (Memory.write m a b) k = Memory.read m k := by
  induction m with
  | nil => simp [Memory.write, read_cons, h]
  | cons c m ih =>
    simp only [Memory.write]
    split
    · simp [read_cons, h]
    · split
      · subst_vars; simp [read_cons, h]
      · simp [read_cons, ih]

theorem read_write (m : Memory) (a k : Nat) (b : Byte) :
    Memory.read (Memory.write m a b) k = if k = a then some b else Memory.read m k := by
  split
  · subst_vars; exact read_write_self _ _ _
  · exact read_write_ne ‹_› b

theorem mem_write {m : Memory} {a : Nat} {b : Byte} {x : Host.Cell} (h : x ∈ Memory.write m a b) :
    x = (a, b) ∨ x ∈ m := by
  induction m with
  | nil => simpa [Memory.write] using h
  | cons c m ih =>
    simp only [Memory.write] at h
    split at h
    · simpa using h
    · split at h
      · simp only [List.mem_cons] at h ⊢; tauto
      · simp only [List.mem_cons] at h ⊢
        rcases h with h | h
        · tauto
        · have := ih h; tauto

/-- A write keeps the canonical form. -/
theorem write_wf {m : Memory} (h : Memory.wf m = true) (a : Nat) (b : Byte) :
    Memory.wf (Memory.write m a b) = true := by
  induction m with
  | nil => rfl
  | cons c m ih =>
    have hc := wf_cons.1 h
    simp only [Memory.write]
    split
    · refine wf_cons.2 ⟨?_, h⟩
      intro x hx
      rcases List.mem_cons.1 hx with rfl | hx
      · assumption
      · exact Nat.lt_trans ‹_› (hc.1 x hx)
    · split
      · exact wf_cons.2 ⟨fun x hx => by subst_vars; exact hc.1 x hx, hc.2⟩
      · refine wf_cons.2 ⟨?_, ih hc.2⟩
        intro x hx
        rcases mem_write hx with rfl | hx
        · simp only; omega
        · exact hc.1 x hx

/-- Canonical memories that read alike are equal data. -/
theorem ext_of_wf {m n : Memory} (hm : Memory.wf m = true) (hn : Memory.wf n = true)
    (h : ∀ a, Memory.read m a = Memory.read n a) : m = n := by
  induction m generalizing n with
  | nil =>
    cases n with
    | nil => rfl
    | cons d n => have := h d.1; simp [read_cons] at this
  | cons c m ih =>
    cases n with
    | nil => have := h c.1; simp [read_cons] at this
    | cons d n =>
      have hc := wf_cons.1 hm
      have hd := wf_cons.1 hn
      have h1 := h c.1
      have h2 := h d.1
      rw [read_cons, if_pos rfl, read_cons] at h1
      rw [read_cons, read_cons, if_pos rfl] at h2
      have hcd : c.1 = d.1 := by
        by_contra hne
        rw [if_neg hne] at h1
        rw [if_neg (Ne.symm hne)] at h2
        rcases Nat.lt_or_gt_of_ne hne with hlt | hlt
        · rw [read_eq_none_of_lt hd.1 (Nat.le_of_lt hlt)] at h1; simp at h1
        · rw [read_eq_none_of_lt hc.1 (Nat.le_of_lt hlt)] at h2; simp at h2
      rw [if_pos hcd] at h1
      have hv : c = d := Prod.ext hcd (Option.some.inj h1)
      subst hv
      refine congrArg (c :: ·) (ih hc.2 hd.2 fun a => ?_)
      have ha := h a
      rw [read_cons, read_cons] at ha
      split at ha
      · subst_vars
        rw [read_eq_none_of_lt hc.1 (Nat.le_refl _), read_eq_none_of_lt hd.1 (Nat.le_refl _)]
      · exact ha

end Memory

/-! ### Bursts -/

theorem storeBurst_wf {m : Memory} (h : Memory.wf m = true) (cap c : Nat) (bytes : List Byte) :
    Memory.wf (storeBurst m cap c bytes) = true := by
  induction bytes generalizing m c with
  | nil => exact h
  | cons b rest ih => exact ih (Memory.write_wf h _ _) _

/-- A burst leaves every index it does not store to alone. -/
theorem read_storeBurst_other {m : Memory} {cap c k : Nat} {bytes : List Byte}
    (h : ∀ i, i < bytes.length → k ≠ (c + i) % cap) :
    Memory.read (storeBurst m cap c bytes) k = Memory.read m k := by
  induction bytes generalizing m c with
  | nil => rfl
  | cons b rest ih =>
    rw [storeBurst, ih, Memory.read_write_ne (by simpa using h 0 (by simp))]
    intro i hi
    have := h (i + 1) (by simpa using hi)
    rwa [show c + (i + 1) = c + 1 + i by omega] at this

theorem mod_ne_of_lt {cap c i j : Nat} (hij : i < j) (hj : j < i + cap) : (c + i) % cap ≠ (c + j) % cap := by
  intro h
  have h1 : (c + i) ≡ (c + j) [MOD cap] := h
  have h2 := (Nat.modEq_iff_dvd' (by omega : c + i ≤ c + j)).1 h1
  have h3 : c + j - (c + i) = j - i := by omega
  rw [h3] at h2
  have := Nat.le_of_dvd (by omega) h2
  omega

/-- Byte `i` of a burst no longer than the ring stands at index `(c + i) mod cap`. -/
theorem read_storeBurst {m : Memory} {cap c i : Nat} {bytes : List Byte} (hlen : bytes.length ≤ cap)
    (hi : i < bytes.length) :
    Memory.read (storeBurst m cap c bytes) ((c + i) % cap) = bytes[i]? := by
  induction bytes generalizing m c i with
  | nil => simp at hi
  | cons b rest ih =>
    rw [storeBurst]
    cases i with
    | zero =>
      rw [read_storeBurst_other, Nat.add_zero, Memory.read_write_self]
      · simp
      · intro j hj
        rw [show c + 1 + j = c + (j + 1) by omega]
        exact mod_ne_of_lt (by omega) (by simp at hlen; omega)
    | succ i =>
      rw [show c + (i + 1) = c + 1 + i by omega]
      simpa using ih (m := Memory.write m (c % cap) b) (c := c + 1) (i := i)
        (by simp at hlen; omega) (by simpa using hi)

/-- A burst never takes a written index away. -/
theorem isSome_read_write {m : Memory} {k : Nat} (h : (Memory.read m k).isSome = true) (a : Nat) (b : Byte) :
    (Memory.read (Memory.write m a b) k).isSome = true := by
  rw [Memory.read_write]; split <;> simp_all

theorem isSome_read_storeBurst {m : Memory} {k : Nat} (h : (Memory.read m k).isSome = true)
    (cap c : Nat) (bytes : List Byte) :
    (Memory.read (storeBurst m cap c bytes) k).isSome = true := by
  induction bytes generalizing m c with
  | nil => exact h
  | cons b rest ih => exact ih (isSome_read_write h _ _) _

/-- What a burst writes lies inside the ring. -/
theorem inside_storeBurst {m : Memory} {cap : Nat} (hcap : 0 < cap)
    (h : ∀ a, (Memory.read m a).isSome = true → a < cap) (c : Nat) (bytes : List Byte) :
    ∀ a, (Memory.read (storeBurst m cap c bytes) a).isSome = true → a < cap := by
  induction bytes generalizing m c with
  | nil => exact h
  | cons b rest ih =>
    refine ih (fun a ha => ?_) _
    rw [Memory.read_write] at ha
    split at ha
    · subst_vars; exact Nat.mod_lt _ hcap
    · exact h a ha

end Sys2Proof.Machine
end

