-- ==== Sys2Proof/Laws/Ring.lean ====
section
/-! SUPPORT. Rings: cursor arithmetic, what accepting, enqueuing and consuming do to the unread count,
to the queue and to the ring's invariant. -/

namespace Sys2Proof.Machine

theorem modAdd_lt {c k n : Nat} (h : 0 < n) : modAdd c k n < n := Nat.mod_lt _ h

theorem modAdd_eq {c k n : Nat} (hc : c < n) (hk : k ≤ n) :
    modAdd c k n = if c + k < n then c + k else c + k - n := by
  unfold modAdd
  split
  · exact Nat.mod_eq_of_lt ‹_›
  · rw [Nat.mod_eq_sub_mod (by omega), Nat.mod_eq_of_lt (by omega)]

@[simp] theorem modAdd_zero {c n : Nat} (hc : c < n) : modAdd c 0 n = c := Nat.mod_eq_of_lt hc

theorem modAdd_full {c n : Nat} (hc : c < n) : modAdd c n n = c := by
  rw [modAdd_eq hc (Nat.le_refl n)]; split <;> omega

theorem modAdd_modAdd (c k j n : Nat) : modAdd (modAdd c k n) j n = modAdd c (k + j) n := by
  unfold modAdd; rw [Nat.mod_add_mod, Nat.add_assoc]

theorem modSub_lt {a b n : Nat} (ha : a < n) (hb : b < n) : modSub a b n < n := by
  unfold modSub; split <;> omega

theorem modSub_eq_zero {a b n : Nat} (hb : b < n) : modSub a b n = 0 ↔ a = b := by
  unfold modSub; split <;> omega

theorem modAdd_modSub {a b n : Nat} (ha : a < n) (hb : b < n) : modAdd b (modSub a b n) n = a := by
  rw [modAdd_eq hb (Nat.le_of_lt (modSub_lt ha hb))]
  unfold modSub; split <;> split <;> omega

/-- As the spec writes it (00_scope.md R7). -/
theorem modSub_eq_mod {a b n : Nat} (ha : a < n) (hb : b < n) : modSub a b n = (a + n - b) % n := by
  unfold modSub
  split
  · rw [show a + n - b = a - b + n by omega, Nat.add_mod_right, Nat.mod_eq_of_lt (by omega)]
  · rw [Nat.mod_eq_of_lt (by omega)]

theorem modSub_modAdd {a b k n : Nat} (ha : a < n) (hb : b < n) (hk : k ≤ n) :
    modSub (modAdd a k n) b n = (modSub a b n + k) % n := by
  have h := modSub_lt ha hb
  rw [show (modSub a b n + k) % n = modAdd (modSub a b n) k n from rfl, modAdd_eq h hk, modAdd_eq ha hk]
  unfold modSub
  split <;> split <;> split <;> first | omega | (split <;> omega)

namespace Ring

variable {q : Ring}

theorem Ok.unread_lt (h : q.Ok) : q.unread < q.cap := modSub_lt h.write_in h.read_in

theorem Ok.unread_eq_zero (h : q.Ok) : q.unread = 0 ↔ q.w = q.r := modSub_eq_zero h.read_in

theorem Ok.isEmpty_iff (h : q.Ok) : q.isEmpty = true ↔ q.unread = 0 := by
  rw [h.unread_eq_zero, isEmpty, beq_iff_eq]; exact ⟨Eq.symm, Eq.symm⟩

theorem Ok.modAdd_unread (h : q.Ok) : modAdd q.r q.unread q.cap = q.w :=
  modAdd_modSub h.write_in h.read_in

/-- The index of the `i`-th byte after the write cursor, counted from the read cursor. -/
theorem Ok.modAdd_w (h : q.Ok) (i : Nat) : modAdd q.w i q.cap = modAdd q.r (q.unread + i) q.cap := by
  rw [← modAdd_modAdd, h.modAdd_unread]

@[simp] theorem accept_cap (bytes : List Byte) (n : Nat) : (q.accept bytes n).cap = q.cap := rfl
@[simp] theorem accept_r (bytes : List Byte) (n : Nat) : (q.accept bytes n).r = q.r := rfl
@[simp] theorem accept_w (bytes : List Byte) (n : Nat) : (q.accept bytes n).w = modAdd q.w n q.cap := rfl
@[simp] theorem enqueue_cap (b : Byte) : (q.enqueue b).cap = q.cap := rfl
@[simp] theorem enqueue_r (b : Byte) : (q.enqueue b).r = q.r := rfl
@[simp] theorem enqueue_w (b : Byte) : (q.enqueue b).w = modAdd q.w 1 q.cap := rfl
@[simp] theorem consume_cap (n : Nat) : (q.consume n).cap = q.cap := rfl
@[simp] theorem consume_w (n : Nat) : (q.consume n).w = q.w := rfl
@[simp] theorem consume_cells (n : Nat) : (q.consume n).cells = q.cells := rfl
@[simp] theorem consume_r (n : Nat) : (q.consume n).r = modAdd q.r n q.cap := rfl

/-- `OUT.ENQ` stores as the acceptance of one byte does. -/
theorem Ok.enqueue_eq_accept (h : q.Ok) (b : Byte) : q.enqueue b = q.accept [b] 1 := by
  simp [enqueue, accept, storeBurst, Nat.mod_eq_of_lt h.write_in]

theorem accepts_le_count (rs count : Nat) : q.accepts rs count ≤ count := Nat.min_le_left _ _

theorem accepts_le_cap (rs count : Nat) : q.accepts rs count ≤ q.cap :=
  Nat.le_trans (Nat.min_le_right _ _) (Nat.sub_le _ _)

theorem Ok.unread_accept (h : q.Ok) (bytes : List Byte) {n : Nat} (hn : n ≤ q.cap) :
    (q.accept bytes n).unread = (q.unread + n) % q.cap := modSub_modAdd h.write_in h.read_in hn

/-- The accepted byte `i` stands at the `i`-th index after the old write cursor. -/
theorem read_accept {bytes : List Byte} {n i : Nat} (hn : n ≤ q.cap) (hi : i < n) (hb : n ≤ bytes.length) :
    Memory.read (q.accept bytes n).cells (modAdd q.w i q.cap) = bytes[i]? := by
  have := read_storeBurst (m := q.cells) (cap := q.cap) (c := q.w) (i := i) (bytes := bytes.take n)
    (by simp; omega) (by simp; omega)
  exact this.trans (List.getElem?_take_of_lt hi)

/-- An index that is none of the accepted ones reads as before. -/
theorem read_accept_other {bytes : List Byte} {n k : Nat}
    (h : ∀ i, i < n → k ≠ modAdd q.w i q.cap) :
    Memory.read (q.accept bytes n).cells k = Memory.read q.cells k :=
  read_storeBurst_other fun i hi => h i (by simp at hi; omega)

/-- Accepting no more than is free stores to no unread index (41_ring_input.md R155). -/
theorem Ok.read_accept_unread (h : q.Ok) {bytes : List Byte} {n j : Nat} (hn : q.unread + n ≤ q.cap)
    (hj : j < q.unread) :
    Memory.read (q.accept bytes n).cells (modAdd q.r j q.cap) = Memory.read q.cells (modAdd q.r j q.cap) :=
  read_accept_other fun i hi => by
    rw [h.modAdd_w]; exact mod_ne_of_lt (by omega) (by omega)

/-- Accepting the first `n` bytes stores them. -/
theorem stored_accept {bytes : List Byte} {n : Nat} (hn : n ≤ q.cap) (hb : n ≤ bytes.length) :
    q.Stored (q.accept bytes n) (bytes.take n) where
  cap := rfl
  read_cursor := rfl
  write_cursor := by rw [List.length_take, Nat.min_eq_left hb]; rfl
  stored := fun i hi _ => by
    rw [List.length_take, Nat.min_eq_left hb] at hi
    rw [List.getElem?_take_of_lt hi]
    exact read_accept hn hi hb
  kept := fun a ha => by
    rw [List.length_take, Nat.min_eq_left hb] at ha
    exact read_accept_other fun i hi => ha i hi

theorem isSome_read_accept {k : Nat} (h : (Memory.read q.cells k).isSome = true) (bytes : List Byte) (n : Nat) :
    (Memory.read (q.accept bytes n).cells k).isSome = true := isSome_read_storeBurst h _ _ _

/-- Accepting bytes keeps the ring's invariant. -/
theorem Ok.accept (h : q.Ok) {bytes : List Byte} {n : Nat} (hn : n ≤ q.cap) (hb : n ≤ bytes.length) :
    (q.accept bytes n).Ok where
  capacity := h.capacity
  write_in := modAdd_lt (by have := h.capacity; omega)
  read_in := h.read_in
  canonical := storeBurst_wf h.canonical _ _ _
  inside := inside_storeBurst (by have := h.capacity; omega) h.inside _ _
  written := by
    intro i hi
    rw [h.unread_accept bytes hn] at hi
    have hu := h.unread_lt
    by_cases hlt : i < q.unread
    · exact isSome_read_accept (h.written i hlt) _ _
    · have hsum : (q.unread + n) % q.cap = if q.unread + n < q.cap then q.unread + n else q.unread + n - q.cap :=
        modAdd_eq hu hn
      rw [hsum] at hi
      have hi' : i - q.unread < n := by split at hi <;> omega
      have hr := read_accept (q := q) (bytes := bytes) hn hi' hb
      rw [h.modAdd_w, show q.unread + (i - q.unread) = i by omega] at hr
      simp only [accept_r, accept_cap]
      rw [hr, List.getElem?_eq_getElem (by omega)]
      rfl

theorem Ok.enqueue (h : q.Ok) (b : Byte) : (q.enqueue b).Ok := by
  rw [h.enqueue_eq_accept]
  exact h.accept (by have := h.capacity; omega) (by simp)

theorem Ok.unread_enqueue (h : q.Ok) (b : Byte) :
    (q.enqueue b).unread = if q.unread + 1 < q.cap then q.unread + 1 else 0 := by
  have hc := h.capacity
  have hu := h.unread_lt
  rw [h.enqueue_eq_accept, h.unread_accept [b] (by omega)]
  split
  · exact Nat.mod_eq_of_lt ‹_›
  · rw [show q.unread + 1 = q.cap by omega, Nat.mod_self]

theorem Ok.unread_consume (h : q.Ok) {k : Nat} (hk : k ≤ q.unread) :
    (q.consume k).unread = q.unread - k := by
  have hu := h.unread_lt
  have hw := h.write_in
  have hr := h.read_in
  simp only [Ring.unread, consume_w, consume_r, consume_cap] at *
  rw [modAdd_eq hr (by omega)]
  unfold modSub at *
  split at hk <;> split <;> split <;> omega

theorem Ok.consume (h : q.Ok) {k : Nat} (hk : k ≤ q.unread) : (q.consume k).Ok where
  capacity := h.capacity
  write_in := h.write_in
  read_in := modAdd_lt (by have := h.capacity; omega)
  canonical := h.canonical
  inside := h.inside
  written := by
    intro i hi
    rw [h.unread_consume hk] at hi
    simpa [modAdd_modAdd] using h.written (k + i) (by omega)

/-- The read cursor as it is now is a snapshot of itself. -/
theorem Ok.snapshot (h : q.Ok) : q.Snapshot q.r := ⟨h.read_in, Nat.le_refl _⟩

/-! ### Bursts read by a drain -/

/-- Every index of the ring is at some distance after the read cursor. -/
theorem Ok.exists_modAdd (h : q.Ok) {a : Nat} (ha : a < q.cap) : ∃ i, i < q.cap ∧ modAdd q.r i q.cap = a :=
  ⟨modSub a q.r q.cap, modSub_lt ha h.read_in, modAdd_modSub ha h.read_in⟩

/-- A ring with one index free has all its indices written once that one is. -/
theorem Ok.full_enqueue (h : q.Ok) (b : Byte) (hu : q.unread + 1 = q.cap) {a : Nat} (ha : a < q.cap) :
    (Memory.read (q.enqueue b).cells a).isSome = true := by
  obtain ⟨i, hi, rfl⟩ := h.exists_modAdd ha
  by_cases hlt : i < q.unread
  · exact isSome_read_write (h.written i hlt) _ _
  · have : i = q.unread := by omega
    subst this
    rw [h.modAdd_unread]
    simp [Ring.enqueue, Memory.read_write_self]

/-- A burst that could be read can still be read after the producer's next byte (20_memory.md R77). -/
theorem Ok.drainable_enqueue (h : q.Ok) {n : Nat} (hn : q.Drainable n) (b : Byte) :
    (q.enqueue b).Drainable n := by
  refine ⟨hn.1, ?_⟩
  rcases hn.2 with hle | hall
  · have hu := h.unread_lt
    have := h.unread_enqueue b
    by_cases hlt : q.unread + 1 < q.cap
    · left; rw [this, if_pos hlt]; omega
    · right; intro a ha; exact h.full_enqueue b (by omega) ha
  · right; intro a ha; exact isSome_read_write (hall a ha) _ _

/-- The bytes of a readable burst are there. -/
theorem Ok.isSome_drainable (h : q.Ok) {n i : Nat} (hn : q.Drainable n) (hi : i < n) :
    (Memory.read q.cells (modAdd q.r i q.cap)).isSome = true := by
  rcases hn.2 with hle | hall
  · exact h.written i (by omega)
  · exact hall _ (modAdd_lt (by have := h.capacity; omega))

/-- The end of a drain keeps the ring's invariant, lapped by the producer or not. -/
theorem Ok.resume (h : q.Ok) {n k : Nat} (hn : q.Drainable n) (hk : k ≤ n) : (q.resume q.r k).Ok := by
  rcases hn.2 with hle | hall
  · exact h.consume (by omega)
  · have hc : 0 < q.cap := by have := h.capacity; omega
    exact ⟨h.capacity, h.write_in, modAdd_lt hc, h.canonical, h.inside, fun i _ => hall _ (modAdd_lt hc)⟩

/-! ### The queue -/

@[simp] theorem queue_length (q : Ring) : q.queue.length = q.unread := by simp [queue]

theorem queue_getElem (q : Ring) {i : Nat} (hi : i < q.queue.length) :
    q.queue[i] = Memory.read q.cells (modAdd q.r i q.cap) := by simp [queue]

/-- Accepted bytes go to the queue's tail, as long as the ring does not come out full
(41_ring_input.md R153). -/
theorem Ok.queue_accept (h : q.Ok) {bytes : List Byte} {n : Nat} (hn : q.unread + n < q.cap)
    (hb : n ≤ bytes.length) :
    (q.accept bytes n).queue = q.queue ++ (bytes.take n).map some := by
  have hu : (q.accept bytes n).unread = q.unread + n := by
    rw [h.unread_accept bytes (by omega), Nat.mod_eq_of_lt hn]
  apply List.ext_getElem
  · simp [hu, hb]
  intro i h1 h2
  rw [queue_getElem]
  simp only [queue_length, hu] at h1
  simp only [accept_r, accept_cap]
  by_cases hlt : i < q.unread
  · rw [List.getElem_append_left (by simpa using hlt), queue_getElem,
      h.read_accept_unread (by omega) hlt]
  · rw [List.getElem_append_right (by simpa using hlt)]
    have hr := read_accept (q := q) (bytes := bytes) (n := n) (i := i - q.unread) (by omega) (by omega) hb
    rw [h.modAdd_w, show q.unread + (i - q.unread) = i by omega] at hr
    rw [hr]
    simp [List.getElem?_eq_getElem (show i - q.unread < bytes.length by omega)]

/-- Consuming takes bytes from the queue's head. -/
theorem Ok.queue_consume (h : q.Ok) {k : Nat} (hk : k ≤ q.unread) :
    (q.consume k).queue = q.queue.drop k := by
  apply List.ext_getElem
  · simp [h.unread_consume hk]
  intro i h1 h2
  rw [queue_getElem, List.getElem_drop, queue_getElem]
  simp [modAdd_modAdd]

end Ring

end Sys2Proof.Machine
end

