-- ==== Sys2Proof/Laws/State.lean ====
section
/-! SUPPORT. The small lemmas of the state's updates, so that no proof unfolds one. -/

namespace Sys2Proof.Machine

@[simp] theorem Threads.get_set_self (ts : Threads) (a : Agent) (t : Thread) :
    (ts.set a t).get a = t := by cases a <;> rfl

theorem Threads.get_set_ne (ts : Threads) {a b : Agent} (h : b ≠ a) (t : Thread) :
    (ts.set a t).get b = ts.get b := by cases a <;> cases b <;> first | rfl | exact absurd rfl h

section setThread
variable (s : State) (a : Agent) (t : Thread)
@[simp] theorem setThread_ep : (s.setThread a t).ep = s.ep := rfl
@[simp] theorem setThread_env : (s.setThread a t).env = s.env := rfl
@[simp] theorem setThread_cur : (s.setThread a t).cur = s.cur := rfl
@[simp] theorem setThread_driverAgent : (s.setThread a t).driverAgent = s.driverAgent := rfl
@[simp] theorem thread_setThread_self : (s.setThread a t).thread a = t := Threads.get_set_self _ _ _
theorem thread_setThread_ne {b : Agent} (h : b ≠ a) : (s.setThread a t).thread b = s.thread b :=
  Threads.get_set_ne _ h _
theorem thread_setThread (b : Agent) :
    (s.setThread a t).thread b = if b = a then t else s.thread b := by
  split
  · subst_vars; exact thread_setThread_self s _ t
  · exact thread_setThread_ne s a t ‹_›
end setThread

section push
variable (s : State) (ts : List Task)
@[simp] theorem push_ep : (s.push ts).ep = s.ep := rfl
@[simp] theorem push_env : (s.push ts).env = s.env := rfl
@[simp] theorem push_cur : (s.push ts).cur = s.cur := rfl
@[simp] theorem push_driverAgent : (s.push ts).driverAgent = s.driverAgent := rfl
@[simp] theorem thread_push_cur :
    (s.push ts).thread s.cur = { s.thread s.cur with todo := ts ++ (s.thread s.cur).todo } :=
  thread_setThread_self _ _ _
theorem thread_push_ne {b : Agent} (h : b ≠ s.cur) : (s.push ts).thread b = s.thread b :=
  thread_setThread_ne _ _ _ h
end push

section begin'
variable (s : State)
@[simp] theorem begin_ep : s.begin.ep = s.ep := rfl
@[simp] theorem begin_env : s.begin.env = s.env := rfl
@[simp] theorem begin_cur : s.begin.cur = s.cur := rfl
@[simp] theorem begin_driverAgent : s.begin.driverAgent = s.driverAgent := rfl
@[simp] theorem thread_begin_cur : s.begin.thread s.cur = { s.thread s.cur with ret := none } :=
  thread_setThread_self _ _ _
theorem thread_begin_ne {b : Agent} (h : b ≠ s.cur) : s.begin.thread b = s.thread b :=
  thread_setThread_ne _ _ _ h
@[simp] theorem begin_todo (b : Agent) : (s.begin.thread b).todo = (s.thread b).todo := by
  by_cases h : b = s.cur
  · subst h; simp
  · rw [thread_begin_ne s h]
end begin'

section finish
variable (s : State) (fin : Option Result)
@[simp] theorem finish_ep : (s.finish fin).ep = s.ep := by cases fin <;> rfl
@[simp] theorem finish_env : (s.finish fin).env = s.env := by cases fin <;> rfl
@[simp] theorem finish_cur : (s.finish fin).cur = s.cur := by cases fin <;> rfl
@[simp] theorem finish_driverAgent : (s.finish fin).driverAgent = s.driverAgent := by cases fin <;> rfl
@[simp] theorem finish_none : s.finish none = s := rfl
@[simp] theorem thread_finish_cur (r : Result) :
    (s.finish (some r)).thread s.cur = { s.thread s.cur with ret := some r } :=
  thread_setThread_self _ _ _
theorem thread_finish_ne {b : Agent} (h : b ≠ s.cur) : (s.finish fin).thread b = s.thread b := by
  cases fin
  · rfl
  · exact thread_setThread_ne _ _ _ h
@[simp] theorem finish_todo (b : Agent) : ((s.finish fin).thread b).todo = (s.thread b).todo := by
  by_cases h : b = s.cur
  · subst h; cases fin <;> simp
  · rw [thread_finish_ne s fin h]
end finish

section setEndpoint
variable (s : State) (e : Endpoint) (d : Dec)
@[simp] theorem setEndpoint_ep : (s.setEndpoint e).ep = some e := rfl
@[simp] theorem setEndpoint_env : (s.setEndpoint e).env = s.env := rfl
@[simp] theorem setEndpoint_cur : (s.setEndpoint e).cur = s.cur := rfl
@[simp] theorem setEndpoint_driverAgent : (s.setEndpoint e).driverAgent = s.driverAgent := rfl
@[simp] theorem setEndpoint_thread (b : Agent) : (s.setEndpoint e).thread b = s.thread b := rfl
@[simp] theorem setDec_ep : (s.setDec e d).ep = some { e with dec := some d } := rfl
@[simp] theorem setDec_env : (s.setDec e d).env = s.env := rfl
@[simp] theorem setDec_cur : (s.setDec e d).cur = s.cur := rfl
@[simp] theorem setDec_driverAgent : (s.setDec e d).driverAgent = s.driverAgent := rfl
@[simp] theorem setDec_thread (b : Agent) : (s.setDec e d).thread b = s.thread b := rfl
end setEndpoint

section setEnv
variable (s : State) (v : Env)
@[simp] theorem setEnv_ep : (s.setEnv v).ep = s.ep := rfl
@[simp] theorem setEnv_env : (s.setEnv v).env = v := rfl
@[simp] theorem setEnv_cur : (s.setEnv v).cur = s.cur := rfl
@[simp] theorem setEnv_thread (b : Agent) : (s.setEnv v).thread b = s.thread b := rfl
@[simp] theorem recordCall_ep (c : Call) : (s.recordCall c).ep = s.ep := rfl
@[simp] theorem recordCall_cur (c : Call) : (s.recordCall c).cur = s.cur := rfl
@[simp] theorem recordCall_thread (c : Call) (b : Agent) : (s.recordCall c).thread b = s.thread b := rfl
@[simp] theorem recordCall_driverAgent (c : Call) : (s.recordCall c).driverAgent = s.driverAgent := rfl
@[simp] theorem transmit_ep (bs : List Byte) : (s.transmit bs).ep = s.ep := rfl
@[simp] theorem transmit_cur (bs : List Byte) : (s.transmit bs).cur = s.cur := rfl
@[simp] theorem transmit_thread (bs : List Byte) (b : Agent) : (s.transmit bs).thread b = s.thread b := rfl
@[simp] theorem transmit_driverAgent (bs : List Byte) : (s.transmit bs).driverAgent = s.driverAgent := rfl
@[simp] theorem polling_ep : s.polling.ep = s.ep := rfl
@[simp] theorem polling_env : s.polling.env = { s.env with begun := true } := rfl
@[simp] theorem polling_cur : s.polling.cur = s.cur := rfl
@[simp] theorem polling_thread (b : Agent) : s.polling.thread b = s.thread b := rfl
@[simp] theorem polling_driverAgent : s.polling.driverAgent = s.driverAgent := rfl
@[simp] theorem logLine_ep (x : Diagnostic) : (s.logLine x).ep = s.ep := rfl
@[simp] theorem logLine_cur (x : Diagnostic) : (s.logLine x).cur = s.cur := rfl
@[simp] theorem logLine_thread (x : Diagnostic) (b : Agent) : (s.logLine x).thread b = s.thread b := rfl
@[simp] theorem logLine_driverAgent (x : Diagnostic) : (s.logLine x).driverAgent = s.driverAgent := rfl
end setEnv

section turnOf
variable (s : State) (a : Agent) (rest : List Task)
@[simp] theorem turnOf_ep : (s.turnOf a rest).ep = s.ep := rfl
@[simp] theorem turnOf_env : (s.turnOf a rest).env = s.env := rfl
@[simp] theorem turnOf_cur : (s.turnOf a rest).cur = a := rfl
@[simp] theorem turnOf_driverAgent : (s.turnOf a rest).driverAgent = s.driverAgent := rfl
@[simp] theorem thread_turnOf_self : (s.turnOf a rest).thread a = { s.thread a with todo := rest } :=
  thread_setThread_self _ _ _
theorem thread_turnOf_ne {b : Agent} (h : b ≠ a) : (s.turnOf a rest).thread b = s.thread b :=
  (thread_setThread_ne _ _ _ h).trans rfl
end turnOf

section loseOthers
variable (s : State)
@[simp] theorem loseOthers_ep : s.loseOthers.ep = s.ep := rfl
@[simp] theorem loseOthers_env : s.loseOthers.env = s.env := rfl
@[simp] theorem loseOthers_cur : s.loseOthers.cur = s.cur := rfl
@[simp] theorem loseOthers_driverAgent : s.loseOthers.driverAgent = s.driverAgent := rfl
@[simp] theorem thread_loseOthers_owner : s.loseOthers.thread .owner = s.thread .owner := rfl
theorem thread_loseOthers_ne {a : Agent} (h : a ≠ .owner) : s.loseOthers.thread a = (s.thread a).lose := by
  cases a <;> first | rfl | exact absurd rfl h
end loseOthers

/-- What is left of a thread that `EP.CLOSE` found with an operation in progress. -/
theorem Thread.micro_mem_lose {t : Thread} {m : Micro} (h : Task.micro m ∈ t.lose.todo) : m = .lost := by
  unfold Thread.lose at h
  split at h
  · simpa using h
  · rename_i hx
    simp only [Thread.inFlight, List.any_eq_true, not_exists, not_and] at hx
    exact absurd rfl (hx _ h)

/-- Two environments with the same boundary: what a step of the block, in contrast to an event, leaves alone
(`begun` apart, which an activation sets). -/
structure Env.SameBoundary (v v' : Env) : Prop where
  handle : v'.handle = v.handle
  polledIn : v'.polledIn = v.polledIn
  polledOut : v'.polledOut = v.polledOut
  closing : v'.closing = v.closing
  shutdown : v'.shutdown = v.shutdown
  driver : v'.driver = v.driver
  cursorBits : v'.cursorBits = v.cursorBits

theorem Env.SameBoundary.refl (v : Env) : v.SameBoundary v := ⟨rfl, rfl, rfl, rfl, rfl, rfl, rfl⟩

theorem Env.SameBoundary.of_eq {v v' : Env} (h : v' = v) : v.SameBoundary v' := h ▸ .refl v

theorem Env.SameBoundary.polled {v v' : Env} (h : v.SameBoundary v') (d : Direction) : v'.polled d = v.polled d := by
  cases d
  · exact h.polledIn
  · exact h.polledOut

/-! ### Draws: only the environment's inputs change -/

section draws
variable (s : State) (f : Nat)
@[simp] theorem drawRead_ep : (s.drawRead f).2.ep = s.ep := by unfold State.drawRead; split <;> rfl
@[simp] theorem drawRead_cur : (s.drawRead f).2.cur = s.cur := by unfold State.drawRead; split <;> rfl
@[simp] theorem drawRead_thread (b : Agent) : (s.drawRead f).2.thread b = s.thread b := by
  unfold State.drawRead; split <;> rfl
@[simp] theorem drawRead_driverAgent : (s.drawRead f).2.driverAgent = s.driverAgent := by
  unfold State.drawRead; split <;> rfl
@[simp] theorem drawWrite_ep : s.drawWrite.2.ep = s.ep := by unfold State.drawWrite; split <;> rfl
@[simp] theorem drawWrite_cur : s.drawWrite.2.cur = s.cur := by unfold State.drawWrite; split <;> rfl
@[simp] theorem drawWrite_thread (b : Agent) : s.drawWrite.2.thread b = s.thread b := by
  unfold State.drawWrite; split <;> rfl
@[simp] theorem drawWrite_driverAgent : s.drawWrite.2.driverAgent = s.driverAgent := by
  unfold State.drawWrite; split <;> rfl
@[simp] theorem drawTear_ep : s.drawTear.2.ep = s.ep := by unfold State.drawTear; split <;> rfl
@[simp] theorem drawTear_cur : s.drawTear.2.cur = s.cur := by unfold State.drawTear; split <;> rfl
@[simp] theorem drawTear_thread (b : Agent) : s.drawTear.2.thread b = s.thread b := by
  unfold State.drawTear; split <;> rfl
@[simp] theorem drawTear_driverAgent : s.drawTear.2.driverAgent = s.driverAgent := by
  unfold State.drawTear; split <;> rfl
@[simp] theorem endPeek_ep (x y : Message) : (s.endPeek x y).2.ep = s.ep := by
  unfold State.endPeek; split <;> simp
@[simp] theorem endPeek_cur (x y : Message) : (s.endPeek x y).2.cur = s.cur := by
  unfold State.endPeek; split <;> simp
@[simp] theorem endPeek_thread (x y : Message) (b : Agent) : (s.endPeek x y).2.thread b = s.thread b := by
  unfold State.endPeek; split <;> simp
@[simp] theorem endPeek_driverAgent (x y : Message) : (s.endPeek x y).2.driverAgent = s.driverAgent := by
  unfold State.endPeek; split <;> simp
@[simp] theorem endPeek_same (x : Message) : s.endPeek x x = (x, s) := if_pos rfl
@[simp] theorem drawScript_ep : s.drawScript.2.ep = s.ep := by unfold State.drawScript; split <;> rfl
@[simp] theorem drawScript_cur : s.drawScript.2.cur = s.cur := by unfold State.drawScript; split <;> rfl
@[simp] theorem drawScript_thread (b : Agent) : s.drawScript.2.thread b = s.thread b := by
  unfold State.drawScript; split <;> rfl
@[simp] theorem drawScript_driverAgent : s.drawScript.2.driverAgent = s.driverAgent := by
  unfold State.drawScript; split <;> rfl
theorem drawRead_boundary : s.env.SameBoundary (s.drawRead f).2.env := by
  unfold State.drawRead; split <;> exact ⟨rfl, rfl, rfl, rfl, rfl, rfl, rfl⟩
theorem drawWrite_boundary : s.env.SameBoundary s.drawWrite.2.env := by
  unfold State.drawWrite; split <;> exact ⟨rfl, rfl, rfl, rfl, rfl, rfl, rfl⟩
theorem drawTear_boundary : s.env.SameBoundary s.drawTear.2.env := by
  unfold State.drawTear; split <;> exact ⟨rfl, rfl, rfl, rfl, rfl, rfl, rfl⟩
theorem drawScript_boundary : s.env.SameBoundary s.drawScript.2.env := by
  unfold State.drawScript; split <;> exact ⟨rfl, rfl, rfl, rfl, rfl, rfl, rfl⟩
theorem endPeek_boundary (x y : Message) : s.env.SameBoundary (s.endPeek x y).2.env := by
  unfold State.endPeek; split
  · exact .refl _
  · exact drawTear_boundary s
@[simp] theorem drawRead_driver : (s.drawRead f).2.env.driver = s.env.driver :=
  (drawRead_boundary s f).driver
@[simp] theorem drawRead_cursorBits : (s.drawRead f).2.env.cursorBits = s.env.cursorBits :=
  (drawRead_boundary s f).cursorBits
@[simp] theorem drawRead_shutdown : (s.drawRead f).2.env.shutdown = s.env.shutdown :=
  (drawRead_boundary s f).shutdown
@[simp] theorem drawWrite_driver : s.drawWrite.2.env.driver = s.env.driver :=
  (drawWrite_boundary s).driver
@[simp] theorem drawWrite_cursorBits : s.drawWrite.2.env.cursorBits = s.env.cursorBits :=
  (drawWrite_boundary s).cursorBits
@[simp] theorem drawWrite_shutdown : s.drawWrite.2.env.shutdown = s.env.shutdown :=
  (drawWrite_boundary s).shutdown
@[simp] theorem drawTear_driver : s.drawTear.2.env.driver = s.env.driver :=
  (drawTear_boundary s).driver
@[simp] theorem drawTear_cursorBits : s.drawTear.2.env.cursorBits = s.env.cursorBits :=
  (drawTear_boundary s).cursorBits
@[simp] theorem drawTear_shutdown : s.drawTear.2.env.shutdown = s.env.shutdown :=
  (drawTear_boundary s).shutdown
@[simp] theorem drawScript_driver : s.drawScript.2.env.driver = s.env.driver :=
  (drawScript_boundary s).driver
@[simp] theorem drawScript_cursorBits : s.drawScript.2.env.cursorBits = s.env.cursorBits :=
  (drawScript_boundary s).cursorBits
@[simp] theorem drawScript_shutdown : s.drawScript.2.env.shutdown = s.env.shutdown :=
  (drawScript_boundary s).shutdown
@[simp] theorem endPeek_driver (x y : Message) : (s.endPeek x y).2.env.driver = s.env.driver :=
  (endPeek_boundary s x y).driver
@[simp] theorem endPeek_cursorBits (x y : Message) : (s.endPeek x y).2.env.cursorBits = s.env.cursorBits :=
  (endPeek_boundary s x y).cursorBits
@[simp] theorem endPeek_shutdown (x y : Message) : (s.endPeek x y).2.env.shutdown = s.env.shutdown :=
  (endPeek_boundary s x y).shutdown
end draws

end Sys2Proof.Machine
end

