-- ==== Sys2Proof/Laws/Ops.lean ====
section
/-! SUPPORT. For each shared operation what it does where it goes on, and what must have held if it
answered a next state; the provers cite these instead of unfolding. -/

namespace Sys2Proof.Machine

/-! ### Guards -/

theorem guarded_eq {r : Role} {s : State} {e : Endpoint} (h : s.Admits r e) (k : Endpoint → Outcome) :
    guarded r s k = k e := by
  simp [guarded, h.role, h.present, h.live, h.polled]

/-- If a guarded operation goes on to an outcome of its own, its guard was passed. -/
theorem guarded_admits {r : Role} {s : State} {k : Endpoint → Outcome} {o : Outcome} (h : guarded r s k = o)
    (ho : ∀ x, o ≠ .refused x) : ∃ e, s.Admits r e ∧ k e = o := by
  unfold guarded at h
  split at h
  · split at h
    · exact absurd h.symm (ho _)
    · split at h
      · exact absurd h.symm (ho _)
      · split at h
        · exact absurd h.symm (ho _)
        · rename_i hr _ e he hc _ hp
          exact ⟨e, ⟨hr, he, by simpa using hc, hp⟩, h⟩
  · exact absurd h.symm (ho _)

theorem guarded_next {r : Role} {s t : State} {k : Endpoint → Outcome} (h : guarded r s k = .next t) :
    ∃ e, s.Admits r e ∧ k e = .next t := guarded_admits h fun _ hx => by cases hx

/-- A guard itself never faults. -/
theorem guarded_fault {r : Role} {s : State} {f : Fault} {k : Endpoint → Outcome}
    (h : guarded r s k = .fault f) : ∃ e, s.Admits r e ∧ k e = .fault f := guarded_admits h fun _ hx => by cases hx

/-- The endpoint an agent of BG operates on is in its loop's set, and in the set of the ring's direction. -/
theorem State.Admits.registered {s : State} {r : Role} {e : Endpoint} (h : s.Admits r e) :
    (s.cur = .bgIn ∨ r = .producerIn → s.env.polledIn = true) ∧
      (s.cur = .bgOut ∨ r = .consumerOut → s.env.polledOut = true) := by
  have hp := h.polled
  unfold State.unregistered at hp
  split at hp
  · cases hp
  · split at hp
    · cases hp
    · rename_i h1 h2
      exact ⟨fun hx => by simpa using fun hy => h1 ⟨hx, hy⟩, fun hx => by simpa using fun hy => h2 ⟨hx, hy⟩⟩

/-- Who may drain OUT, and that no drain is in progress (60_exceptions.md R261, R263). -/
theorem holds_consumerOut {s : State} (h : s.holds .consumerOut = true) :
    (s.cur = .bgOut ∨ (s.cur = .bgIn ∧ s.cur = s.driverAgent)) ∧ s.draining = false := by
  simp only [State.holds, State.inHandler, Bool.and_eq_true, Bool.or_eq_true, beq_iff_eq, Bool.not_eq_true'] at h
  exact ⟨h.1.imp id fun hx => ⟨hx.1, hx.2.1⟩, h.2⟩

theorem holds_driver {s : State} (h : s.holds .driver = true) : s.cur = s.driverAgent := by
  simpa [State.holds] using h

theorem onEndpoint_eq {s : State} {e : Endpoint} (h : s.ep = some e) (k : Endpoint → Outcome) :
    onEndpoint s k = k e := by simp [onEndpoint, h]

theorem onEndpoint_next {s t : State} {k : Endpoint → Outcome} (h : onEndpoint s k = .next t) :
    ∃ e, s.ep = some e ∧ k e = .next t := by
  unfold onEndpoint at h
  split at h
  · cases h
  · exact ⟨_, ‹_›, h⟩

theorem onEndpoint_fault {s : State} {f : Fault} {k : Endpoint → Outcome}
    (h : onEndpoint s k = .fault f) : ∃ e, s.ep = some e ∧ k e = .fault f := by
  unfold onEndpoint at h
  split at h
  · cases h
  · exact ⟨_, ‹_›, h⟩

theorem onDecoder_eq {e : Endpoint} {d : Dec} (h : e.dec = some d) (k : Dec → Outcome) :
    onDecoder e k = k d := by simp [onDecoder, h]

theorem onDecoder_next {e : Endpoint} {t : State} {k : Dec → Outcome} (h : onDecoder e k = .next t) :
    ∃ d, e.dec = some d ∧ k d = .next t := by
  unfold onDecoder at h
  split at h
  · cases h
  · exact ⟨_, ‹_›, h⟩

theorem onDecoder_fault {e : Endpoint} {f : Fault} {k : Dec → Outcome} (h : onDecoder e k = .fault f) :
    ∃ d, e.dec = some d ∧ k d = .fault f := by
  unfold onDecoder at h
  split at h
  · cases h
  · exact ⟨_, ‹_›, h⟩

theorem onTransport_eq {d : Direction} {s : State} (h : s.env.handle.serves d = true) (k : Outcome) :
    onTransport d s k = k := by simp [onTransport, h]

theorem onTransport_next {d : Direction} {s t : State} {k : Outcome} (h : onTransport d s k = .next t) :
    k = .next t := by
  unfold onTransport at h
  split at h
  · exact h
  · cases h

theorem onTransport_fault {d : Direction} {s : State} {f : Fault} {k : Outcome}
    (h : onTransport d s k = .fault f) : k = .fault f := by
  unfold onTransport at h
  split at h
  · exact h
  · cases h

theorem onSlot_next {d : Dec} {i : Nat} {t : State} {k : Outcome} (h : onSlot d i k = .next t) :
    i < d.store.length ∧ k = .next t := by
  unfold onSlot at h
  split at h
  · exact ⟨‹_›, h⟩
  · cases h

theorem onSlot_eq {d : Dec} {i : Nat} (h : i < d.store.length) (k : Outcome) : onSlot d i k = k := by
  simp [onSlot, h]

theorem onSlot_fault {d : Dec} {i : Nat} {f : Fault} {k : Outcome} (h : onSlot d i k = .fault f) :
    k = .fault f := by
  unfold onSlot at h
  split at h
  · exact h
  · cases h

theorem onWire_eq {st : DecState} {s : State} {e : Endpoint} {d : Dec} (h : s.Admits .driver e)
    (hd : e.dec = some d) (hst : d.state = st) (k : Endpoint → Dec → Outcome) : onWire st s k = k e d := by
  simp [onWire, guarded_eq h, onDecoder_eq hd, hst]

theorem onWire_next {st : DecState} {s t : State} {k : Endpoint → Dec → Outcome}
    (h : onWire st s k = .next t) :
    ∃ e d, s.Admits .driver e ∧ e.dec = some d ∧ d.state = st ∧ k e d = .next t := by
  obtain ⟨e, ha, h⟩ := guarded_next h
  obtain ⟨d, hd, h⟩ := onDecoder_next h
  split at h
  · exact ⟨e, d, ha, hd, ‹_›, h⟩
  · cases h

theorem onWire_fault {st : DecState} {s : State} {f : Fault} {k : Endpoint → Dec → Outcome}
    (h : onWire st s k = .fault f) : ∃ e d, k e d = .fault f := by
  obtain ⟨e, -, h⟩ := guarded_fault h
  obtain ⟨d, -, h⟩ := onDecoder_fault h
  split at h
  · exact ⟨e, d, h⟩
  · cases h

/-! ### States that return or go on -/

theorem returned_finish (s : State) (r : Result) : Returned s (s.finish (some r)) r where
  env := by simp
  agent := by simp
  others := fun b h => thread_finish_ne s _ h
  todo := by simp
  ret := by simp

/-- Clearing the result and changing the endpoint before an operation returns makes no difference. -/
theorem returned_begin_setEndpoint (s : State) (e : Endpoint) (r : Result) :
    Returned s ((s.begin.setEndpoint e).finish (some r)) r where
  env := by simp
  agent := by simp
  others := fun b h => by
    rw [thread_finish_ne _ _ (by simpa using h), setEndpoint_thread, thread_begin_ne s h]
  todo := by simp
  ret := by
    have := thread_finish_cur (s.begin.setEndpoint e) r
    simp only [setEndpoint_cur, begin_cur] at this
    rw [this]

theorem returned_setEndpoint (s : State) (e : Endpoint) (r : Result) :
    Returned s ((s.setEndpoint e).finish (some r)) r where
  env := by simp
  agent := by simp
  others := fun b h => by rw [thread_finish_ne _ _ (by simpa using h), setEndpoint_thread]
  todo := by simp
  ret := by
    have := thread_finish_cur (s.setEndpoint e) r
    simp only [setEndpoint_cur] at this
    rw [this]

theorem goesOn_push (s : State) (ts : List Task) : GoesOn s (s.push ts) ts where
  env := rfl
  agent := rfl
  others := fun _ h => thread_push_ne s ts h
  todo := by simp

theorem goesOn_begin_push (s : State) (ts : List Task) : GoesOn s (s.begin.push ts) ts where
  env := rfl
  agent := rfl
  others := fun b h => by rw [thread_push_ne _ _ (by simpa using h), thread_begin_ne s h]
  todo := by
    have := thread_push_cur s.begin ts
    simp only [begin_cur] at this
    rw [this]; simp

/-! ### The decoder -/

section dec
variable (d : Dec) (m : Message)
@[simp] theorem setSlot_length : (d.setSlot m).store.length = d.store.length := by simp [Dec.setSlot]
@[simp] theorem setSlot_writeSlot : (d.setSlot m).writeSlot = d.writeSlot := rfl
@[simp] theorem setSlot_state : (d.setSlot m).state = d.state := rfl
@[simp] theorem setSlot_elapsed : (d.setSlot m).elapsed = d.elapsed := rfl
@[simp] theorem setSlot_cb : (d.setSlot m).cb = d.cb := rfl
@[simp] theorem setSlot_cbArg : (d.setSlot m).cbArg = d.cbArg := rfl
variable {d}
theorem slot_setSlot (h : d.writeSlot < d.store.length) : (d.setSlot m).slot = m := by
  simp [Dec.slot, Dec.setSlot, List.getD_eq_getElem?_getD, h]
theorem slotAt_setSlot_ne {k : Nat} (h : k ≠ d.writeSlot) : (d.setSlot m).slotAt k = d.slotAt k := by
  simp [Dec.slotAt, Dec.setSlot, List.getD_eq_getElem?_getD, List.getElem?_set_ne (Ne.symm h)]
theorem slot_mem (h : d.writeSlot < d.store.length) : d.slot ∈ d.store := by
  simp only [Dec.slot, List.getD_eq_getElem?_getD, List.getElem?_eq_getElem h, Option.getD_some]
  exact List.getElem_mem h
end dec

/-- The completion tasks are the callback's, if one is registered, and the advance. -/
theorem mem_completion {d : Dec} {fin : Option Result} {k : Task} (h : k ∈ completion d fin) :
    k = .micro .callback ∨ k = .micro (.advance fin) := by
  unfold completion at h
  split at h <;> simp at h <;> tauto

theorem advance_mem_completion (d : Dec) (fin : Option Result) :
    Task.micro (.advance fin) ∈ completion d fin := by
  unfold completion; split <;> simp

/-- What a data byte does to the registers, where there is room for it (40_decoder.md R136). -/
theorem storeData_some {d d' : Dec} {b : Byte} (h : d.storeData b = some d') :
    d.elapsed < d.slot.dataByteCount ∧
      ((d.elapsed = 0 ∧ d' = { d.setSlot { d.slot with data0 := b } with elapsed := 1 }) ∨
       (d.elapsed = 1 ∧ d' = { d.setSlot { d.slot with data1 := b } with elapsed := 2 })) := by
  unfold Dec.storeData at h
  split at h
  · refine ⟨‹_›, ?_⟩
    unfold Message.setData at h
    split at h
    · left; rename_i h0; exact ⟨h0, by simpa [h0] using h.symm⟩
    · split at h
      · right; rename_i h1; exact ⟨h1, by simpa [h1] using h.symm⟩
      · simp at h
  · cases h

/-- Room for a data byte: the message in progress lacks one (10_state.md R45 item 6). -/
theorem storeData_isSome {d : Dec} {b : Byte} (h : d.elapsed < d.slot.dataByteCount)
    (h2 : d.slot.dataByteCount ≠ 3) : ∃ d', d.storeData b = some d' := by
  unfold Dec.storeData
  rw [if_pos h]
  have h01 : d.elapsed = 0 ∨ d.elapsed = 1 := by bv_omega
  rcases h01 with h0 | h0 <;> simp [h0, Message.setData]

/-- The fifteen kinds of byte do one of three things: change the decoder and return; change it and
complete a message; or nothing but return. -/
theorem byteStep_next {b : Byte} {fin : Option Result} {s t : State} {e : Endpoint} {d : Dec}
    (h : byteStep b fin s e d = .next t) :
    (d.state = .waitingForStatus ∧ 0x80#8 ≤ b ∧ b < 0xF0#8 ∧
      statusStep (tableType (hiNibble b)) (loNibble b) fin s e d = .next t) ∨
    (d.state = .waitingForStatus ∧ b = 0xF0#8 ∧
      t = (s.setDec e { d with state := .receivingSysex }).finish fin) ∨
    (d.state = .receivingSysex ∧ b = 0xF7#8 ∧
      t = (s.setDec e { d with state := .waitingForStatus }).finish fin) ∨
    (d.state ≠ .accumulatingData ∧ t = s.finish fin) ∨
    (d.state = .accumulatingData ∧ dataStep b fin s e d = .next t) := by
  unfold byteStep at h
  cases hst : d.state <;> simp only [hst] at h
  · split at h
    · exact .inl ⟨rfl, by tauto, by tauto, h⟩
    · split at h
      · exact .inr (.inl ⟨rfl, ‹_›, by simpa [gotoStep] using h.symm⟩)
      · exact .inr (.inr (.inr (.inl ⟨by simp, by simpa [discardStep] using h.symm⟩)))
  · split at h
    · exact .inr (.inr (.inl ⟨rfl, ‹_›, by simpa [gotoStep] using h.symm⟩))
    · exact .inr (.inr (.inr (.inl ⟨by simp, by simpa [discardStep] using h.symm⟩)))
  · exact .inr (.inr (.inr (.inr ⟨rfl, h⟩)))

/-- A data byte is stored, and the step returns or goes on with the completion. -/
theorem dataStep_next {b : Byte} {fin : Option Result} {s t : State} {e : Endpoint} {d : Dec}
    (h : dataStep b fin s e d = .next t) :
    ∃ d', d.storeData b = some d' ∧
      ((d'.elapsed = d'.slot.dataByteCount ∧ t = (s.setDec e d').push (completion d' fin)) ∨
       (d'.elapsed ≠ d'.slot.dataByteCount ∧ t = (s.setDec e d').finish fin)) := by
  unfold dataStep at h
  split at h
  · cases h
  · refine ⟨_, ‹_›, ?_⟩
    split at h
    · exact .inl ⟨‹_›, by simpa using h.symm⟩
    · exact .inr ⟨‹_›, by simpa using h.symm⟩

/-- No byte faults. -/
theorem byteStep_fault {b : Byte} {fin : Option Result} {s : State} {e : Endpoint} {d : Dec} {f : Fault} :
    byteStep b fin s e d ≠ .fault f := by
  intro h
  unfold byteStep statusStep gotoStep discardStep dataStep at h
  repeat' split at h
  all_goals cases h

theorem feedByte_fault {b : Byte} {fin : Option Result} {s : State} {f : Fault} :
    feedByte b fin s ≠ .fault f := by
  intro h
  obtain ⟨e, -, h⟩ := onEndpoint_fault h
  obtain ⟨d, -, h⟩ := onDecoder_fault h
  exact byteStep_fault h

/-! ### Task lists -/

theorem mem_enqueueTasks {k : Task} {bytes : List Byte} (h : k ∈ enqueueTasks bytes) :
    ∃ b fin, k = .micro (.outEnq b fin) := by
  induction bytes with
  | nil => cases h
  | cons b rest ih =>
    rcases List.mem_cons.1 h with h | h
    · exact ⟨_, _, h⟩
    · exact ih h

theorem mem_parseTasks {k : Task} {n : Nat} {bytes : List Byte} (h : k ∈ parseTasks n bytes) :
    ∃ b fin, k = .micro (.decByte b fin) := by
  induction bytes with
  | nil => cases h
  | cons b rest ih =>
    rcases List.mem_cons.1 h with h | h
    · exact ⟨_, _, h⟩
    · exact ih h

theorem mem_feedTasks {k : Task} {w0 n : Nat} (h : k ∈ feedTasks w0 n) :
    ∃ i, i < n ∧ k = .micro (.pollFeed w0 i) := by
  simp only [feedTasks, List.mem_map, List.mem_range] at h
  obtain ⟨i, hi, rfl⟩ := h
  exact ⟨i, hi, rfl⟩

/-- The status table is total on the status bytes (30_encoding.md R92). -/
theorem tableType_ne_none {b : Byte} (h1 : 0x80#8 ≤ b) (h2 : b < 0xF0#8) :
    tableType (hiNibble b) ≠ .none := by
  revert b; decide

theorem count_eq_zero {t : MsgType} : t.count = 0 ↔ t = .none := by cases t <;> decide

theorem count_ne_three (t : MsgType) : t.count ≠ 3 := by cases t <;> decide

end Sys2Proof.Machine
end

