-- ==== Sys2Proof/Laws/Inv.lean ====
section
/-! SUPPORT. The invariant under each state update and each shared operation. -/

namespace Sys2Proof.Machine

/-! ### Updates of threads and environment -/

/-- Nothing the acting agent has still to do holds a snapshot of its own cursor. -/
def State.Clear (s : State) : Prop :=
  ∀ m, Task.micro m ∈ (s.thread s.cur).todo → m.headOnly = false

/-- A state with the same endpoint and boundary and the same work to do. -/
theorem SysInv.of_same {s t : State} (h : SysInv s) (hep : t.ep = s.ep) (hv : s.env.SameBoundary t.env)
    (htodo : ∀ a, (t.thread a).todo = (s.thread a).todo) : SysInv t where
  endpoint := fun e he => h.endpoint e (hep ▸ he)
  roles := fun a m hm => by
    rw [show t.driverAgent = s.driverAgent from congrArg Driver.agent hv.driver]; exact h.roles a m (htodo a ▸ hm)
  ready := fun a m hm e he => h.ready a m (htodo a ▸ hm) e (hep ▸ he)
  heads := fun a m hm => h.heads a m (htodo a ▸ hm)
  once := fun a => by rw [htodo a]; exact h.once a
  still := fun hx a m ha hm => h.still (by rwa [hep, hv.closing] at hx) a m ha (htodo a ▸ hm)
  tearing := fun m hm => by rw [hv.closing]; exact h.tearing m (htodo _ ▸ hm)
  pollsIn := fun m hm hl => by rw [hv.polledIn]; exact h.pollsIn m (htodo _ ▸ hm) hl
  pollsOut := fun m hm hl => by rw [hv.polledOut]; exact h.pollsOut m (htodo _ ▸ hm) hl
  oneDrain := by rw [htodo, htodo]; exact h.oneDrain
  boundary := ⟨fun d hd => by rw [hv.handle]; exact h.boundary.serves d (hv.polled d ▸ hd),
    fun d hd => by rw [hep, hv.closing, hv.shutdown]; exact h.boundary.alive d (hv.polled d ▸ hd)⟩
  fits := fun e he => by rw [hv.cursorBits]; exact h.fits e (hep ▸ he)
  handing := fun hl e d he hd hc => by
    obtain ⟨a, fin, hm⟩ := h.handing (hv.closing ▸ hl) e d (hep ▸ he) hd hc
    exact ⟨a, fin, by rw [htodo a]; exact hm⟩

theorem State.Clear.of_same {s t : State} (h : s.Clear) (hcur : t.cur = s.cur)
    (htodo : ∀ a, (t.thread a).todo = (s.thread a).todo) : t.Clear := fun m hm => by
  rw [hcur, htodo] at hm; exact h m hm

theorem SysInv.finish {s : State} (h : SysInv s) (fin : Option Result) : SysInv (s.finish fin) :=
  h.of_same (by simp) (.of_eq (by simp)) (by simp)

theorem SysInv.begin {s : State} (h : SysInv s) : SysInv s.begin := h.of_same (by simp) (.of_eq (by simp)) (by simp)

theorem State.Clear.begin {s : State} (h : s.Clear) : s.begin.Clear := h.of_same (by simp) (by simp)

theorem SysInv.setEnv {s : State} (h : SysInv s) {v : Env} (hv : s.env.SameBoundary v) : SysInv (s.setEnv v) :=
  h.of_same rfl hv fun _ => rfl

theorem SysInv.polling {s : State} (h : SysInv s) : SysInv s.polling := h.setEnv ⟨rfl, rfl, rfl, rfl, rfl, rfl, rfl⟩

theorem SysInv.drawRead {s : State} (h : SysInv s) (f : Nat) : SysInv (s.drawRead f).2 :=
  h.of_same (by simp) (drawRead_boundary s f) (by simp)

theorem SysInv.drawWrite {s : State} (h : SysInv s) : SysInv s.drawWrite.2 :=
  h.of_same (by simp) (drawWrite_boundary s) (by simp)

theorem SysInv.endPeek {s : State} (h : SysInv s) (x y : Message) : SysInv (s.endPeek x y).2 :=
  h.of_same (by simp) (endPeek_boundary s x y) (by simp)

theorem SysInv.drawTear {s : State} (h : SysInv s) : SysInv s.drawTear.2 :=
  h.of_same (by simp) (drawTear_boundary s) (by simp)

theorem SysInv.drawScript {s : State} (h : SysInv s) : SysInv s.drawScript.2 :=
  h.of_same (by simp) (drawScript_boundary s) (by simp)

theorem SysInv.logLine {s : State} (h : SysInv s) (x : Diagnostic) : SysInv (s.logLine x) :=
  h.setEnv ⟨rfl, rfl, rfl, rfl, rfl, rfl, rfl⟩

theorem SysInv.recordCall {s : State} (h : SysInv s) (c : Call) : SysInv (s.recordCall c) :=
  h.setEnv ⟨rfl, rfl, rfl, rfl, rfl, rfl, rfl⟩

theorem SysInv.transmit {s : State} (h : SysInv s) (bs : List Byte) : SysInv (s.transmit bs) :=
  h.setEnv ⟨rfl, rfl, rfl, rfl, rfl, rfl, rfl⟩

theorem SysInv.answer {s t : State} (h : SysInv s) {r : Result} (ht : s.answer r = .next t) : SysInv t := by
  cases ht; exact h.finish _

/-- The acting agent may have an operation in progress: none but the owner's goes on without an endpoint or in a
teardown, the owner's is the teardown, and BG's loops work on endpoints they poll. -/
structure State.Engaged (s : State) : Prop where
  still : s.ep = none ∨ s.env.closing = true → s.cur = .owner
  tearing : s.cur = .owner → s.env.closing = true
  pollsIn : s.cur = .bgIn → s.env.polledIn = true
  pollsOut : s.cur = .bgOut → s.env.polledOut = true

theorem State.Engaged.of_same {s t : State} (h : s.Engaged) (hep : t.ep = s.ep) (hv : s.env.SameBoundary t.env)
    (hcur : t.cur = s.cur) : t.Engaged where
  still := fun hx => by rw [hep, hv.closing] at hx; rw [hcur]; exact h.still hx
  tearing := fun hx => by rw [hv.closing]; exact h.tearing (hcur ▸ hx)
  pollsIn := fun hx => by rw [hv.polledIn]; exact h.pollsIn (hcur ▸ hx)
  pollsOut := fun hx => by rw [hv.polledOut]; exact h.pollsOut (hcur ▸ hx)

/-- An agent of RT or BG that may issue an operation may have it in progress. -/
theorem State.Admits.engaged {s : State} {r : Role} {e : Endpoint} (h : s.Admits r e) (ho : s.cur ≠ .owner) :
    s.Engaged where
  still := fun hx => by rcases hx with hx | hx <;> simp [h.present, h.live] at hx
  tearing := fun hx => absurd hx ho
  pollsIn := fun hx => h.registered.1 (.inl hx)
  pollsOut := fun hx => h.registered.2 (.inl hx)

/-- An agent that takes a later step of its operation may go on with it. -/
theorem SysInv.engaged {s : State} (h : SysInv s) {a : Agent} {m : Micro} (hm : Task.micro m ∈ (s.thread a).todo)
    (hl : m ≠ .lost) (rest : List Task) : (s.turnOf a rest).Engaged where
  still := fun hx => Classical.byContradiction fun ha => hl (h.still hx a m ha hm)
  tearing := fun ha => h.tearing m (by cases (show a = _ from ha); exact hm)
  pollsIn := fun ha => h.pollsIn m (by cases (show a = _ from ha); exact hm) hl
  pollsOut := fun ha => h.pollsOut m (by cases (show a = _ from ha); exact hm) hl

/-- A task the acting agent has after a push is new or was there. -/
theorem mem_push {s : State} {ts : List Task} {a : Agent} {k : Task} (hk : k ∈ ((s.push ts).thread a).todo) :
    (a = s.cur ∧ k ∈ ts) ∨ k ∈ (s.thread a).todo := by
  by_cases ha : a = s.cur
  · subst ha; rw [thread_push_cur] at hk; exact (List.mem_append.1 hk).imp (fun hx => ⟨rfl, hx⟩) id
  · rw [thread_push_ne _ _ ha] at hk; exact .inr hk

/-- New tasks of the acting agent: its own steps; a snapshot of its own cursor only at their head; a step of a
drain only where the other loop has none. -/
theorem WorkInv.push {s : State} (h : WorkInv s) (hno : s.Clear) {ts : List Task}
    (hts : ∀ m, Task.micro m ∈ ts → m.belongs s.driverAgent s.cur ∧ s.Engaged)
    (hhd : ∀ m, Task.micro m ∈ ts.tail → m.headOnly = false)
    (honce : ts.countP Task.isAdvance = 0 ∨
      (ts.countP Task.isAdvance ≤ 1 ∧ (s.thread s.cur).todo.countP Task.isAdvance = 0))
    (hdrain : ts.any Task.isDrain = false ∨ ∀ b, b ≠ s.cur → (s.thread b).todo.any Task.isDrain = false) :
    WorkInv (s.push ts) where
  roles := fun a m hm => by
    rcases mem_push hm with ⟨rfl, hx⟩ | hm
    · exact (hts m hx).1
    · exact h.roles a m hm
  heads := fun a m hm => by
    by_cases ha : a = s.cur
    · subst ha
      rw [thread_push_cur] at hm
      cases ts with
      | nil => exact h.heads _ m hm
      | cons k ks =>
        rcases List.mem_append.1 hm with hm | hm
        · exact hhd m hm
        · exact hno m hm
    · rw [thread_push_ne _ _ ha] at hm; exact h.heads a m hm
  once := fun a => by
    by_cases ha : a = s.cur
    · subst ha
      have := h.once s.cur
      rw [thread_push_cur, List.countP_append]; omega
    · rw [thread_push_ne _ _ ha]; exact h.once a
  still := fun hx a m ha hm => by
    rcases mem_push hm with ⟨rfl, hn⟩ | hm
    · exact absurd ((hts m hn).2.still hx) ha
    · exact h.still hx a m ha hm
  tearing := fun m hm => by
    rcases mem_push hm with ⟨ha, hn⟩ | hm
    · exact (hts m hn).2.tearing ha.symm
    · exact h.tearing m hm
  pollsIn := fun m hm hl => by
    rcases mem_push hm with ⟨ha, hn⟩ | hm
    · exact (hts m hn).2.pollsIn ha.symm
    · exact h.pollsIn m hm hl
  pollsOut := fun m hm hl => by
    rcases mem_push hm with ⟨ha, hn⟩ | hm
    · exact (hts m hn).2.pollsOut ha.symm
    · exact h.pollsOut m hm hl
  oneDrain := by
    have keep : ∀ b, (s.thread b).todo.any Task.isDrain = false → ts.any Task.isDrain = false ∨ b ≠ s.cur →
        ((s.push ts).thread b).todo.any Task.isDrain = false := by
      intro b hb hx
      by_cases hc : b = s.cur
      · subst hc
        rw [thread_push_cur, List.any_append, hb, Bool.or_false]
        exact hx.resolve_right fun hn => hn rfl
      · rw [thread_push_ne _ _ hc]; exact hb
    rcases hdrain with hd | hd
    · exact h.oneDrain.imp (fun hx => keep _ hx (.inl hd)) fun hx => keep _ hx (.inl hd)
    · by_cases hc : s.cur = .bgIn
      · exact .inr (keep _ (hd _ (by rw [hc]; simp)) (.inr (by rw [hc]; simp)))
      · exact .inl (keep _ (hd _ (Ne.symm hc)) (.inr (Ne.symm hc)))

/-- The same for the whole invariant: the new steps are ready. -/
theorem SysInv.push {s : State} (h : SysInv s) (hno : s.Clear) {ts : List Task}
    (hts : ∀ m, Task.micro m ∈ ts → m.belongs s.driverAgent s.cur ∧ (∀ e, s.ep = some e → m.Ready e) ∧ s.Engaged)
    (hhd : ∀ m, Task.micro m ∈ ts.tail → m.headOnly = false)
    (honce : ts.countP Task.isAdvance = 0 ∨
      (ts.countP Task.isAdvance ≤ 1 ∧ (s.thread s.cur).todo.countP Task.isAdvance = 0))
    (hdrain : ts.any Task.isDrain = false ∨ ∀ b, b ≠ s.cur → (s.thread b).todo.any Task.isDrain = false) :
    SysInv (s.push ts) where
  toWorkInv := h.toWorkInv.push hno (fun m hm => ⟨(hts m hm).1, (hts m hm).2.2⟩) hhd honce hdrain
  endpoint := h.endpoint
  ready := fun a m hm e he => by
    rcases mem_push hm with ⟨rfl, hx⟩ | hm
    · exact (hts m hx).2.1 e he
    · exact h.ready a m hm e he
  boundary := ⟨h.boundary.serves, h.boundary.alive⟩
  fits := h.fits
  handing := fun hl e d he hd hc => by
    obtain ⟨a, fin, hm⟩ := h.handing hl e d he hd hc
    refine ⟨a, fin, ?_⟩
    by_cases ha : a = s.cur
    · subst ha; rw [thread_push_cur]; exact List.mem_append_right _ hm
    · rw [thread_push_ne _ _ ha]; exact hm

/-- New tasks without a snapshot leave the agent clear. -/
theorem State.Clear.push {s : State} (hno : s.Clear) {ts : List Task}
    (h : ∀ m, Task.micro m ∈ ts → m.headOnly = false) : (s.push ts).Clear := fun m hm => by
  rw [push_cur, thread_push_cur] at hm
  rcases List.mem_append.1 hm with hm | hm
  · exact h m hm
  · exact hno m hm

/-- One new step. -/
theorem SysInv.pushOne {s : State} (h : SysInv s) (hno : s.Clear) (hen : s.Engaged) {m : Micro}
    (hb : m.belongs s.driverAgent s.cur) (hr : ∀ e, s.ep = some e → m.Ready e)
    (ha : (Task.micro m).isAdvance = false := by rfl)
    (hd : (Task.micro m).isDrain = false ∨ ∀ b, b ≠ s.cur → (s.thread b).todo.any Task.isDrain = false := by
      exact Or.inl rfl) : SysInv (s.push [.micro m]) :=
  h.push hno (fun x hx => by simp at hx; subst hx; exact ⟨hb, hr, hen⟩) (fun x hx => by simp at hx)
    (.inl (by simp [ha])) (hd.imp (fun hx => by simp [hx]) id)

/-- New operations to issue. -/
theorem SysInv.pushIssues {s : State} (h : SysInv s) (is : List Instr) (hno : s.Clear) :
    SysInv (s.push (is.map Task.issue)) :=
  h.push hno (fun m hm => by simp at hm)
    (fun m hm => by
      cases is with
      | nil => simp at hm
      | cons i is => simp at hm)
    (.inl (by simp [List.countP_eq_zero, Task.isAdvance])) (.inl (by simp [Task.isDrain]))

/-- A written index of a ring stays written while the ring only grows. -/
def Ring.Grows (q q' : Ring) : Prop :=
  q'.cap = q.cap ∧
    ∀ a, (Memory.read q.cells a).isSome = true → (Memory.read q'.cells a).isSome = true

theorem Ring.Grows.refl (q : Ring) : q.Grows q := ⟨rfl, fun _ h => h⟩

theorem Ring.grows_accept (q : Ring) (bytes : List Byte) (n : Nat) : q.Grows (q.accept bytes n) :=
  ⟨rfl, fun _ h => Ring.isSome_read_accept h bytes n⟩

theorem Ring.grows_enqueue (q : Ring) (b : Byte) : q.Grows (q.enqueue b) :=
  ⟨rfl, fun _ h => isSome_read_write h _ _⟩

theorem WorkInv.setEndpoint {s : State} (h : WorkInv s) (e' : Endpoint) : WorkInv (s.setEndpoint e') where
  roles := h.roles
  heads := h.heads
  once := h.once
  still := fun hx => h.still (.inr (hx.resolve_left fun hn => by cases hn))
  tearing := h.tearing
  pollsIn := h.pollsIn
  pollsOut := h.pollsOut
  oneDrain := h.oneDrain

theorem State.Engaged.setEndpoint {s : State} (h : s.Engaged) (e' : Endpoint) : (s.setEndpoint e').Engaged where
  still := fun hx => h.still (.inr (hx.resolve_left fun hn => by cases hn))
  tearing := h.tearing
  pollsIn := h.pollsIn
  pollsOut := h.pollsOut

/-- The endpoint is replaced by one that keeps its own invariant and what the steps in progress rely
on. -/
theorem SysInv.setEndpoint {s : State} (h : SysInv s) {e e' : Endpoint} (he : s.ep = some e) (hok : e'.Ok)
    (hcap : e'.input.cap = e.input.cap ∧ e'.output.cap = e.output.cap)
    (hr : ∀ a m, Task.micro m ∈ (s.thread a).todo → m.Ready e → m.Ready e')
    (hc : s.env.closing = false → ∀ d, e'.dec = some d → d.completing = true →
      ∃ a fin, Task.micro (.advance fin) ∈ (s.thread a).todo) : SysInv (s.setEndpoint e') where
  toWorkInv := h.toWorkInv.setEndpoint e'
  endpoint := fun x hx => by cases hx; exact hok
  ready := fun a m hm x hx => by cases hx; exact hr a m hm (h.ready a m hm e he)
  boundary := ⟨h.boundary.serves, fun d hd => ⟨by simp, (h.boundary.alive d hd).2⟩⟩
  fits := fun x hx => by
    cases hx
    have := h.fits e he
    rw [Endpoint.Fits, hcap.1, hcap.2]; exact this
  handing := fun hl x d hx hd hcd => by cases hx; exact hc hl d hd hcd

/-- An agent whose steps the acting agent takes alone has none that holds a snapshot, if that agent is
acting and clear. -/
theorem State.Clear.not_mem {s : State} (hno : s.Clear) {a b : Agent} {m : Micro} (hm : Task.micro m ∈ (s.thread a).todo)
    (hb : m.belongs s.driverAgent a) (ha : m.belongs s.driverAgent a → a = b) (hcur : s.cur = b)
    (hh : m.headOnly = true) : False := by
  have := ha hb
  subst this
  have := hno m (by rw [hcur]; exact hm)
  rw [hh] at this; cases this

/-- The input ring is replaced by one with the same write cursor and no more unread bytes, or its producer
replaces it. -/
theorem SysInv.setInput {s : State} (h : SysInv s) {e : Endpoint} (he : s.ep = some e) {q : Ring} (hq : q.Ok)
    (hg : e.input.Grows q)
    (hw : (q.w = e.input.w ∧ q.unread ≤ e.input.unread) ∨ (s.cur = .bgIn ∧ s.Clear)) :
    SysInv (s.setEndpoint { e with input := q }) := by
  refine h.setEndpoint he ⟨hq, (h.endpoint e he).output, (h.endpoint e he).dec⟩ ⟨hg.1, rfl⟩ ?_
    fun hl d hd hc => h.handing hl e d he hd hc
  intro a m hm hr
  have hb := h.roles a m hm
  cases m with
  | inWriteStore rs bytes count =>
    rcases hw with ⟨hw, hu⟩ | ⟨hcur, hno⟩
    · exact ⟨hr.1, by rw [Ring.Snapshot, hg.1, hw]; exact ⟨hr.2.1, hu.trans hr.2.2⟩⟩
    · exact (hno.not_mem hm hb id hcur rfl).elim
  | pollDraw w0 f =>
    rcases hw with ⟨hw, hu⟩ | ⟨hcur, hno⟩
    · exact ⟨hr.1.trans hw.symm, hr.2.trans (by simp only [Ring.free, hg.1]; omega)⟩
    · exact (hno.not_mem hm hb id hcur rfl).elim
  | pollSnap w0 f data =>
    rcases hw with ⟨hw, hu⟩ | ⟨hcur, hno⟩
    · exact ⟨hr.1.trans hw.symm, hr.2.1, hr.2.2.trans (by simp only [Ring.free, hg.1]; omega)⟩
    · exact (hno.not_mem hm hb id hcur rfl).elim
  | pollStore rs w0 f data =>
    rcases hw with ⟨hw, hu⟩ | ⟨hcur, hno⟩
    · refine ⟨hr.1.trans hw.symm, hr.2.1, ?_, ?_⟩
      · rw [hg.1, hw]; exact hr.2.2.1
      · rw [Ring.Snapshot, hg.1, hw]; exact ⟨hr.2.2.2.1, hu.trans hr.2.2.2.2⟩
    · exact (hno.not_mem hm hb id hcur rfl).elim
  | pollFeed w0 i =>
    simp only [Micro.Ready] at hr ⊢
    rw [hg.1]; exact hg.2 _ hr
  | _ => exact hr

/-- The output ring is replaced by one from which every burst can still be read, or no drain is in progress. -/
theorem SysInv.setOutput {s : State} (h : SysInv s) {e : Endpoint} (he : s.ep = some e) {q : Ring} (hq : q.Ok)
    (hcap : q.cap = e.output.cap)
    (hw : (q.r = e.output.r ∧ ∀ n, e.output.Drainable n → q.Drainable n) ∨ s.draining = false) :
    SysInv (s.setEndpoint { e with output := q }) := by
  refine h.setEndpoint he ⟨(h.endpoint e he).input, hq, (h.endpoint e he).dec⟩ ⟨rfl, hcap⟩ ?_
    fun hl d hd hc => h.handing hl e d he hd hc
  intro a m hm hr
  have hb := h.roles a m hm
  have hno : s.draining = false → (Task.micro m).isDrain = true → a = .bgOut ∨ (a = .bgIn ∧ a = s.driverAgent) →
      False := by
    intro hd hx ha
    simp only [State.draining, Bool.or_eq_false_iff, List.any_eq_false] at hd
    rcases ha with rfl | ⟨rfl, -⟩
    · exact hd.2 _ hm hx
    · exact hd.1 _ hm hx
  cases m with
  | drainRead r0 n i burst poll =>
    rcases hw with ⟨hw, hd⟩ | hw
    · exact ⟨hr.1.trans hw.symm, hr.2.1, hr.2.2.1, hd _ hr.2.2.2⟩
    · exact (hno hw rfl hb).elim
  | drainFinish r0 burst poll =>
    rcases hw with ⟨hw, hd⟩ | hw
    · exact ⟨hr.1.trans hw.symm, hd _ hr.2⟩
    · exact (hno hw rfl hb).elim
  | _ => exact hr

/-- The decoder is replaced: a completion in progress stays one, and a new one has its last step to come. -/
theorem SysInv.setDec {s : State} (h : SysInv s) {e : Endpoint} (he : s.ep = some e) {d : Dec} (hd : d.Ok)
    (hk : ∀ d₀, e.dec = some d₀ → d₀.completing = true → d.completing = true)
    (hc : s.env.closing = false → d.completing = true → ∃ a fin, Task.micro (.advance fin) ∈ (s.thread a).todo) :
    SysInv (s.setDec e d) :=
  h.setEndpoint he ⟨(h.endpoint e he).input, (h.endpoint e he).output, fun x hx => by cases hx; exact hd⟩ ⟨rfl, rfl⟩
    (fun _ m _ hr => by
      cases m with
      | advance fin =>
        obtain ⟨d₀, hd₀, hc₀⟩ := hr
        exact ⟨d, rfl, hk d₀ hd₀ hc₀⟩
      | _ => exact hr)
    fun hl x hx => by cases hx; exact hc hl

/-- While no message is being handed over, no agent has the end of a completion to do. -/
theorem SysInv.no_advance {s : State} (h : SysInv s) {e : Endpoint} {d : Dec} (he : s.ep = some e)
    (hd : e.dec = some d) (hc : d.completing = false) (a : Agent) :
    (s.thread a).todo.countP Task.isAdvance = 0 := by
  rw [List.countP_eq_zero]
  intro k hk ha
  match k, ha with
  | .micro (.advance fin), _ =>
    obtain ⟨d₀, hd₀, hc₀⟩ := h.ready a (.advance fin) hk e he
    rw [hd] at hd₀; cases hd₀
    rw [hc] at hc₀; cases hc₀

/-! ### The decoder's invariant -/

theorem Dec.Ok.setSlot {d : Dec} (h : d.Ok) {m : Message} (hm : m.dataByteCount = m.type.count) :
    ∀ x ∈ (d.setSlot m).store, x.dataByteCount = x.type.count := by
  intro x hx
  rcases List.mem_or_eq_of_mem_set hx with hx | rfl
  · exact h.counts x hx
  · exact hm

theorem Dec.Ok.slot_count {d : Dec} (h : d.Ok) : d.slot.dataByteCount = d.slot.type.count :=
  h.counts _ (slot_mem h.slot_in)

/-- Only the control state changes, and not to AccumulatingData. -/
theorem Dec.Ok.goto {d : Dec} (h : d.Ok) {st : DecState} (hst : st ≠ .accumulatingData) :
    ({ d with state := st } : Dec).Ok where
  slots := h.slots
  slot_in := h.slot_in
  elapsed_le := h.elapsed_le
  counts := h.counts
  building := fun hx => absurd hx hst

theorem Dec.Ok.advance {d : Dec} (h : d.Ok) : d.advance.Ok where
  slots := h.slots
  slot_in := modAdd_lt (by have := h.slots; omega)
  elapsed_le := h.elapsed_le
  counts := h.counts
  building := fun hx => by cases hx

theorem slot_acceptStatus {d : Dec} (h : d.writeSlot < d.store.length) (t : MsgType) (ch : Channel) :
    (d.acceptStatus t ch).slot = { d.slot with type := t, channel := ch, dataByteCount := t.count } :=
  slot_setSlot _ h

theorem Dec.Ok.acceptStatus {d : Dec} (h : d.Ok) {t : MsgType} (ht : t ≠ .none) (ch : Channel) :
    (d.acceptStatus t ch).Ok where
  slots := by simpa [Dec.acceptStatus] using h.slots
  slot_in := by simpa [Dec.acceptStatus] using h.slot_in
  elapsed_le := by simp [Dec.acceptStatus]
  counts := h.setSlot rfl
  building := fun _ => by
    rw [slot_acceptStatus h.slot_in]
    refine ⟨ht, ?_⟩
    show (0 : BitVec 2) ≤ t.count
    bv_omega

theorem acceptStatus_not_completing {d : Dec} (h : d.Ok) {t : MsgType} (ht : t ≠ .none) (ch : Channel) :
    (d.acceptStatus t ch).completing = false := by
  have hs := slot_acceptStatus h.slot_in t ch
  simp only [Dec.completing, hs]
  have : (d.acceptStatus t ch).elapsed = 0 := rfl
  rw [this]
  cases t <;> simp_all [MsgType.count]

theorem slot_storeData {d d' : Dec} (h : d.Ok) {b : Byte} (hs : d.storeData b = some d') :
    d'.slot.type = d.slot.type ∧ d'.slot.dataByteCount = d.slot.dataByteCount := by
  obtain ⟨-, ⟨-, rfl⟩ | ⟨-, rfl⟩⟩ := storeData_some hs
  · have := slot_setSlot (d := d) { d.slot with data0 := b } h.slot_in
    exact ⟨(congrArg Message.type this).trans rfl, (congrArg Message.dataByteCount this).trans rfl⟩
  · have := slot_setSlot (d := d) { d.slot with data1 := b } h.slot_in
    exact ⟨(congrArg Message.type this).trans rfl, (congrArg Message.dataByteCount this).trans rfl⟩

theorem Dec.Ok.storeData {d d' : Dec} (h : d.Ok) (hst : d.state = .accumulatingData) {b : Byte}
    (hs : d.storeData b = some d') : d'.Ok := by
  have hslot := slot_storeData h hs
  have hb := h.building hst
  have hcount := h.slot_count
  obtain ⟨hlt, ⟨h0, rfl⟩ | ⟨h1, rfl⟩⟩ := storeData_some hs
  · refine ⟨by simpa using h.slots, by simpa using h.slot_in, by simp, h.setSlot hcount, fun _ => ?_⟩
    rw [hslot.1, hslot.2]
    refine ⟨hb.1, ?_⟩
    show (1 : BitVec 2) ≤ _
    rw [h0] at hlt; bv_omega
  · refine ⟨by simpa using h.slots, by simpa using h.slot_in, by simp, h.setSlot hcount, fun _ => ?_⟩
    rw [hslot.1, hslot.2]
    refine ⟨hb.1, ?_⟩
    show (2 : BitVec 2) ≤ _
    rw [h1] at hlt; bv_omega

/-- While a data byte is owed the decoder is not completing. -/
theorem storeData_not_completing {d d' : Dec} (h : d.Ok) (hst : d.state = .accumulatingData) {b : Byte}
    (hs : d.storeData b = some d') (hne : d'.elapsed ≠ d'.slot.dataByteCount) : d'.completing = false := by
  have hok := h.storeData hst hs
  have hst' : d'.state = .accumulatingData := by
    obtain ⟨-, ⟨-, rfl⟩ | ⟨-, rfl⟩⟩ := storeData_some hs <;> exact hst
  have hle := (hok.building hst').2
  simp only [Dec.completing, hst']
  have : d'.elapsed < d'.slot.dataByteCount := by bv_omega
  simp [this]

/-! ### The shared operations -/

theorem storeData_state {d d' : Dec} {b : Byte} (hs : d.storeData b = some d') : d'.state = d.state := by
  obtain ⟨-, ⟨-, rfl⟩ | ⟨-, rfl⟩⟩ := storeData_some hs <;> rfl

/-- A byte is stored only while one is owed. -/
theorem storeData_owed {d d' : Dec} {b : Byte} (hs : d.storeData b = some d') : d.completing = false := by
  simp [Dec.completing, (storeData_some hs).1]

theorem storeData_completing {d d' : Dec} (hst : d.state = .accumulatingData) {b : Byte}
    (hs : d.storeData b = some d') (he : d'.elapsed = d'.slot.dataByteCount) : d'.completing = true := by
  have hirr : ¬ d'.elapsed < d'.slot.dataByteCount := by rw [he]; bv_omega
  simp [Dec.completing, (storeData_state hs).trans hst, hirr]

/-- A decoder that owes a byte, or whose state takes none, is not completing. -/
theorem not_completing_of_state {d : Dec} (h : d.state ≠ .accumulatingData) : d.completing = false := by
  simp [Dec.completing, h]

/-- The decoder's driver stores a message's last byte: the completion is still to come. -/
theorem SysInv.complete {s : State} (h : SysInv s) (hno : s.Clear) (hen : s.Engaged)
    (hcur : s.cur = s.driverAgent) {e : Endpoint} {d d' : Dec} (he : s.ep = some e) (hd : e.dec = some d)
    (hc : d.completing = false) (hok : d'.Ok)
    (hc' : d'.completing = true) (fin : Option Result) :
    SysInv ((s.setDec e d').push (completion d' fin)) := by
  have hz := h.no_advance he hd hc
  have hnew : ∀ m, Task.micro m ∈ completion d' fin → m = .callback ∨ m = .advance fin := by
    intro m hm
    rcases mem_completion hm with hm | hm <;> cases hm <;> simp
  have hhd : ∀ m, Task.micro m ∈ completion d' fin → m.headOnly = false := by
    intro m hm
    rcases hnew m hm with rfl | rfl <;> rfl
  have hcount : (completion d' fin).countP Task.isAdvance = 1 := by unfold completion; split <;> rfl
  have hdrain : (completion d' fin).any Task.isDrain = false := by unfold completion; split <;> rfl
  refine
    { toWorkInv := (h.toWorkInv.setEndpoint { e with dec := some d' }).push hno (fun m hm => ⟨?_, hen.setEndpoint _⟩)
        (fun m hm => hhd m (List.mem_of_mem_tail hm)) (.inr ⟨hcount.le, hz _⟩) (.inl hdrain)
      endpoint := ?_, ready := ?_, fits := ?_, handing := ?_
      boundary := ⟨h.boundary.serves, fun d hd => ⟨by simp, (h.boundary.alive d hd).2⟩⟩ }
  · rcases hnew m hm with rfl | rfl <;> exact hcur
  · intro x hx; cases hx
    exact ⟨(h.endpoint e he).input, (h.endpoint e he).output, fun y hy => by cases hy; exact hok⟩
  · intro a m hm x hx; cases hx
    rcases mem_push hm with ⟨rfl, hn⟩ | hm
    · rcases hnew m hn with rfl | rfl
      · trivial
      · exact ⟨d', rfl, hc'⟩
    · have hr := h.ready a m hm e he
      cases m with
      | advance f => exact absurd rfl ((List.countP_eq_zero.1 (hz a)) _ hm)
      | _ => exact hr
  · intro x hx; cases hx; exact h.fits e he
  · intro _ x y hx hy _
    refine ⟨s.cur, fin, ?_⟩
    have := thread_push_cur (s.setDec e d') (completion d' fin)
    simp only [setDec_cur, setDec_thread] at this
    rw [this]
    exact List.mem_append_left _ (advance_mem_completion _ _)

theorem SysInv.statusStep {s t : State} (h : SysInv s) {e : Endpoint} {d : Dec} (he : s.ep = some e)
    (hd : e.dec = some d) (hst : d.state = .waitingForStatus) {ty : MsgType} (hty : ty ≠ .none)
    {ch : Channel} {fin : Option Result} (ht : statusStep ty ch fin s e d = .next t) : SysInv t := by
  have hok := (h.endpoint e he).dec d hd
  unfold Machine.statusStep at ht
  simp only [count_eq_zero, if_neg hty] at ht
  cases ht
  refine (h.setDec he (hok.acceptStatus hty ch) (fun d₀ hd₀ hc => ?_)
    (fun _ => by rw [acceptStatus_not_completing hok hty]; intro hx; cases hx)).finish _
  rw [hd] at hd₀; cases hd₀
  rw [not_completing_of_state (by simp [hst])] at hc; cases hc

theorem SysInv.gotoStep {s t : State} (h : SysInv s) {e : Endpoint} {d : Dec} (he : s.ep = some e)
    (hd : e.dec = some d) (hst₀ : d.state ≠ .accumulatingData) {st : DecState}
    (hst : st ≠ .accumulatingData) {fin : Option Result} (ht : gotoStep st fin s e d = .next t) : SysInv t := by
  cases ht
  refine (h.setDec he (((h.endpoint e he).dec d hd).goto hst) (fun d₀ hd₀ hc => ?_) fun _ hc => ?_).finish _
  · rw [hd] at hd₀; cases hd₀
    rw [not_completing_of_state hst₀] at hc; cases hc
  · rw [not_completing_of_state (d := { d with state := st }) hst] at hc; cases hc

theorem SysInv.dataStep {s t : State} (h : SysInv s) (hno : s.Clear) (hen : s.Engaged)
    (hcur : s.cur = s.driverAgent) {e : Endpoint} {d : Dec}
    (he : s.ep = some e) (hd : e.dec = some d) (hst : d.state = .accumulatingData) {b : Byte}
    {fin : Option Result} (ht : dataStep b fin s e d = .next t) : SysInv t := by
  have hok := (h.endpoint e he).dec d hd
  obtain ⟨d', hs, ⟨heq, rfl⟩ | ⟨hne, rfl⟩⟩ := dataStep_next ht
  · exact h.complete hno hen hcur he hd (storeData_owed hs) (hok.storeData hst hs)
      (storeData_completing hst hs heq) fin
  · refine (h.setDec he (hok.storeData hst hs) (fun d₀ hd₀ hc => ?_)
      (fun _ => by rw [storeData_not_completing hok hst hs hne]; intro hx; cases hx)).finish _
    rw [hd] at hd₀; cases hd₀
    rw [storeData_owed hs] at hc; cases hc

theorem SysInv.byteStep {s t : State} (h : SysInv s) (hno : s.Clear) (hen : s.Engaged)
    (hcur : s.cur = s.driverAgent) {e : Endpoint} {d : Dec}
    (he : s.ep = some e) (hd : e.dec = some d) {b : Byte} {fin : Option Result}
    (ht : byteStep b fin s e d = .next t) : SysInv t := by
  rcases byteStep_next ht with ⟨hst, h1, h2, ht⟩ | ⟨hst, -, rfl⟩ | ⟨hst, -, rfl⟩ | ⟨-, rfl⟩ | ⟨hst, ht⟩
  · exact h.statusStep he hd hst (tableType_ne_none h1 h2) ht
  · exact h.gotoStep (st := .receivingSysex) he hd (by simp [hst]) (by simp) rfl
  · exact h.gotoStep (st := .waitingForStatus) he hd (by simp [hst]) (by simp) rfl
  · exact h.finish _
  · exact h.dataStep hno hen hcur he hd hst ht

theorem SysInv.feedByte {s t : State} (h : SysInv s) (hno : s.Clear) (hen : s.Engaged)
    (hcur : s.cur = s.driverAgent) {b : Byte}
    {fin : Option Result} (ht : feedByte b fin s = .next t) : SysInv t := by
  obtain ⟨e, he, ht⟩ := onEndpoint_next ht
  obtain ⟨d, hd, ht⟩ := onDecoder_next ht
  exact h.byteStep hno hen hcur he hd ht

theorem SysInv.enqueueStep {s t : State} (h : SysInv s) {e : Endpoint} (he : s.ep = some e) {b : Byte}
    {fin : Option Result} (ht : enqueueStep b fin s e = .next t) : SysInv t := by
  cases ht
  have hok := (h.endpoint e he).output
  exact (h.setOutput he (hok.enqueue b) rfl (.inl ⟨rfl, fun _ hn => hok.drainable_enqueue hn b⟩)).finish _

/-! ### Fresh parts and states with no step in progress -/

/-- A ring after reset (10_state.md R40). -/
theorem Ring.ok_reset {n : Nat} (h : 2 ≤ n) : (Ring.reset n).Ok where
  capacity := h
  write_in := by simp only [Ring.reset]; omega
  read_in := by simp only [Ring.reset]; omega
  canonical := rfl
  inside := fun a ha => by simp [Ring.reset] at ha
  written := fun i hi => by simp [Ring.reset, Ring.unread, modSub] at hi

/-- A decoder after reset (10_state.md R41 to R43). -/
theorem Dec.ok_reset {n : Nat} (h : 2 ≤ n) : (Dec.reset n).Ok where
  slots := by simpa [Dec.reset] using h
  slot_in := by simp only [Dec.reset, List.length_replicate]; omega
  elapsed_le := by simp [Dec.reset]
  counts := fun m hm => by rw [List.eq_of_mem_replicate hm]; rfl
  building := fun hx => by cases hx

/-- Where no operation is in progress but such as an `EP.CLOSE` left to be refused, the invariant is that of the
endpoint and the boundary, with no completion half done on an endpoint that is not closing. -/
theorem SysInv.of_lost {s : State} (hno : ∀ a m, Task.micro m ∈ (s.thread a).todo → a ≠ .owner ∧ m = .lost)
    (he : ∀ e, s.ep = some e → e.Ok)
    (hd : s.env.closing = false → ∀ e d, s.ep = some e → e.dec = some d → d.completing = false)
    (hb : s.BoundaryOk) (hf : ∀ e, s.ep = some e → e.Fits s.env.cursorBits) : SysInv s where
  roles := fun a m hm => by rw [(hno a m hm).2]; exact (hno a m hm).1
  heads := fun a m hm => by rw [(hno a m (List.mem_of_mem_tail hm)).2]; rfl
  once := fun a => by
    rw [List.countP_eq_zero.2]
    · omega
    · intro k hk
      cases k with
      | issue i => simp [Task.isAdvance]
      | micro m => rw [(hno a m hk).2]; simp [Task.isAdvance]
  still := fun _ a m _ hm => (hno a m hm).2
  tearing := fun m hm => absurd rfl (hno _ m hm).1
  pollsIn := fun m hm hl => absurd (hno _ m hm).2 hl
  pollsOut := fun m hm hl => absurd (hno _ m hm).2 hl
  oneDrain := .inl (by
    rw [List.any_eq_false]
    intro k hk
    cases k with
    | issue i => simp [Task.isDrain]
    | micro m => rw [(hno _ m hk).2]; simp [Task.isDrain])
  endpoint := he
  ready := fun a m hm e _ => by rw [(hno a m hm).2]; trivial
  boundary := hb
  fits := hf
  handing := fun hl e d h1 h2 hc => by rw [hd hl e d h1 h2] at hc; cases hc

/-- The same where no operation is in progress at all. -/
theorem SysInv.of_issues {s : State} (hno : ∀ a m, Task.micro m ∉ (s.thread a).todo)
    (he : ∀ e, s.ep = some e → e.Ok) (hd : ∀ e d, s.ep = some e → e.dec = some d → d.completing = false)
    (hb : s.BoundaryOk) (hf : ∀ e, s.ep = some e → e.Fits s.env.cursorBits) : SysInv s :=
  .of_lost (fun a m hm => absurd hm (hno a m)) he (fun _ => hd) hb hf

end Sys2Proof.Machine
end

