-- ==== Sys2Proof/Laws/Effect.lean ====
section
/-! SUPPORT. What one turn of an agent can do to the endpoint and to what the transport has taken, said once
for all tasks; claims over every step are read off from it. -/

namespace Sys2Proof.Machine

/-- What a byte can do to the decoder before the completion's last step: only the slot at `writeSlot`, the
control state and `elapsed` change (40_decoder.md R145). -/
structure Dec.Changed (d d' : Dec) : Prop where
  length : d'.store.length = d.store.length
  others : ∀ k, k ≠ d.writeSlot → d'.store[k]? = d.store[k]?
  writeSlot : d'.writeSlot = d.writeSlot
  cb : d'.cb = d.cb
  cbArg : d'.cbArg = d.cbArg

/-- What the task `k` can do in the state `s`, whose acting agent runs it. -/
inductive Effect (k : Task) (s t : State) : Prop where
  | quiet (ep : t.ep = s.ep) (sent : t.env.sent = s.env.sent)
  | created (gone : s.ep = none) (sent : t.env.sent = s.env.sent)
  | destroyed (gone : t.ep = none) (sent : t.env.sent = s.env.sent)
  | accepted (e : Endpoint) (rs count : Nat) (bytes : List Byte) (ep : s.ep = some e)
      (ep' : t.ep = some { e with input := e.input.accept bytes (e.input.accepts rs count) })
      (sent : t.env.sent = s.env.sent)
      (task : k = .micro (.inWriteStore rs bytes count) ∨
        ∃ w0 f, k = .micro (.pollStore rs w0 f bytes) ∧ count = bytes.length)
  | consumed (e : Endpoint) (v : Byte) (ep : s.ep = some e) (some_unread : e.input.isEmpty = false)
      (head : Memory.read e.input.cells e.input.r = some v)
      (ep' : t.ep = some { e with input := e.input.consume 1 }) (sent : t.env.sent = s.env.sent)
      (who : s.cur = .rt) (ret : (t.thread s.cur).ret = some (.byte (some v))) (task : k = .issue .inRead)
  | enqueued (e : Endpoint) (b : Byte) (ep : s.ep = some e)
      (ep' : t.ep = some { e with output := e.output.enqueue b }) (sent : t.env.sent = s.env.sent)
      (who : s.cur = .rt ∨ ∃ fin, k = .micro (.outEnq b fin))
  | drained (e : Endpoint) (r0 n : Nat) (burst : List Byte) (poll : Bool) (ep : s.ep = some e)
      (task : k = .micro (.drainFinish r0 burst poll)) (le : n ≤ burst.length)
      (ep' : t.ep = some { e with output := e.output.resume r0 n })
      (sent : t.env.sent = s.env.sent ++ burst.take n)
  | decoded (e : Endpoint) (d d' : Dec) (ep : s.ep = some e) (dec : e.dec = some d)
      (ep' : t.ep = some { e with dec := some d' }) (sent : t.env.sent = s.env.sent) (change : d.Changed d')
      (who : s.cur = s.driverAgent ∨ ∃ m, k = .micro m ∧ ∀ drv a, m.belongs drv a → a = drv)
  | advanced (e : Endpoint) (d : Dec) (fin : Option Result) (ep : s.ep = some e) (dec : e.dec = some d)
      (task : k = .micro (.advance fin)) (ep' : t.ep = some { e with dec := some d.advance })
      (sent : t.env.sent = s.env.sent)
  | registered (e : Endpoint) (d : Dec) (f : Option Handler) (a : ContextValue) (ep : s.ep = some e)
      (dec : e.dec = some d) (task : k = .issue (.decSetcb f a))
      (ep' : t.ep = some { e with dec := some { d with cb := f, cbArg := a } })
      (sent : t.env.sent = s.env.sent)

/-! ### The environment's trace under the draws -/

@[simp] theorem drawRead_sent (s : State) (f : Nat) : (s.drawRead f).2.env.sent = s.env.sent := by
  unfold State.drawRead; split <;> rfl
@[simp] theorem drawWrite_sent (s : State) : s.drawWrite.2.env.sent = s.env.sent := by
  unfold State.drawWrite; split <;> rfl
@[simp] theorem drawScript_sent (s : State) : s.drawScript.2.env.sent = s.env.sent := by
  unfold State.drawScript; split <;> rfl
@[simp] theorem endPeek_sent (s : State) (x y : Message) : (s.endPeek x y).2.env.sent = s.env.sent := by
  unfold State.endPeek State.drawTear; split
  · rfl
  · simp only; split <;> rfl

/-! ### The decoder -/

namespace Dec.Changed
variable {d : Dec}

theorem acceptStatus (d : Dec) (T : MsgType) (ch : Channel) : d.Changed (d.acceptStatus T ch) :=
  ⟨by simp [Dec.acceptStatus], fun k hk => by simp [Dec.acceptStatus, Dec.setSlot, List.getElem?_set_ne (Ne.symm hk)],
    rfl, rfl, rfl⟩

theorem goto (d : Dec) (st : DecState) : d.Changed { d with state := st } := ⟨rfl, fun _ _ => rfl, rfl, rfl, rfl⟩

theorem storeData {d' : Dec} {b : Byte} (h : d.storeData b = some d') : d.Changed d' := by
  rcases (storeData_some h).2 with ⟨-, rfl⟩ | ⟨-, rfl⟩ <;>
    exact ⟨by simp, fun k hk => by simp [Dec.setSlot, List.getElem?_set_ne (Ne.symm hk)], rfl, rfl, rfl⟩

end Dec.Changed

/-- The endpoint is left as it is, or its decoder is changed; nothing is sent. -/
def Fed (s t : State) (e : Endpoint) (d : Dec) : Prop :=
  t.env.sent = s.env.sent ∧ (t.ep = s.ep ∨ ∃ d', d.Changed d' ∧ t.ep = some { e with dec := some d' })

theorem fed_status {T : MsgType} {ch : Channel} {fin : Option Result} {s t : State} {e : Endpoint} {d : Dec}
    (h : statusStep T ch fin s e d = .next t) : Fed s t e d := by
  unfold statusStep at h
  split at h <;> cases h
  · exact ⟨rfl, .inr ⟨_, .acceptStatus d T ch, rfl⟩⟩
  · exact ⟨by simp, .inr ⟨_, .acceptStatus d T ch, by simp⟩⟩

theorem fed_goto {st : DecState} {fin : Option Result} {s t : State} {e : Endpoint} {d : Dec}
    (h : gotoStep st fin s e d = .next t) : Fed s t e d := by
  cases h; exact ⟨by simp, .inr ⟨_, .goto d st, by simp⟩⟩

theorem fed_discard {fin : Option Result} {s t : State} {e : Endpoint} {d : Dec}
    (h : discardStep fin s = .next t) : Fed s t e d := by
  cases h; exact ⟨by simp, .inl (by simp)⟩

theorem fed_data {b : Byte} {fin : Option Result} {s t : State} {e : Endpoint} {d : Dec}
    (h : dataStep b fin s e d = .next t) : Fed s t e d := by
  obtain ⟨d', hs, ⟨-, rfl⟩ | ⟨-, rfl⟩⟩ := dataStep_next h
  · exact ⟨rfl, .inr ⟨_, .storeData hs, rfl⟩⟩
  · exact ⟨by simp, .inr ⟨_, .storeData hs, by simp⟩⟩

theorem fed_byte {b : Byte} {fin : Option Result} {s t : State} {e : Endpoint} {d : Dec}
    (h : byteStep b fin s e d = .next t) : Fed s t e d := by
  unfold byteStep at h
  split at h
  · split at h
    · exact fed_status h
    · split at h
      · exact fed_goto h
      · exact fed_discard h
  · split at h
    · exact fed_goto h
    · exact fed_discard h
  · exact fed_data h

/-- A byte fed to the decoder of the endpoint there is. -/
theorem feedByte_effect {k : Task} {b : Byte} {fin : Option Result} {s s1 t : State}
    (h : feedByte b fin s1 = .next t) (hep : s1.ep = s.ep) (hse : s1.env = s.env)
    (who : s.cur = s.driverAgent ∨ ∃ m, k = .micro m ∧ ∀ drv a, m.belongs drv a → a = drv) : Effect k s t := by
  obtain ⟨e, he, h⟩ := onEndpoint_next h
  obtain ⟨d, hd, h⟩ := onDecoder_next h
  obtain ⟨hs, hx | ⟨d', hc, hx⟩⟩ := fed_byte h
  · exact .quiet (hx.trans hep) (by rw [hs, hse])
  · exact .decoded e d d' (hep ▸ he) hd hx (by rw [hs, hse]) hc who

/-- The wire rows. -/
theorem onWire_effect {k : Task} {st : DecState} {s t : State} {f : Endpoint → Dec → Outcome}
    (h : onWire st s f = .next t) (hf : ∀ e d, f e d = .next t → Fed s.begin t e d) : Effect k s t := by
  obtain ⟨e, d, ha, hd, -, h⟩ := onWire_next h
  have hr := ha.role
  have he := ha.present
  obtain ⟨hs, hx | ⟨d', hc, hx⟩⟩ := hf e d h
  · exact .quiet hx hs
  · exact .decoded e d d' he hd hx hs hc (.inl (by simpa [State.holds] using hr))

/-! ### Rings -/

theorem answer_effect {k : Task} {s t : State} {r : Result} (h : s.answer r = .next t) : Effect k s t := by
  cases h; exact .quiet (by simp) (by simp)

theorem enqueueStep_effect {k : Task} {b : Byte} {fin : Option Result} {s s1 t : State} {e : Endpoint}
    (h : enqueueStep b fin s1 e = .next t) (hep : s.ep = some e) (hse : s1.env = s.env)
    (who : s.cur = .rt ∨ ∃ f, k = .micro (.outEnq b f)) : Effect k s t := by
  cases h
  exact .enqueued e b hep (by simp) (by simp [hse]) who

theorem enqueueAll_effect {k : Task} {bytes : List Byte} {s t : State} {e : Endpoint}
    (h : enqueueAll bytes s e = .next t) (he : s.ep = some e) (hc : s.cur = .rt) : Effect k s t := by
  cases bytes with
  | nil => exact answer_effect h
  | cons b rest => exact enqueueStep_effect h he rfl (.inl hc)

theorem encodeAll_effect {k : Task} {kind : Byte} {a b c : Nat} {s t : State}
    (h : encodeAll kind a b c s = .next t) : Effect k s t := by
  obtain ⟨e, ha, h⟩ := guarded_next h
  have hr := ha.role
  have he := ha.present
  split at h
  · cases h
  · exact enqueueAll_effect h he (by simpa [State.holds] using hr)

theorem drainStart_effect {k : Task} {poll : Bool} {s s1 t : State} {e : Endpoint}
    (h : drainStart poll s1 e = .next t) (hep : s1.ep = s.ep) (hse : s1.env.sent = s.env.sent) : Effect k s t := by
  unfold drainStart at h
  simp only at h
  split at h
  · cases h; exact .quiet (by simp [hep]) (by simp [hse])
  · cases h; exact .quiet hep hse

/-! ### Every instruction and every later step -/

theorem exec_effect {i : Instr} {s t : State} (h : exec i s = .next t) : Effect (.issue i) s t := by
  cases i with
  | noteoff | noteon | polykey | cc | program | chanpress | pitchbend =>
    exact onWire_effect h fun _ _ h => fed_status h
  | sox | eox => exact onWire_effect h fun _ _ h => fed_goto h
  | discardData | discardSyscommon | discardEox | discardRealtime | discardSysex =>
    exact onWire_effect h fun _ _ h => fed_discard h
  | data b => exact onWire_effect h fun _ _ h => fed_data h
  | decByte b =>
    obtain ⟨e, ha, h⟩ := guarded_next h
    have hr := ha.role
    have he := ha.present
    exact feedByte_effect h (by simp) (by simp) (.inl (by simpa [State.holds] using hr))
  | decParse bytes n =>
    obtain ⟨e, ha, h⟩ := guarded_next h
    have hr := ha.role
    have he := ha.present
    obtain ⟨d, hd, h⟩ := onDecoder_next h
    split at h
    · cases h
    cases bytes with
    | nil => exact answer_effect h
    | cons b rest => exact feedByte_effect h (by simp) (by simp) (.inl (by simpa [State.holds] using hr))
  | inWrite bytes n =>
    obtain ⟨e, ha, h⟩ := guarded_next h
    have hr := ha.role
    have he := ha.present
    cases h; exact .quiet rfl rfl
  | inRead =>
    obtain ⟨e, ha, h⟩ := guarded_next h
    have hr := ha.role
    have he := ha.present
    split at h
    · exact answer_effect h
    · rename_i hne
      split at h
      · cases h
      · rename_i v hv
        cases h
        refine .consumed e v he (by simpa using hne) hv (by simp) (by simp) (by simpa [State.holds] using hr) ?_ rfl
        exact congrArg Thread.ret (thread_finish_cur (s.setEndpoint _) _)
  | outEnq b =>
    obtain ⟨e, ha, h⟩ := guarded_next h
    have hr := ha.role
    have he := ha.present
    exact enqueueStep_effect h he rfl (.inl (by simpa [State.holds] using hr))
  | outEnqn bytes n =>
    obtain ⟨e, ha, h⟩ := guarded_next h
    have hr := ha.role
    have he := ha.present
    exact enqueueAll_effect h he (by simpa [State.holds] using hr)
  | outDrain =>
    obtain ⟨e, ha, h⟩ := guarded_next h
    have hr := ha.role
    have he := ha.present
    exact drainStart_effect (onTransport_next h) rfl rfl
  | mqPeek c =>
    obtain ⟨e, ha, h⟩ := guarded_next h
    have hr := ha.role
    have he := ha.present
    obtain ⟨d, hd, h⟩ := onDecoder_next h
    cases (onSlot_next h).2; exact .quiet rfl rfl
  | mqAvail c =>
    obtain ⟨e, ha, h⟩ := guarded_next h
    have hr := ha.role
    have he := ha.present
    obtain ⟨d, hd, h⟩ := onDecoder_next h
    exact answer_effect (onSlot_next h).2
  | mqNext c =>
    obtain ⟨e, ha, h⟩ := guarded_next h
    have hr := ha.role
    have he := ha.present
    obtain ⟨d, hd, h⟩ := onDecoder_next h
    have h := (onSlot_next h).2
    split at h
    · exact answer_effect h
    · cases h; exact .quiet rfl rfl
  | encNoteoff | encNoteon | encPolykey | encCc | encProgram | encChanpress | encPitchbend =>
    simp only [exec] at h; exact encodeAll_effect h
  | decSetcb f a =>
    obtain ⟨e, ha, h⟩ := guarded_next h
    have hr := ha.role
    have he := ha.present
    obtain ⟨d, hd, h⟩ := onDecoder_next h
    split at h
    · cases h
    · cases h; exact .registered e d f a he hd rfl (by simp) (by simp)
  | inPoll =>
    obtain ⟨e, ha, h⟩ := guarded_next h
    have hr := ha.role
    have he := ha.present
    cases onTransport_next h; exact .quiet rfl rfl
  | outPoll =>
    obtain ⟨e, ha, h⟩ := guarded_next h
    have hr := ha.role
    have he := ha.present
    exact drainStart_effect (onTransport_next h) rfl rfl
  | epReset a b c d =>
    simp only [exec, execEpReset] at h
    split at h
    · split at h
      · cases h
      · rename_i hn
        repeat' split at h
        all_goals cases h
        exact .created (by simpa using hn) (by simp)
    · cases h
  | epClose =>
    obtain ⟨e, ha, h⟩ := guarded_next h
    cases h; exact .quiet rfl rfl

theorem runMicro_effect {m : Micro} {s t : State} (h : runMicro m s = .next t) : Effect (.micro m) s t := by
  cases m with
  | inWriteStore rs bytes n =>
    obtain ⟨e, he, h⟩ := onEndpoint_next h
    cases h; exact .accepted e rs n bytes he (by simp) (by simp) (.inl rfl)
  | outEnq b fin =>
    obtain ⟨e, he, h⟩ := onEndpoint_next h
    exact enqueueStep_effect h he rfl (.inr ⟨fin, rfl⟩)
  | drainRead r0 n i burst poll =>
    obtain ⟨e, he, h⟩ := onEndpoint_next h
    simp only at h
    split at h
    · cases h
    · split at h <;> cases h <;> exact .quiet rfl rfl
  | drainFinish r0 burst poll =>
    obtain ⟨e, he, h⟩ := onEndpoint_next h
    have hk : acceptedCount burst.length s.drawWrite.1 ≤ burst.length := by
      unfold acceptedCount; split
      · exact Nat.min_le_right _ _
      · exact Nat.zero_le _
    cases h
    refine .drained e r0 _ burst poll he rfl hk (by simp) ?_
    simp only [finish_env, setEndpoint_env]
    split <;> simp [State.logLine, State.transmit]
  | decByte b fin => exact feedByte_effect h rfl rfl (.inr ⟨_, rfl, fun _ _ hb => hb⟩)
  | callback =>
    obtain ⟨e, he, h⟩ := onEndpoint_next h
    obtain ⟨d, hd, h⟩ := onDecoder_next h
    split at h
    · cases h; exact .quiet rfl rfl
    · cases h; exact .quiet (by simp) (by simp [State.recordCall])
  | advance fin =>
    obtain ⟨e, he, h⟩ := onEndpoint_next h
    obtain ⟨d, hd, h⟩ := onDecoder_next h
    cases h; exact .advanced e d fin he hd rfl (by simp) (by simp)
  | peekFinish i old =>
    obtain ⟨e, he, h⟩ := onEndpoint_next h
    obtain ⟨d, hd, h⟩ := onDecoder_next h
    cases h; exact .quiet (by simp) (by simp)
  | nextPeek c =>
    obtain ⟨e, he, h⟩ := onEndpoint_next h
    obtain ⟨d, hd, h⟩ := onDecoder_next h
    cases h; exact .quiet rfl rfl
  | nextFinish c old =>
    obtain ⟨e, he, h⟩ := onEndpoint_next h
    obtain ⟨d, hd, h⟩ := onDecoder_next h
    cases h; exact .quiet (by simp) (by simp)
  | pollDraw w0 f =>
    simp only [runMicro, pollDrawStep] at h
    split at h <;> cases h <;> exact .quiet (by simp) (by simp [State.logLine])
  | pollSnap w0 f data =>
    obtain ⟨e, he, h⟩ := onEndpoint_next h
    cases h; exact .quiet rfl rfl
  | pollStore rs w0 f data =>
    obtain ⟨e, he, h⟩ := onEndpoint_next h
    cases h; exact .accepted e rs data.length data he rfl rfl (.inr ⟨w0, f, rfl, rfl⟩)
  | pollFeed w0 i =>
    obtain ⟨e, he, h⟩ := onEndpoint_next h
    simp only at h
    split at h
    · cases h
    · exact feedByte_effect h rfl rfl (.inr ⟨_, rfl, fun _ _ hb => hb.2⟩)
  | pollNext k f =>
    obtain ⟨e, he, h⟩ := onEndpoint_next h
    split at h
    · cases h; exact .quiet rfl rfl
    · exact answer_effect h
  | closeTransport =>
    cases h; exact .quiet rfl rfl
  | closeDestroy =>
    cases h; exact .destroyed rfl rfl
  | lost => cases h

/-- What a turn's task can do. -/
theorem runTask_effect {k : Task} {s t : State} (h : runTask k s = .next t) : Effect k s t := by
  cases k with
  | issue i =>
    simp only [runTask] at h
    split at h
    · exact exec_effect h
    · cases h
  | micro m => exact runMicro_effect h

/-! ### What no task changes: the acting agent, the other agents and the parameters -/

/-- The acting agent, the decoder's driver, the width of the cursors and the background task's end are the
same, and the other agents take no step. -/
def State.Kept (s t : State) : Prop :=
  t.cur = s.cur ∧ t.env.driver = s.env.driver ∧ t.env.cursorBits = s.env.cursorBits ∧
    t.env.shutdown = s.env.shutdown ∧ ∀ b, b ≠ s.cur → s.Waits t b

theorem State.Waits.refl (s : State) (b : Agent) : s.Waits s b := .inl rfl

theorem State.Waits.trans {s t u : State} {b : Agent} (h : s.Waits t b) (h' : t.Waits u b) : s.Waits u b :=
  h'.elim (fun hx => h.imp hx.trans hx.trans) .inr

theorem State.Kept.refl (s : State) : s.Kept s := ⟨rfl, rfl, rfl, rfl, fun b _ => .refl s b⟩

theorem State.Kept.trans {s t u : State} (h : s.Kept t) (h' : t.Kept u) : s.Kept u :=
  ⟨h'.1.trans h.1, h'.2.1.trans h.2.1, h'.2.2.1.trans h.2.2.1, h'.2.2.2.1.trans h.2.2.2.1,
    fun b hb => (h.2.2.2.2 b hb).trans (h'.2.2.2.2 b (h.1 ▸ hb))⟩

/-- An update of the endpoint, of the rest of the environment and of the acting agent's thread. -/
theorem State.Kept.of {s t : State} (hc : t.cur = s.cur) (hd : t.env.driver = s.env.driver)
    (hb : t.env.cursorBits = s.env.cursorBits) (hs : t.env.shutdown = s.env.shutdown)
    (hw : ∀ b, b ≠ s.cur → t.thread b = s.thread b) : s.Kept t :=
  ⟨hc, hd, hb, hs, fun b h => .inl (congrArg Thread.todo (hw b h))⟩

namespace State.Kept
variable {s t : State}

theorem finish (h : s.Kept t) (fin : Option Result) : s.Kept (t.finish fin) :=
  h.trans (.of (by simp) (by simp) (by simp) (by simp) fun _ hb => thread_finish_ne t fin hb)

theorem answer {u : State} {r : Result} (h : s.Kept t) (ht : t.answer r = .next u) : s.Kept u := by
  cases ht; exact h.finish _

theorem push (h : s.Kept t) (ts : List Task) : s.Kept (t.push ts) :=
  h.trans (.of rfl rfl rfl rfl fun _ hb => thread_push_ne t ts hb)

theorem begin (h : s.Kept t) : s.Kept t.begin := h.trans (.of rfl rfl rfl rfl fun _ hb => thread_begin_ne t hb)

theorem setEndpoint (h : s.Kept t) (e : Endpoint) : s.Kept (t.setEndpoint e) :=
  h.trans (.of rfl rfl rfl rfl fun _ _ => rfl)

theorem setDec (h : s.Kept t) (e : Endpoint) (d : Dec) : s.Kept (t.setDec e d) := h.setEndpoint _

theorem setEnv (h : s.Kept t) {v : Env} (hd : v.driver = t.env.driver) (hb : v.cursorBits = t.env.cursorBits)
    (hs : v.shutdown = t.env.shutdown) : s.Kept (t.setEnv v) := h.trans (.of rfl hd hb hs fun _ _ => rfl)

theorem polling (h : s.Kept t) : s.Kept t.polling := h.setEnv rfl rfl rfl

theorem logLine (h : s.Kept t) (x : Diagnostic) : s.Kept (t.logLine x) := h.setEnv rfl rfl rfl

theorem transmit (h : s.Kept t) (bs : List Byte) : s.Kept (t.transmit bs) := h.setEnv rfl rfl rfl

theorem recordCall (h : s.Kept t) (c : Call) : s.Kept (t.recordCall c) := h.setEnv rfl rfl rfl

theorem drawRead (h : s.Kept t) (f : Nat) : s.Kept (t.drawRead f).2 :=
  h.trans (.of (by simp) (by simp) (by simp) (by simp) fun _ _ => by simp)

theorem drawWrite (h : s.Kept t) : s.Kept t.drawWrite.2 :=
  h.trans (.of (by simp) (by simp) (by simp) (by simp) fun _ _ => by simp)

theorem drawScript (h : s.Kept t) : s.Kept t.drawScript.2 :=
  h.trans (.of (by simp) (by simp) (by simp) (by simp) fun _ _ => by simp)

theorem endPeek (h : s.Kept t) (x y : Message) : s.Kept (t.endPeek x y).2 :=
  h.trans (.of (by simp) (by simp) (by simp) (by simp) fun _ _ => by simp)

/-- `EP.CLOSE` begins. -/
theorem loseOthers (h : s.cur = .owner) : s.Kept s.loseOthers := by
  refine ⟨rfl, rfl, rfl, rfl, fun b hb => ?_⟩
  rw [h] at hb
  unfold State.Waits
  rw [thread_loseOthers_ne s hb, Thread.lose]
  split
  · exact .inr rfl
  · exact .inl rfl

/-! One shared operation after another. -/

theorem statusStep {T : MsgType} {ch : Channel} {fin : Option Result} {u : State} {e : Endpoint} {d : Dec}
    (h : s.Kept t) (ht : statusStep T ch fin t e d = .next u) : s.Kept u := by
  unfold Machine.statusStep at ht; simp only at ht
  split at ht <;> cases ht
  · exact (h.setDec _ _).push _
  · exact (h.setDec _ _).finish _

theorem dataStep {b : Byte} {fin : Option Result} {u : State} {e : Endpoint} {d : Dec}
    (h : s.Kept t) (ht : dataStep b fin t e d = .next u) : s.Kept u := by
  obtain ⟨d', -, ⟨-, rfl⟩ | ⟨-, rfl⟩⟩ := dataStep_next ht
  · exact (h.setDec _ _).push _
  · exact (h.setDec _ _).finish _

theorem byteStep {b : Byte} {fin : Option Result} {u : State} {e : Endpoint} {d : Dec}
    (h : s.Kept t) (ht : byteStep b fin t e d = .next u) : s.Kept u := by
  rcases byteStep_next ht with ⟨-, -, -, ht⟩ | ⟨-, -, rfl⟩ | ⟨-, -, rfl⟩ | ⟨-, rfl⟩ | ⟨-, ht⟩
  · exact h.statusStep ht
  · exact (h.setDec _ _).finish _
  · exact (h.setDec _ _).finish _
  · exact h.finish _
  · exact h.dataStep ht

theorem feedByte {b : Byte} {fin : Option Result} {u : State} (h : s.Kept t)
    (ht : feedByte b fin t = .next u) : s.Kept u := by
  obtain ⟨e, -, ht⟩ := onEndpoint_next ht
  obtain ⟨d, -, ht⟩ := onDecoder_next ht
  exact h.byteStep ht

theorem enqueueStep {b : Byte} {fin : Option Result} {u : State} {e : Endpoint} (h : s.Kept t)
    (ht : enqueueStep b fin t e = .next u) : s.Kept u := by
  cases ht; exact (h.setEndpoint _).finish _

theorem enqueueAll {bytes : List Byte} {u : State} {e : Endpoint} (h : s.Kept t)
    (ht : enqueueAll bytes t e = .next u) : s.Kept u := by
  cases bytes with
  | nil => exact h.answer ht
  | cons b rest => exact (h.begin.push _).enqueueStep ht

theorem encodeAll {kind : Byte} {a b c : Nat} {u : State} (h : s.Kept t)
    (ht : encodeAll kind a b c t = .next u) : s.Kept u := by
  obtain ⟨e, -, ht⟩ := guarded_next ht
  split at ht
  · cases ht
  · exact h.enqueueAll ht

theorem drainStart {poll : Bool} {u : State} {e : Endpoint} (h : s.Kept t)
    (ht : drainStart poll t e = .next u) : s.Kept u := by
  unfold Machine.drainStart at ht; simp only at ht
  split at ht
  · exact h.answer ht
  · cases ht; exact h.begin.push _

end State.Kept

theorem kept_onWire {st : DecState} {s t : State} {k : Endpoint → Dec → Outcome} (h : onWire st s k = .next t)
    (hk : ∀ e d, s.Kept s.begin → k e d = .next t → s.Kept t) : s.Kept t := by
  obtain ⟨e, d, -, -, -, h⟩ := onWire_next h
  exact hk e d (State.Kept.refl s).begin h

theorem kept_exec {i : Instr} {s t : State} (h : exec i s = .next t) : s.Kept t := by
  have k := State.Kept.refl s
  cases i with
  | noteoff | noteon | polykey | cc | program | chanpress | pitchbend =>
    exact kept_onWire h fun _ _ k h => k.statusStep h
  | sox | eox => exact kept_onWire h fun _ _ k h => by cases h; exact (k.setDec _ _).finish _
  | discardData | discardSyscommon | discardEox | discardRealtime | discardSysex =>
    exact kept_onWire h fun _ _ k h => by cases h; exact k.finish _
  | data b => exact kept_onWire h fun _ _ k h => k.dataStep h
  | decByte b => obtain ⟨e, -, h⟩ := guarded_next h; exact k.begin.feedByte h
  | decParse bytes n =>
    obtain ⟨e, -, h⟩ := guarded_next h
    obtain ⟨d, -, h⟩ := onDecoder_next h
    split at h
    · cases h
    cases bytes with
    | nil => exact k.answer h
    | cons b rest => exact (k.begin.push _).feedByte h
  | inWrite => obtain ⟨e, -, h⟩ := guarded_next h; cases h; exact k.begin.push _
  | inRead =>
    obtain ⟨e, -, h⟩ := guarded_next h
    repeat' split at h
    · exact k.answer h
    · cases h
    · exact (k.setEndpoint _).answer h
  | outEnq => obtain ⟨e, -, h⟩ := guarded_next h; exact k.enqueueStep h
  | outEnqn => obtain ⟨e, -, h⟩ := guarded_next h; exact k.enqueueAll h
  | outDrain => obtain ⟨e, -, h⟩ := guarded_next h; exact k.drainStart (onTransport_next h)
  | mqPeek =>
    obtain ⟨e, -, h⟩ := guarded_next h; obtain ⟨d, -, h⟩ := onDecoder_next h
    cases (onSlot_next h).2; exact k.begin.push _
  | mqAvail =>
    obtain ⟨e, -, h⟩ := guarded_next h; obtain ⟨d, -, h⟩ := onDecoder_next h
    exact k.answer (onSlot_next h).2
  | mqNext =>
    obtain ⟨e, -, h⟩ := guarded_next h; obtain ⟨d, -, h⟩ := onDecoder_next h
    have h := (onSlot_next h).2
    split at h
    · exact k.answer h
    · cases h; exact k.begin.push _
  | encNoteoff | encNoteon | encPolykey | encCc | encProgram | encChanpress | encPitchbend =>
    simp only [exec] at h; exact k.encodeAll h
  | decSetcb =>
    obtain ⟨e, -, h⟩ := guarded_next h; obtain ⟨d, -, h⟩ := onDecoder_next h
    split at h
    · cases h
    · exact (k.setDec _ _).answer h
  | inPoll =>
    obtain ⟨e, -, h⟩ := guarded_next h
    cases onTransport_next h; exact k.polling.begin.push _
  | outPoll => obtain ⟨e, -, h⟩ := guarded_next h; exact k.polling.drainStart (onTransport_next h)
  | epReset =>
    simp only [exec, execEpReset] at h
    repeat' split at h
    all_goals first | cases h; done | exact ((k.setEndpoint _).setEnv (v := { s.env with
        polledIn := false, polledOut := false, begun := false, closing := false }) rfl rfl rfl).answer h
  | epClose =>
    obtain ⟨e, ha, h⟩ := guarded_next h
    cases h
    exact ((State.Kept.loseOthers (by simpa [State.holds] using ha.role)).setEnv (v := { s.env with
      polledIn := false, polledOut := false, closing := true }) rfl rfl rfl).begin.push _

theorem kept_micro {m : Micro} {s t : State} (h : runMicro m s = .next t) : s.Kept t := by
  have k := State.Kept.refl s
  cases m <;> simp only [runMicro] at h
  case inWriteStore => obtain ⟨e, -, h⟩ := onEndpoint_next h; exact (k.setEndpoint _).answer h
  case outEnq => obtain ⟨e, -, h⟩ := onEndpoint_next h; exact k.enqueueStep h
  case drainRead =>
    obtain ⟨e, -, h⟩ := onEndpoint_next h; simp only at h
    repeat' split at h
    all_goals cases h
    all_goals exact k.push _
  case drainFinish =>
    obtain ⟨e, -, h⟩ := onEndpoint_next h
    refine State.Kept.answer (State.Kept.setEndpoint ?_ _) h
    split
    · exact (k.drawWrite.transmit _).logLine _
    · exact k.drawWrite.transmit _
  case decByte => exact k.feedByte h
  case callback =>
    obtain ⟨e, -, h⟩ := onEndpoint_next h; obtain ⟨d, -, h⟩ := onDecoder_next h
    split at h
    · cases h; exact k
    · cases h; exact (k.recordCall _).drawScript.push _
  case advance =>
    obtain ⟨e, -, h⟩ := onEndpoint_next h; obtain ⟨d, -, h⟩ := onDecoder_next h
    cases h; exact (k.setDec _ _).finish _
  case peekFinish =>
    obtain ⟨e, -, h⟩ := onEndpoint_next h; obtain ⟨d, -, h⟩ := onDecoder_next h; exact (k.endPeek _ _).answer h
  case nextPeek =>
    obtain ⟨e, -, h⟩ := onEndpoint_next h; obtain ⟨d, -, h⟩ := onDecoder_next h; cases h; exact k.push _
  case nextFinish =>
    obtain ⟨e, -, h⟩ := onEndpoint_next h; obtain ⟨d, -, h⟩ := onDecoder_next h; exact (k.endPeek _ _).answer h
  case pollDraw =>
    unfold pollDrawStep at h; simp only at h
    split at h
    · exact (k.drawRead _).answer h
    · exact ((k.drawRead _).logLine _).answer h
    · cases h; exact (k.drawRead _).push _
  case pollSnap => obtain ⟨e, -, h⟩ := onEndpoint_next h; cases h; exact k.push _
  case pollStore => obtain ⟨e, -, h⟩ := onEndpoint_next h; cases h; exact (k.setEndpoint _).push _
  case pollFeed =>
    obtain ⟨e, -, h⟩ := onEndpoint_next h; simp only at h
    split at h
    · cases h
    · exact k.feedByte h
  case pollNext =>
    obtain ⟨e, -, h⟩ := onEndpoint_next h
    split at h
    · cases h; exact k.push _
    · exact k.answer h
  case closeTransport => cases h; exact (k.setEnv rfl rfl rfl).push _
  case closeDestroy =>
    have : s.Kept ({ s with ep := none } : State) := .of rfl rfl rfl rfl fun _ _ => rfl
    exact (this.setEnv (v := { s.env with closing := false }) rfl rfl rfl).answer h
  case lost => cases h

/-- A turn's task leaves the acting agent, the other agents and the parameters as they are. -/
theorem kept_task {k : Task} {s t : State} (h : runTask k s = .next t) : s.Kept t := by
  cases k with
  | issue i =>
    simp only [runTask] at h
    split at h
    · exact kept_exec h
    · cases h
  | micro m => exact kept_micro h

/-! ### The step -/

/-- An event at the boundary, or an idle turn, leaves the endpoint, the agents and the parameters alone, and a
shutdown is final. -/
structure State.Beside (s t : State) : Prop where
  ep : t.ep = s.ep
  sent : t.env.sent = s.env.sent
  threads : ∀ a, t.thread a = s.thread a
  cur : t.cur = s.cur
  driver : t.env.driver = s.env.driver
  cursorBits : t.env.cursorBits = s.env.cursorBits
  shutdown : s.env.shutdown = true → t.env.shutdown = true

/-- A step is an event at the boundary or an idle turn, or one agent's turn, the schedule moved on. -/
theorem step_turn {s t : State} (h : step s = .next t) :
    s.Beside t ∨ ∃ (v : Env) (a : Agent) (k : Task) (rest : List Task), s.env.SameBoundary v ∧
      v.sent = s.env.sent ∧ (s.thread a).todo = k :: rest ∧ runTask k ((s.setEnv v).turnOf a rest) = .next t := by
  have key : ∀ (u : Env) (v : Event), s.env.SameBoundary u → u.sent = s.env.sent →
      takeEvent v (s.setEnv u) = .next t → s.Beside t ∨ ∃ (v : Env) (a : Agent) (k : Task) (rest : List Task),
        s.env.SameBoundary v ∧ v.sent = s.env.sent ∧ (s.thread a).todo = k :: rest ∧
        runTask k ((s.setEnv v).turnOf a rest) = .next t := by
    intro u v hu hs h
    cases v with
    | act a =>
      simp only [takeEvent, runAgent] at h
      split at h
      · cases h; exact .inl ⟨rfl, hs, fun _ => rfl, rfl, hu.driver, hu.cursorBits, hu.shutdown.trans⟩
      · exact .inr ⟨u, a, _, _, hu, hs, ‹_›, h⟩
    | openTransport b c =>
      cases h; left; unfold openTransportEvent
      split <;> exact ⟨rfl, hs, fun _ => rfl, rfl, hu.driver, hu.cursorBits, hu.shutdown.trans⟩
    | register d =>
      cases h; left; unfold registerEvent
      split
      · cases d <;> exact ⟨rfl, hs, fun _ => rfl, rfl, hu.driver, hu.cursorBits, hu.shutdown.trans⟩
      · exact ⟨rfl, hs, fun _ => rfl, rfl, hu.driver, hu.cursorBits, hu.shutdown.trans⟩
    | shutdown =>
      cases h; left; unfold shutdownEvent
      split
      · exact ⟨rfl, hs, fun _ => rfl, rfl, hu.driver, hu.cursorBits, hu.shutdown.trans⟩
      · exact ⟨rfl, hs, fun _ => rfl, rfl, hu.driver, hu.cursorBits, fun _ => rfl⟩
  unfold step at h
  split at h
  · exact key _ _ (by exact ⟨rfl, rfl, rfl, rfl, rfl, rfl, rfl⟩) (by rfl) h
  · exact key _ _ (by exact ⟨rfl, rfl, rfl, rfl, rfl, rfl, rfl⟩) (by rfl) h

end Sys2Proof.Machine
end

