-- ==== Sys2Proof/Laws/PerInstr.lean ====
section
/-! SUPPORT. For every instruction: its encoding lies in the column and the byte range of the map of
30_encoding.md R96 that is its own, and a port operation has no encoding (R100). -/

namespace Sys2Proof.Laws.WireRange

/-- The cell of the map of 30_encoding.md R96 an instruction stands in. -/
def InCell (st : DecState) (b : Byte) : Instr → Prop
  | .noteoff _ => st = .waitingForStatus ∧ 0x80#8 ≤ b ∧ b ≤ 0x8F#8
  | .noteon _ => st = .waitingForStatus ∧ 0x90#8 ≤ b ∧ b ≤ 0x9F#8
  | .polykey _ => st = .waitingForStatus ∧ 0xA0#8 ≤ b ∧ b ≤ 0xAF#8
  | .cc _ => st = .waitingForStatus ∧ 0xB0#8 ≤ b ∧ b ≤ 0xBF#8
  | .program _ => st = .waitingForStatus ∧ 0xC0#8 ≤ b ∧ b ≤ 0xCF#8
  | .chanpress _ => st = .waitingForStatus ∧ 0xD0#8 ≤ b ∧ b ≤ 0xDF#8
  | .pitchbend _ => st = .waitingForStatus ∧ 0xE0#8 ≤ b ∧ b ≤ 0xEF#8
  | .sox => st = .waitingForStatus ∧ 0xF0#8 ≤ b ∧ b ≤ 0xF0#8
  | .discardData _ => st = .waitingForStatus ∧ 0x00#8 ≤ b ∧ b ≤ 0x7F#8
  | .discardSyscommon _ => st = .waitingForStatus ∧ 0xF1#8 ≤ b ∧ b ≤ 0xF6#8
  | .discardEox => st = .waitingForStatus ∧ 0xF7#8 ≤ b ∧ b ≤ 0xF7#8
  | .discardRealtime _ => st = .waitingForStatus ∧ 0xF8#8 ≤ b ∧ b ≤ 0xFF#8
  | .eox => st = .receivingSysex ∧ b = 0xF7#8
  | .discardSysex _ => st = .receivingSysex ∧ b ≠ 0xF7#8
  | .data _ => st = .accumulatingData
  | .decByte _ | .decParse _ _ | .inWrite _ _ | .inRead | .outEnq _ | .outEnqn _ _ | .outDrain
  | .mqPeek _ | .mqAvail _ | .mqNext _
  | .encNoteoff _ _ _ | .encNoteon _ _ _ | .encPolykey _ _ _ | .encCc _ _ _
  | .encProgram _ _ | .encChanpress _ _ | .encPitchbend _ _ _
  | .decSetcb _ _ | .inPoll | .outPoll | .epReset _ _ _ _ | .epClose => False

/-- A well-formed instruction encodes into its own cell, if it has an encoding at all. -/
def Statement (i : Instr) : Prop :=
  ∀ st b, i.wellFormed = true → encode i = some (st, b) → InCell st b i

theorem noteoff (ch : Channel) : Statement (.noteoff ch) := by
  rintro st b - h; cases h; exact ⟨rfl, by revert ch; decide, by revert ch; decide⟩

theorem noteon (ch : Channel) : Statement (.noteon ch) := by
  rintro st b - h; cases h; exact ⟨rfl, by revert ch; decide, by revert ch; decide⟩

theorem polykey (ch : Channel) : Statement (.polykey ch) := by
  rintro st b - h; cases h; exact ⟨rfl, by revert ch; decide, by revert ch; decide⟩

theorem cc (ch : Channel) : Statement (.cc ch) := by
  rintro st b - h; cases h; exact ⟨rfl, by revert ch; decide, by revert ch; decide⟩

theorem program (ch : Channel) : Statement (.program ch) := by
  rintro st b - h; cases h; exact ⟨rfl, by revert ch; decide, by revert ch; decide⟩

theorem chanpress (ch : Channel) : Statement (.chanpress ch) := by
  rintro st b - h; cases h; exact ⟨rfl, by revert ch; decide, by revert ch; decide⟩

theorem pitchbend (ch : Channel) : Statement (.pitchbend ch) := by
  rintro st b - h; cases h; exact ⟨rfl, by revert ch; decide, by revert ch; decide⟩

theorem sox : Statement .sox := by
  rintro st b - h; cases h; exact ⟨rfl, by decide, by decide⟩

theorem discardData (v : BitVec 7) : Statement (.discardData v) := by
  rintro st b - h; cases h; exact ⟨rfl, by revert v; decide, by revert v; decide⟩

theorem discardSyscommon (b : Byte) : Statement (.discardSyscommon b) := by
  rintro st b hw h; cases h; exact ⟨rfl, by simpa [Instr.wellFormed] using hw⟩

theorem discardEox : Statement .discardEox := by
  rintro st b - h; cases h; exact ⟨rfl, by decide, by decide⟩

theorem discardRealtime (v : BitVec 3) : Statement (.discardRealtime v) := by
  rintro st b - h; cases h; exact ⟨rfl, by revert v; decide, by revert v; decide⟩

theorem eox : Statement .eox := by
  rintro st b - h; cases h; exact ⟨rfl, rfl⟩

theorem discardSysex (b : Byte) : Statement (.discardSysex b) := by
  rintro st b hw h; cases h; exact ⟨rfl, by simpa [Instr.wellFormed] using hw⟩

theorem data (b : Byte) : Statement (.data b) := by
  rintro st b - h; cases h; rfl

theorem decByte (b : Byte) : Statement (.decByte b) := by
  rintro st b - h; cases h

theorem decParse (bytes : List Byte) (n : Nat) : Statement (.decParse bytes n) := by
  rintro st b - h; cases h

theorem inWrite (bytes : List Byte) (n : Nat) : Statement (.inWrite bytes n) := by
  rintro st b - h; cases h

theorem inRead : Statement .inRead := by
  rintro st b - h; cases h

theorem outEnq (b : Byte) : Statement (.outEnq b) := by
  rintro st b - h; cases h

theorem outEnqn (bytes : List Byte) (n : Nat) : Statement (.outEnqn bytes n) := by
  rintro st b - h; cases h

theorem outDrain : Statement .outDrain := by
  rintro st b - h; cases h

theorem mqPeek (i : Nat) : Statement (.mqPeek i) := by
  rintro st b - h; cases h

theorem mqAvail (c : Nat) : Statement (.mqAvail c) := by
  rintro st b - h; cases h

theorem mqNext (c : Nat) : Statement (.mqNext c) := by
  rintro st b - h; cases h

theorem encNoteoff (ch d0 d1 : Nat) : Statement (.encNoteoff ch d0 d1) := by
  rintro st b - h; cases h

theorem encNoteon (ch d0 d1 : Nat) : Statement (.encNoteon ch d0 d1) := by
  rintro st b - h; cases h

theorem encPolykey (ch d0 d1 : Nat) : Statement (.encPolykey ch d0 d1) := by
  rintro st b - h; cases h

theorem encCc (ch d0 d1 : Nat) : Statement (.encCc ch d0 d1) := by
  rintro st b - h; cases h

theorem encProgram (ch d0 : Nat) : Statement (.encProgram ch d0) := by
  rintro st b - h; cases h

theorem encChanpress (ch d0 : Nat) : Statement (.encChanpress ch d0) := by
  rintro st b - h; cases h

theorem encPitchbend (ch d0 d1 : Nat) : Statement (.encPitchbend ch d0 d1) := by
  rintro st b - h; cases h

theorem decSetcb (f : Option Handler) (a : ContextValue) : Statement (.decSetcb f a) := by
  rintro st b - h; cases h

theorem inPoll : Statement .inPoll := by
  rintro st b - h; cases h

theorem outPoll : Statement .outPoll := by
  rintro st b - h; cases h

theorem epReset (ci co n : Nat) (d : Bool) : Statement (.epReset ci co n d) := by
  rintro st b - h; cases h

theorem epClose : Statement .epClose := by
  rintro st b - h; cases h

end Sys2Proof.Laws.WireRange
end

