-- ==== Sys2Proof/Laws/Run.lean ====
section
/-! SUPPORT. Uninterrupted runs of the acting agent: one more turn, pushed tasks taken one by one, and the
states in which an operation has returned. -/

namespace Sys2Proof.Machine

@[simp] theorem setThread_setThread (s : State) (a : Agent) (t u : Thread) :
    (s.setThread a t).setThread a u = s.setThread a u := by cases a <;> rfl

@[simp] theorem setThread_self (s : State) (a : Agent) : s.setThread a (s.thread a) = s := by
  cases a <;> rfl

@[simp] theorem push_nil (s : State) : s.push [] = s := setThread_self s s.cur

theorem push_push (s : State) (ts us : List Task) : (s.push us).push ts = s.push (ts ++ us) := by
  unfold State.push; simp

theorem setDec_push (s : State) (e : Endpoint) (d : Dec) (ts : List Task) :
    (s.push ts).setDec e d = (s.setDec e d).push ts := rfl

theorem setEndpoint_push (s : State) (e : Endpoint) (ts : List Task) :
    (s.push ts).setEndpoint e = (s.setEndpoint e).push ts := rfl

theorem setEnv_push (s : State) (v : Env) (ts : List Task) :
    (s.push ts).setEnv v = (s.setEnv v).push ts := rfl

/-- Taking the first of the tasks just pushed leaves the others pushed. -/
theorem turnOf_push (s : State) (k : Task) (ts : List Task) :
    (s.push (k :: ts)).turnOf s.cur (ts ++ (s.thread s.cur).todo) = s.push ts := by
  unfold State.push State.turnOf
  have h : (s.setThread s.cur { s.thread s.cur with todo := k :: ts ++ (s.thread s.cur).todo }).thread
      s.cur = { s.thread s.cur with todo := k :: ts ++ (s.thread s.cur).todo } := by simp
  rw [h]
  cases hc : s.cur <;> cases s <;> simp_all [State.setThread, Threads.set]

@[simp] theorem turns_zero (a : Agent) (s : State) : turns a 0 s = .next s := rfl

/-- The next turn takes the first pushed task. -/
theorem runAgent_push (s : State) (k : Task) (ts : List Task) :
    runAgent s.cur (s.push (k :: ts)) = runTask k (s.push ts) := by
  unfold runAgent
  rw [thread_push_cur]
  show runTask k ((s.push (k :: ts)).turnOf s.cur (ts ++ (s.thread s.cur).todo)) = _
  rw [turnOf_push]

theorem turns_push {s t : State} {k : Task} {ts : List Task} (n : Nat)
    (h : runTask k (s.push ts) = .next t) : turns s.cur (n + 1) (s.push (k :: ts)) = turns s.cur n t := by
  rw [turns, runAgent_push, h]

/-- Runs compose. -/
theorem turns_add {a : Agent} {n k : Nat} {s t u : State} (h1 : turns a n s = .next t)
    (h2 : turns a k t = .next u) : turns a (n + k) s = .next u := by
  induction n generalizing s with
  | zero => cases h1; simpa using h2
  | succ n ih =>
    rw [turns] at h1
    rw [Nat.succ_add, turns]
    cases hr : runAgent a s <;> rw [hr] at h1
    · exact ih h1
    · cases h1
    · cases h1

/-- A state that differs from `s` in the endpoint, the environment and the acting agent's result. -/
structure SameWork (s x : State) : Prop where
  agent : x.cur = s.cur
  others : ∀ b, b ≠ s.cur → x.thread b = s.thread b
  todo : (x.thread s.cur).todo = (s.thread s.cur).todo

namespace SameWork
variable {s x : State}

theorem refl (s : State) : SameWork s s := ⟨rfl, fun _ _ => rfl, rfl⟩
theorem begin (h : SameWork s x) : SameWork s x.begin where
  agent := h.agent
  others b hb := by rw [thread_begin_ne _ (by rw [h.agent]; exact hb), h.others b hb]
  todo := by simpa using h.todo
theorem setEndpoint (h : SameWork s x) (e : Endpoint) : SameWork s (x.setEndpoint e) :=
  ⟨h.agent, h.others, h.todo⟩
theorem setDec (h : SameWork s x) (e : Endpoint) (d : Dec) : SameWork s (x.setDec e d) :=
  ⟨h.agent, h.others, h.todo⟩
theorem setEnv (h : SameWork s x) (v : Env) : SameWork s (x.setEnv v) := ⟨h.agent, h.others, h.todo⟩
theorem finish (h : SameWork s x) (fin : Option Result) : SameWork s (x.finish fin) where
  agent := by simpa using h.agent
  others b hb := by rw [thread_finish_ne _ _ (by rw [h.agent]; exact hb), h.others b hb]
  todo := by simpa using h.todo

theorem returned (h : SameWork s x) (r : Result) : ReturnedIn s (x.finish (some r)) x.env r where
  env := by simp
  agent := (h.finish _).agent
  others := (h.finish _).others
  todo := (h.finish _).todo
  ret := by rw [← h.agent, thread_finish_cur]

theorem goesOn (h : SameWork s x) (ts : List Task) : GoesOnIn s (x.push ts) x.env ts where
  env := rfl
  agent := h.agent
  others b hb := by rw [thread_push_ne _ _ (by rw [h.agent]; exact hb), h.others b hb]
  todo := by rw [← h.agent, thread_push_cur, h.agent, ← h.todo]

end SameWork

end Sys2Proof.Machine
end

