-- ==== Sys2Proof/Tests/Slice0.lean ====
section
/-! SUPPORT. Tests: ill-formed terms, bytes written out from the encodings of the spec, single steps with the
results of spec/95_test_vectors.md, and for every statement with hypotheses a state that meets them. -/

namespace Sys2Proof.Tests

open Sys2Proof Sys2Proof.Machine

/-! ### A small state -/

/-- The boundary while both directions are polled. -/
def polled : Env := { Env.reset with polledIn := true, polledOut := true, begun := true }

def idle : Threads :=
  { rt := Thread.idle, bgIn := Thread.idle, bgOut := Thread.idle, owner := Thread.idle }

/-- Agent `a` takes its step on the endpoint `e`. -/
def at_ (a : Agent) (e : Endpoint) (v : Env := polled) : State :=
  { ep := some e, env := v, threads := idle, cur := a }

/-- Agent `a` is scheduled to take its next step, with the tasks `ts` before it. -/
def due (a : Agent) (ts : List Task) (e : Endpoint) (v : Env := polled) : State :=
  (at_ a e { v with sched := [.act a] }).push ts

def ring (cap : Nat) (cells : Memory) (w r : Nat) : Ring := { cap := cap, cells := cells, w := w, r := r }

/-- The endpoint after reset, its parameters those of the vectors. -/
def fresh : Endpoint := Endpoint.reset 8 8 4 true

def withIn (q : Ring) : Endpoint := { fresh with input := q }
def withOut (q : Ring) : Endpoint := { fresh with output := q }
def withDec (d : Dec) : Endpoint := { fresh with dec := some d }

/-- A decoder in WaitingForStatus. -/
def waiting : Dec := Dec.reset 4

def noteOn0 (x y : Byte) : Message :=
  { type := .noteOn, channel := 0, data0 := x, data1 := y, dataByteCount := 2 }

/-- A decoder with `n` data bytes of a NoteOn stored. -/
def noteOnAfter (n : BitVec 2) (m : Message) : Dec :=
  { waiting with state := .accumulatingData, elapsed := n, store := waiting.store.set 0 m }

def sysex : Dec := { waiting with state := .receivingSysex }

/-- One byte unread. -/
def oneByte : Ring := ring 4 [(3, 9)] 0 3
/-- As many unread bytes as a ring holds, wrapped round its end. -/
def mostBytes : Ring := ring 4 [(0, 5), (1, 6), (3, 9)] 2 3
/-- Empty, at the last index. -/
def noByte : Ring := ring 4 [] 3 3


/-- The last slot is under assembly, and two messages stand in the store. -/
def late : Dec := { noteOnAfter 1 (noteOn0 0x40 0) with
  writeSlot := 3, store := [noteOn0 1 2, noteOn0 3 4, Message.blank, noteOn0 0x40 0] }
/-- The message in the last slot has all its data bytes and has not been handed over. -/
def lateDone : Dec := { late with elapsed := 2, store := late.store.set 3 (noteOn0 0x40 0x7F) }

def next? : Outcome → Option State
  | .next t => some t
  | .fault _ => none
  | .refused _ => none

def fault? : Outcome → Option Fault
  | .next _ => none
  | .fault f => some f
  | .refused _ => none

def refusal? : Outcome → Option Refusal
  | .next _ => none
  | .fault _ => none
  | .refused r => some r

/-- What the step of `i` by `a` on `e` leaves of the endpoint. -/
def after (a : Agent) (i : Instr) (e : Endpoint) (v : Env := polled) : Option Endpoint :=
  (next? (exec i (at_ a e v))).bind (·.ep)

/-- What it returns. -/
def returns (a : Agent) (i : Instr) (e : Endpoint) (v : Env := polled) : Option Result :=
  (next? (exec i (at_ a e v))).bind fun t => (t.thread a).ret

/-- What it has still to do. -/
def leaves (a : Agent) (i : Instr) (e : Endpoint) (v : Env := polled) : List Task :=
  ((next? (exec i (at_ a e v))).map fun t => (t.thread a).todo).getD []

/-- What a later step of an operation leaves, and what it returns. -/
def microAfter (a : Agent) (m : Micro) (e : Endpoint) (v : Env := polled) : Option Endpoint :=
  (next? (runMicro m (at_ a e v))).bind (·.ep)

def microReturns (a : Agent) (m : Micro) (e : Endpoint) (v : Env := polled) : Option Result :=
  (next? (runMicro m (at_ a e v))).bind fun t => (t.thread a).ret

def microLeaves (a : Agent) (m : Micro) (e : Endpoint) (v : Env := polled) : List Task :=
  ((next? (runMicro m (at_ a e v))).map fun t => (t.thread a).todo).getD []

def microEnv (a : Agent) (m : Micro) (e : Endpoint) (v : Env := polled) : Option Env :=
  (next? (runMicro m (at_ a e v))).map (·.env)

/-! ### Ill-formed terms -/

theorem test_illformed_syscommon_below : (Instr.discardSyscommon 0xF0#8).wellFormed = false := by decide
theorem test_illformed_syscommon_above : (Instr.discardSyscommon 0xF7#8).wellFormed = false := by decide
theorem test_illformed_discard_of_eox : (Instr.discardSysex 0xF7#8).wellFormed = false := by decide
theorem test_illformed_parse_length : (Instr.decParse [0x90, 0x40] 3).wellFormed = false := by decide
theorem test_illformed_write_count : (Instr.inWrite [1] 2).wellFormed = false := by decide
theorem test_illformed_enqn_count : (Instr.outEnqn [1, 2] 1).wellFormed = false := by decide
theorem test_illformed_reset_in : (Instr.epReset 1 2 2 true).wellFormed = false := by decide
theorem test_illformed_reset_out : (Instr.epReset 2 1 2 true).wellFormed = false := by decide
theorem test_illformed_reset_slots : (Instr.epReset 2 2 1 false).wellFormed = false := by decide
theorem test_wellformed_reset : (Instr.epReset 2 2 2 false).wellFormed = true := by decide
theorem test_step_refuses_illformed :
    refusal? (step (due .bgIn [.issue (.inWrite [1] 2)] fresh)) = some .illFormed := by decide

/-! ### Bytes from the encodings (30_encoding.md R91 to R97; vectors of sections 2.3 and 2.17) -/

theorem test_byte_noteoff : decodeByte .waitingForStatus 0b10001111#8 = some (.noteoff 15) := by decide
theorem test_byte_noteon : decodeByte .waitingForStatus 0b10010011#8 = some (.noteon 3) := by decide
theorem test_byte_polykey : decodeByte .waitingForStatus 0b10100010#8 = some (.polykey 2) := by decide
theorem test_byte_cc : decodeByte .waitingForStatus 0b10111111#8 = some (.cc 15) := by decide
theorem test_byte_program : decodeByte .waitingForStatus 0b11000000#8 = some (.program 0) := by decide
theorem test_byte_chanpress : decodeByte .waitingForStatus 0b11011111#8 = some (.chanpress 15) := by decide
theorem test_byte_pitchbend : decodeByte .waitingForStatus 0b11101111#8 = some (.pitchbend 15) := by decide
theorem test_byte_sox : decodeByte .waitingForStatus 0b11110000#8 = some .sox := by decide
theorem test_byte_discard_data : decodeByte .waitingForStatus 0b01111111#8 = some (.discardData 127) := by
  decide
theorem test_byte_syscommon_first : decodeByte .waitingForStatus 0b11110001#8 = some (.discardSyscommon 0xF1) := by
  decide
theorem test_byte_syscommon_last : decodeByte .waitingForStatus 0b11110110#8 = some (.discardSyscommon 0xF6) := by
  decide
theorem test_byte_discard_eox : decodeByte .waitingForStatus 0b11110111#8 = some .discardEox := by decide
theorem test_byte_realtime : decodeByte .waitingForStatus 0b11111010#8 = some (.discardRealtime 2) := by decide
theorem test_byte_eox : decodeByte .receivingSysex 0b11110111#8 = some .eox := by decide
theorem test_byte_in_sysex : decodeByte .receivingSysex 0b10010011#8 = some (.discardSysex 0x93) := by decide
theorem test_byte_in_sysex_f6 : decodeByte .receivingSysex 0b11110110#8 = some (.discardSysex 0xF6) := by decide
theorem test_byte_data : decodeByte .accumulatingData 0b11110111#8 = some (.data 0xF7) := by decide
theorem test_no_byte : decode .waitingForStatus [] = .error .noByte := by decide
theorem test_table_word : decodeTableWord 8 0xC9 = some (.program 9) := by decide
theorem test_table_word_too_long : decodeTableWord 16 0xC9 = none := by decide

/-! ### Wire bytes (vectors D1, D2, D5, D6, D7, S1) -/

/-- The slot a status byte writes, and the state it leaves. -/
def statusResult (i : Instr) : Option (Message × DecState × BitVec 2) :=
  (after .bgIn i (withDec { waiting with elapsed := 2 })).bind fun e =>
    e.dec.map fun d => (d.slot, d.state, d.elapsed)

theorem test_noteoff : statusResult (.noteoff 15) = some (⟨.noteOff, 15, 0, 0, 2⟩, .accumulatingData, 0) := by decide
theorem test_noteon : statusResult (.noteon 0) = some (⟨.noteOn, 0, 0, 0, 2⟩, .accumulatingData, 0) := by decide
theorem test_polykey : statusResult (.polykey 2) = some (⟨.polyKeyPressure, 2, 0, 0, 2⟩, .accumulatingData, 0) := by
  decide
theorem test_cc : statusResult (.cc 3) = some (⟨.controlChange, 3, 0, 0, 2⟩, .accumulatingData, 0) := by decide
theorem test_program : statusResult (.program 9) = some (⟨.programChange, 9, 0, 0, 1⟩, .accumulatingData, 0) := by
  decide
theorem test_chanpress :
    statusResult (.chanpress 0) = some (⟨.channelPressure, 0, 0, 0, 1⟩, .accumulatingData, 0) := by decide
theorem test_pitchbend : statusResult (.pitchbend 1) = some (⟨.pitchBend, 1, 0, 0, 2⟩, .accumulatingData, 0) := by
  decide
/-- D7.1, seventh byte: the data of the message before it stays. -/
theorem test_program_keeps_data :
    (after .bgIn (.program 5) (withDec { waiting with store := [noteOn0 0x40 0x7F, Message.blank] })).bind
      (fun e => e.dec.map (·.slot)) = some ⟨.programChange, 5, 0x40, 0x7F, 1⟩ := by decide
theorem test_sox : after .bgIn .sox fresh = some (withDec sysex) := by decide
theorem test_eox : after .bgIn .eox (withDec sysex) = some fresh := by decide
theorem test_discard_data : after .bgIn (.discardData 0x40) fresh = some fresh := by decide
theorem test_discard_syscommon : after .bgIn (.discardSyscommon 0xF5) fresh = some fresh := by decide
theorem test_discard_eox : after .bgIn .discardEox fresh = some fresh := by decide
theorem test_discard_realtime : after .bgIn (.discardRealtime 7) fresh = some fresh := by decide
theorem test_discard_sysex : after .bgIn (.discardSysex 0x90) (withDec sysex) = some (withDec sysex) := by decide
theorem test_wire_row_of_another_state :
    refusal? (exec .eox (at_ .bgIn fresh)) = some (.wireRow .receivingSysex) := by decide
/-- S1, second byte, and D5.1: a byte with bit 7 set is stored whole. -/
theorem test_data_first : after .bgIn (.data 0x91) (withDec (noteOnAfter 0 (noteOn0 0 0))) =
    some (withDec (noteOnAfter 1 (noteOn0 0x91 0))) := by decide
/-- S1, third byte: the message is complete, its handing over is still to come. -/
theorem test_data_last : after .bgIn (.data 0x7F) (withDec (noteOnAfter 1 (noteOn0 0x40 0))) =
      some (withDec (noteOnAfter 2 (noteOn0 0x40 0x7F))) ∧
    leaves .bgIn (.data 0x7F) (withDec (noteOnAfter 1 (noteOn0 0x40 0))) = [.micro (.advance (some .unit))] := by
  decide
/-- S1, end of the third byte. -/
theorem test_advance : microAfter .bgIn (.advance none) (withDec (noteOnAfter 2 (noteOn0 0x40 0x7F))) =
    some (withDec { waiting with elapsed := 2, writeSlot := 1, store := waiting.store.set 0 (noteOn0 0x40 0x7F) }) := by
  decide

/-! ### DEC operations (vectors D1, D9, D10) -/

theorem test_decByte_status : after .bgIn (.decByte 0xC9) fresh =
    some (withDec { waiting with
      state := .accumulatingData, store := waiting.store.set 0 ⟨.programChange, 9, 0, 0, 1⟩ }) := by decide
theorem test_decByte_reentry :
    refusal? (exec (.decByte 0x40) (at_ .bgIn (withDec (noteOnAfter 2 (noteOn0 0x40 0x7F))))) = some .reentry := by
  decide
theorem test_decParse_empty : after .bgIn (.decParse [] 0) (withDec (noteOnAfter 1 (noteOn0 0x40 0))) =
      some (withDec (noteOnAfter 1 (noteOn0 0x40 0))) ∧
    returns .bgIn (.decParse [] 0) fresh = some (.count 0) := by decide
/-- R261, U5: inside the callback, whatever the list. -/
theorem test_decParse_reentry :
    refusal? (exec (.decParse [] 0) (at_ .bgIn (withDec (noteOnAfter 2 (noteOn0 0x40 0x7F))))) = some .reentry := by
  decide
theorem test_decParse_first : after .bgIn (.decParse [0xF0, 0x01, 0xF7] 3) fresh = some (withDec sysex) ∧
    leaves .bgIn (.decParse [0xF0, 0x01, 0xF7] 3) fresh =
      [.micro (.decByte 0x01 none), .micro (.decByte 0xF7 (some (.count 3)))] := by decide
theorem test_decSetcb : after .owner (.decSetcb (some 5) 7) fresh Env.reset =
    some (withDec { waiting with cb := some 5, cbArg := 7 }) := by decide
/-- R225: before the first activation the owner may, though the endpoint is registered. -/
theorem test_decSetcb_owner :
    after .owner (.decSetcb (some 5) 7) fresh { polled with begun := false } =
      some (withDec { waiting with cb := some 5, cbArg := 7 }) ∧
    refusal? (exec (.decSetcb none 0) (at_ .owner fresh)) = some (.role .owner) := by decide
/-- D10.1: the handler gets the record and the context value. -/
theorem test_callback :
    (microEnv .bgIn .callback (withDec { noteOnAfter 2 (noteOn0 0x40 0x7F) with cb := some 5, cbArg := 7 })
      { polled with scripts := [[]] }).map (·.calls) = some [⟨5, noteOn0 0x40 0x7F, 7⟩] := by decide

/-! ### The input ring (vectors S3, I1, I4, I5) -/

theorem test_inWrite_snapshot : leaves .bgIn (.inWrite [1, 2] 2) (withIn (ring 8 [(0, 7), (1, 7)] 2 1)) =
    [.micro (.inWriteStore 1 [1, 2] 2)] := by decide
/-- S3: ten bytes, eight accepted, and the ring reads as empty. -/
theorem test_inWrite_full :
    microReturns .bgIn (.inWriteStore 0 [0, 1, 2, 3, 4, 5, 6, 7, 8, 9] 10) fresh = some (.count 8) ∧
    microAfter .bgIn (.inWriteStore 0 [0, 1, 2, 3, 4, 5, 6, 7, 8, 9] 10) fresh =
      some (withIn (ring 8 [(0, 0), (1, 1), (2, 2), (3, 3), (4, 4), (5, 5), (6, 6), (7, 7)] 0 0)) := by decide
/-- I5: the snapshot is older than the read cursor. -/
theorem test_inWrite_stale :
    microReturns .bgIn (.inWriteStore 0 [8, 9] 2) (withIn (ring 4 [(0, 1), (1, 2), (2, 3)] 3 1)) = some (.count 1) ∧
    microAfter .bgIn (.inWriteStore 0 [8, 9] 2) (withIn (ring 4 [(0, 1), (1, 2), (2, 3)] 3 1)) =
      some (withIn (ring 4 [(0, 1), (1, 2), (2, 3), (3, 8)] 0 1)) := by decide
/-- I1. -/
theorem test_inRead : returns .rt .inRead (withIn (ring 8 [(0, 1), (1, 2), (2, 3)] 3 0)) = some (.byte (some 1)) ∧
    after .rt .inRead (withIn (ring 8 [(0, 1), (1, 2), (2, 3)] 3 0)) =
      some (withIn (ring 8 [(0, 1), (1, 2), (2, 3)] 3 1)) := by decide
theorem test_inRead_empty : returns .rt .inRead (withIn (ring 8 [(2, 3)] 3 3)) = some (.byte none) ∧
    after .rt .inRead (withIn (ring 8 [(2, 3)] 3 3)) = some (withIn (ring 8 [(2, 3)] 3 3)) := by decide
/-- A state no run reaches: a byte nothing has written. -/
theorem test_inRead_unwritten : fault? (exec .inRead (at_ .rt (withIn (ring 8 [] 1 0)))) =
    some (.unwrittenStorage .input 0) := by decide
theorem test_inRead_role : refusal? (exec .inRead (at_ .bgIn fresh)) = some (.role .bgIn) := by decide

/-! ### The output ring (vectors O1 to O9) -/

theorem test_outEnq : after .rt (.outEnq 0x90) fresh = some (withOut (ring 8 [(0, 0x90)] 1 0)) := by decide
/-- O7: the ring wraps onto its read cursor. -/
theorem test_outEnq_overflow : after .rt (.outEnq 0xAA) (withOut (ring 4 [(0, 1), (1, 2), (2, 3)] 3 0)) =
    some (withOut (ring 4 [(0, 1), (1, 2), (2, 3), (3, 0xAA)] 0 0)) := by decide
theorem test_outEnqn_first : after .rt (.outEnqn [0x90, 0x40, 0x7F] 3) fresh =
      some (withOut (ring 8 [(0, 0x90)] 1 0)) ∧
    leaves .rt (.outEnqn [0x90, 0x40, 0x7F] 3) fresh =
      [.micro (.outEnq 0x40 none), .micro (.outEnq 0x7F (some .unit))] := by decide
theorem test_outEnqn_empty : after .rt (.outEnqn [] 0) fresh = some fresh ∧
    returns .rt (.outEnqn [] 0) fresh = some .unit := by decide
/-- O6: four bytes from index 6 of a ring of 8. -/
theorem test_outDrain_snapshot :
    leaves .bgOut .outDrain (withOut (ring 8 [(0, 3), (1, 4), (6, 1), (7, 2)] 2 6)) =
      [.micro (.drainRead 6 4 0 [] false)] := by decide
theorem test_outDrain_empty : returns .bgOut .outDrain (withOut (ring 8 [] 5 5)) = some (.count 0) ∧
    after .bgOut .outDrain (withOut (ring 8 [] 5 5)) = some (withOut (ring 8 [] 5 5)) := by decide
/-- O9, step S2.1: the new byte. -/
theorem test_drainRead_new :
    microLeaves .bgOut (.drainRead 0 3 1 [0x0A] false) (withOut (ring 4 [(0, 5), (1, 6), (2, 3), (3, 4)] 2 0)) =
      [.micro (.drainRead 0 3 2 [0x0A, 6] false)] := by decide
/-- O3: two of five bytes are taken. -/
theorem test_drainFinish_partial :
    microReturns .bgOut (.drainFinish 0 [1, 2, 3, 4, 5] false) (withOut (ring 8 [] 5 0))
        { polled with writes := [.accepted 2] } = some (.count 2) ∧
    microAfter .bgOut (.drainFinish 0 [1, 2, 3, 4, 5] false) (withOut (ring 8 [] 5 0))
        { polled with writes := [.accepted 2] } = some (withOut (ring 8 [] 5 2)) ∧
    (microEnv .bgOut (.drainFinish 0 [1, 2, 3, 4, 5] false) (withOut (ring 8 [] 5 0))
        { polled with writes := [.accepted 2] }).map (·.sent) = some [1, 2] := by decide
/-- O4: an error leaves the read cursor where it was. -/
theorem test_drainFinish_error :
    microReturns .bgOut (.drainFinish 2 [3, 4, 5] false) (withOut (ring 8 [] 5 2))
        { polled with writes := [.error] } = some (.count 0) ∧
    microAfter .bgOut (.drainFinish 2 [3, 4, 5] false) (withOut (ring 8 [] 5 2))
        { polled with writes := [.error] } = some (withOut (ring 8 [] 5 2)) ∧
    (microEnv .bgOut (.drainFinish 2 [3, 4, 5] false) (withOut (ring 8 [] 5 2))
        { polled with writes := [.error] }).map (·.log) = some [.transportWriteError] := by decide

/-- R261: a handler that BG runs may drain OUT, no other operation of the input loop may. -/
theorem test_outDrain_in_handler :
    leaves .bgIn .outDrain { withOut oneByte with dec := some lateDone } = [.micro (.drainRead 3 1 0 [] false)] ∧
    refusal? (exec .outDrain (at_ .bgIn (withOut oneByte))) = some (.role .bgIn) := by decide

/-! ### The message store (vectors M1 to M6) -/

theorem test_mqPeek : leaves .rt (.mqPeek 3) fresh = [.micro (.peekFinish 3 Message.blank)] := by decide
theorem test_peekFinish : microReturns .rt (.peekFinish 0 Message.blank) fresh = some (.message Message.blank) := by
  decide
/-- U8: of a record written during the peek, some fields are old and some new. -/
theorem test_peekFinish_torn :
    microReturns .rt (.peekFinish 0 (noteOn0 0x40 0x7F))
      (withDec { waiting with store := [⟨.programChange, 5, 0x0A, 0x7F, 1⟩, Message.blank] })
      { polled with tears := [0b00100#5] } = some (.message ⟨.programChange, 5, 0x40, 0x7F, 1⟩) := by decide
theorem test_mqAvail : returns .rt (.mqAvail 1) (withDec { waiting with writeSlot := 3 }) = some (.count 2) ∧
    returns .bgOut (.mqAvail 3) (withDec { waiting with writeSlot := 0 }) = some (.count 1) := by decide
theorem test_mqNext_none : returns .rt (.mqNext 0) fresh = some (.next none) := by decide
theorem test_mqNext_pending : leaves .rt (.mqNext 3) fresh = [.micro (.nextPeek 3)] := by decide
theorem test_nextFinish : microReturns .rt (.nextFinish 3 Message.blank) fresh =
    some (.next (some (Message.blank, 0))) := by decide
theorem test_mq_slot_outside : refusal? (exec (.mqPeek 4) (at_ .rt fresh)) = some (.slotIndex 4) := by decide

/-! ### The encoder (vectors E1, E3): the first byte, and the bytes still to come -/

/-- The bytes of an encoder operation, from its first step and what it leaves to do. -/
def encoded (i : Instr) : List Byte :=
  (((after .rt i fresh).bind fun e => Memory.read e.output.cells 0).toList) ++
    (leaves .rt i fresh).filterMap fun k => match k with
      | .micro (.outEnq b _) => some b
      | .micro _ => none
      | .issue _ => none

theorem test_encNoteoff : encoded (.encNoteoff 0 0x30 0x00) = [0x80, 0x30, 0x00] := by decide
theorem test_encNoteon : encoded (.encNoteon 0 0x40 0x7F) = [0x90, 0x40, 0x7F] := by decide
theorem test_encNoteon_masks : encoded (.encNoteon 17 0xC0 0x1FF) = [0x91, 0x40, 0x7F] := by decide
theorem test_encPolykey : encoded (.encPolykey 2 0x3C 0x50) = [0xA2, 0x3C, 0x50] := by decide
theorem test_encCc : encoded (.encCc 3 0x07 0x64) = [0xB3, 0x07, 0x64] := by decide
theorem test_encCc_masks : encoded (.encCc 0xFF 0xFF 0xFF) = [0xBF, 0x7F, 0x7F] := by decide
theorem test_encProgram : encoded (.encProgram 9 0x05) = [0xC9, 0x05] := by decide
theorem test_encProgram_masks : encoded (.encProgram 16 0x80) = [0xC0, 0x00] := by decide
theorem test_encChanpress : encoded (.encChanpress 0 0x7F) = [0xD0, 0x7F] := by decide
theorem test_encPitchbend : encoded (.encPitchbend 1 0x00 0x40) = [0xE1, 0x00, 0x40] := by decide
theorem test_encBytes_outside_table : encBytes 0xF0#8 0 0 0 = none ∧ encBytes 0x7F#8 0 0 0 = none := by decide

/-! ### The bridge (vectors B1 to B6) -/

theorem test_inPoll : leaves .bgIn .inPoll (withIn (ring 8 [] 3 7)) = [.micro (.pollDraw 3 4)] := by decide
theorem test_inPoll_unregistered : refusal? (exec .inPoll (at_ .bgIn fresh { polled with polledIn := false })) =
    some (.notRegistered .input) := by decide
theorem test_pollDraw_wouldBlock :
    microReturns .bgIn (.pollDraw 0 8) fresh { polled with reads := [.wouldBlock] } = some .unit ∧
    microEnv .bgIn (.pollDraw 0 8) fresh { polled with reads := [.wouldBlock] } = some polled := by decide
theorem test_pollDraw_error :
    microEnv .bgIn (.pollDraw 0 8) fresh { polled with reads := [.error] } =
      some { polled with log := [.transportReadError] } := by decide
/-- B1: three bytes are stored, fed, and then the loop test is made. -/
theorem test_pollStore : microAfter .bgIn (.pollStore 0 0 8 [0x90, 0x40, 0x7F]) fresh =
      some (withIn (ring 8 [(0, 0x90), (1, 0x40), (2, 0x7F)] 3 0)) ∧
    microLeaves .bgIn (.pollStore 0 0 8 [0x90, 0x40, 0x7F]) fresh =
      [.micro (.pollFeed 0 0), .micro (.pollFeed 0 1), .micro (.pollFeed 0 2), .micro (.pollNext 3 8)] := by decide
/-- B3: the read filled the space, so the loop goes round again. -/
theorem test_pollNext : microLeaves .bgIn (.pollNext 4 4) (withIn (ring 4 [] 0 0)) = [.micro (.pollDraw 0 4)] ∧
    microReturns .bgIn (.pollNext 2 4) (withIn (ring 4 [] 2 0)) = some .unit := by decide
theorem test_outPoll : leaves .bgOut .outPoll (withOut (ring 8 [(0, 1), (1, 2), (2, 3)] 3 0)) =
    [.micro (.drainRead 0 3 0 [] true)] := by decide
/-- B6: nothing is handed back. -/
theorem test_outPoll_finish :
    microReturns .bgOut (.drainFinish 0 [1, 2, 3] true) (withOut (ring 8 [] 3 0))
        { polled with writes := [.accepted 2] } = some .unit ∧
    microAfter .bgOut (.drainFinish 0 [1, 2, 3] true) (withOut (ring 8 [] 3 0))
        { polled with writes := [.accepted 2] } = some (withOut (ring 8 [] 3 2)) := by decide

/-! ### Creation and teardown (vector Z1; 70_reset_and_hazards.md R280 to R282) -/

def ownerAlone : State := { ep := none, env := Env.reset, threads := idle, cur := .owner }

theorem test_epReset : (next? (exec (.epReset 8 8 4 true) ownerAlone)).bind (·.ep) = State.reset.ep := by decide
theorem test_epReset_without_decoder : (next? (exec (.epReset 2 3 2 false) ownerAlone)).bind (·.ep) =
    some { input := ring 2 [] 0 0, output := ring 3 [] 0 0, dec := none } := by decide
theorem test_epReset_cursor_width : refusal? (exec (.epReset 8 9 4 true)
    { ownerAlone with env := { Env.reset with cursorBits := 3 } }) = some .cursorWidth := by decide
theorem test_epClose : leaves .owner .epClose fresh = [.micro .closeTransport] ∧
    (next? (exec .epClose (at_ .owner fresh))).map (·.env) =
      some { polled with polledIn := false, polledOut := false, closing := true } := by decide
/-- It waits for no agent (20_memory.md R74); an operation it finds in progress is refused from then on. -/
theorem test_epClose_at_once :
    (next? (exec .epClose
      { at_ .owner fresh with threads := { idle with rt := ⟨[.micro (.outEnq 1 none)], none⟩ } })).map
      (fun t => (t.env.closing, (t.thread .rt).todo, (t.thread .bgIn).todo)) = some (true, [.micro .lost], []) := by
  decide
theorem test_lost_is_refused : refusal? (runMicro .lost (at_ .rt fresh)) = some .closing := by decide
theorem test_closing_admits_nothing : refusal? (exec .inRead (at_ .rt fresh { Env.reset with closing := true })) =
    some .closing := by decide
/-- R234, R281: registration in the direction the transport was opened for, and no other. -/
theorem test_register_opened_direction :
    let s := at_ .owner fresh { Env.reset with handle := .opened .input }
    (registerEvent .input s).env = { s.env with polledIn := true } ∧ registerEvent .output s = s := by decide
/-- R235: the handle of an endpoint that is not registered is not the task's to release. -/
theorem test_shutdown_spares_unregistered_handle :
    (shutdownEvent (at_ .rt fresh Env.reset)).env = { Env.reset with shutdown := true } ∧
    (shutdownEvent (at_ .rt fresh)).env =
      { polled with polledIn := false, polledOut := false, shutdown := true, handle := .released } := by decide
/-- R236: BG issues no operation on an endpoint it does not poll. -/
theorem test_unregistered :
    refusal? (exec (.mqAvail 0) (at_ .bgIn fresh Env.reset)) = some (.notRegistered .input) ∧
    refusal? (exec (.mqAvail 0) (at_ .bgOut fresh Env.reset)) = some (.notRegistered .output) := by decide
theorem test_after_close : refusal? (exec .inRead { ownerAlone with cur := .rt }) = some .noEndpoint := by decide

/-! ### Witnesses: states that meet the hypotheses of the statements, each clause at a boundary value -/

theorem inside_of {n : Nat} : ∀ {m : Memory}, (∀ c ∈ m, c.1 < n) → ∀ a, (Memory.read m a).isSome = true → a < n
  | [], _, a, ha => by simp at ha
  | c :: m, h, a, ha => by
    rw [Memory.read_cons] at ha
    split at ha
    · rename_i hc; rw [hc]; exact h c (by simp)
    · exact inside_of (fun x hx => h x (by simp [hx])) a ha

theorem ok_oneByte : oneByte.Ok :=
  ⟨by decide, by decide, by decide, by decide, inside_of (by decide), by decide⟩
theorem ok_mostBytes : mostBytes.Ok :=
  ⟨by decide, by decide, by decide, by decide, inside_of (by decide), by decide⟩
theorem ok_noByte : noByte.Ok :=
  ⟨by decide, by decide, by decide, by decide, inside_of (by decide), by decide⟩

theorem ok_waiting : waiting.Ok := Dec.ok_reset (by decide)
theorem ok_first : (noteOnAfter 0 (noteOn0 0 0)).Ok :=
  ⟨by decide, by decide, by decide, by decide, fun _ => by decide⟩
theorem ok_second : (noteOnAfter 1 (noteOn0 0x40 0)).Ok :=
  ⟨by decide, by decide, by decide, by decide, fun _ => by decide⟩
theorem ok_late : late.Ok := ⟨by decide, by decide, by decide, by decide, fun _ => by decide⟩
theorem ok_lateDone : lateDone.Ok := ⟨by decide, by decide, by decide, by decide, fun _ => by decide⟩

theorem ok_fresh : fresh.Ok :=
  ⟨Ring.ok_reset (by decide), Ring.ok_reset (by decide), fun d hd => by cases hd; exact ok_waiting⟩
theorem ok_withIn {q : Ring} (h : q.Ok) : (withIn q).Ok := ⟨h, ok_fresh.output, ok_fresh.dec⟩
theorem ok_withOut {q : Ring} (h : q.Ok) : (withOut q).Ok := ⟨ok_fresh.input, h, ok_fresh.dec⟩
theorem ok_withDec {d : Dec} (h : d.Ok) : (withDec d).Ok :=
  ⟨ok_fresh.input, ok_fresh.output, fun x hx => by cases hx; exact h⟩

theorem admits {r : Role} {a : Agent} {e : Endpoint} {v : Env} (h : (at_ a e v).holds r = true)
    (hc : v.closing = false) (hp : (at_ a e v).unregistered r = none) : (at_ a e v).Admits r e :=
  ⟨h, rfl, hc, hp⟩

theorem no_todo (a b : Agent) (e : Endpoint) (v : Env) : ((at_ a e v).thread b).todo = [] := by cases b <;> rfl

/-- The boundary and the cursors' width suit the endpoint `e`. -/
def suits (e : Endpoint) (v : Env) : Bool :=
  (!v.polledIn || v.handle.serves .input && !v.closing && !v.shutdown) &&
    (!v.polledOut || v.handle.serves .output && !v.closing && !v.shutdown) &&
    fitsCursors v.cursorBits e.input.cap e.output.cap

/-- Agent `a` may have an operation of several steps in progress. -/
def engages (a : Agent) (v : Env) : Bool :=
  (a == .owner) == v.closing && (a != .bgIn || v.polledIn) && (a != .bgOut || v.polledOut)

theorem engaged_at {a : Agent} {e : Endpoint} {v : Env} (h : engages a v = true) : (at_ a e v).Engaged := by
  simp only [engages, Bool.and_eq_true, beq_iff_eq, Bool.or_eq_true, bne_iff_ne, ne_eq] at h
  obtain ⟨⟨h1, h2⟩, h3⟩ := h
  refine ⟨fun hx => ?_, fun hx => ?_, fun hx => h2.resolve_left (fun hn => hn hx),
    fun hx => h3.resolve_left fun hn => hn hx⟩
  · rcases hx with hx | hx
    · cases hx
    · rw [show v.closing = true from hx] at h1; exact (by simpa using h1 : a = _)
  · rw [show a = .owner from hx] at h1; exact h1.symm.trans (by simp)

theorem inv_at {a : Agent} {e : Endpoint} {v : Env} (he : e.Ok)
    (hd : ∀ d, e.dec = some d → d.completing = false) (hs : suits e v = true) : SysInv (at_ a e v) := by
  simp only [suits, fitsCursors, Bool.and_eq_true, Bool.or_eq_true, Bool.not_eq_true', decide_eq_true_eq] at hs
  obtain ⟨⟨hi, ho⟩, hf⟩ := hs
  have hb : ∀ d, v.polled d = true → (v.handle.serves d = true ∧ v.closing = false) ∧ v.shutdown = false := by
    intro d hd; cases d
    · exact hi.resolve_left (by simp only [show v.polledIn = true from hd, Bool.true_eq_false, not_false_eq_true])
    · exact ho.resolve_left (by simp only [show v.polledOut = true from hd, Bool.true_eq_false, not_false_eq_true])
  exact .of_issues (fun b m hm => by rw [no_todo] at hm; cases hm) (fun x hx => by cases hx; exact he)
    (fun x d hx hxd => by cases hx; exact hd d hxd)
    ⟨fun d h => (hb d h).1.1, fun d h => ⟨by simp [at_], (hb d h).1.2, (hb d h).2⟩⟩ (fun x hx => by cases hx; exact hf)

theorem inv_issue {a : Agent} {i : Instr} {e : Endpoint} {v : Env} (he : e.Ok)
    (hd : ∀ d, e.dec = some d → d.completing = false) (hs : suits e v = true) : SysInv (due a [.issue i] e v) :=
  (inv_at (a := a) (v := { v with sched := [.act a] }) he hd hs).pushIssues [i] fun m hm => by
    rw [no_todo] at hm; cases hm

theorem inv_micro {a : Agent} {m : Micro} {e : Endpoint} {v : Env} (he : e.Ok)
    (hd : ∀ d, e.dec = some d → d.completing = false) (hm : m.belongs v.driver.agent a) (hr : m.Ready e)
    (ha : (Task.micro m).isAdvance = false) (hs : suits e v = true) (hen : engages a v = true) :
    SysInv (due a [.micro m] e v) :=
  (inv_at (a := a) (v := { v with sched := [.act a] }) he hd hs).pushOne
    (fun m hm => by rw [no_todo] at hm; cases hm) (engaged_at hen) hm
    (fun x hx => by cases hx; exact hr) ha (.inr fun b _ => by rw [no_todo]; rfl)

theorem quiet {q : Ring} {d : Dec} (h : (withIn q).dec = some d) : d.completing = false := by
  cases h; rfl
theorem quietOut {q : Ring} {d : Dec} (h : (withOut q).dec = some d) : d.completing = false := by
  cases h; rfl

theorem witness_StepKeepsInv : ∃ s t, SysInv s ∧ step s = .next t :=
  ⟨due .rt [.issue (.outEnq 0x90)] (withOut mostBytes), _, inv_issue (ok_withOut ok_mostBytes) (fun _ => quietOut)
    (by decide), rfl⟩

theorem witness_InvStepNeverFaults : ∃ s, SysInv s ∧ (∃ t, step s = .next t) :=
  ⟨due .rt [.issue .inRead] (withIn oneByte), inv_issue (ok_withIn ok_oneByte) (fun _ => quiet) (by decide), _, rfl⟩

theorem witness_CursorOwnership_input_w : ∃ s t e e', SysInv s ∧ step s = .next t ∧ s.ep = some e ∧
    t.ep = some e' ∧ e'.input.w ≠ e.input.w ∧ e'.input.cells ≠ e.input.cells :=
  ⟨due .bgIn [.micro (.inWriteStore 3 [1] 1)] (withIn oneByte), _, _, _,
    inv_micro (ok_withIn ok_oneByte) (fun _ => quiet) rfl ⟨rfl, by decide, by decide⟩ rfl (by decide) rfl, rfl,
    rfl, rfl,
    by decide, by decide⟩
theorem witness_CursorOwnership_input_r : ∃ s t e e', SysInv s ∧ step s = .next t ∧ s.ep = some e ∧
    t.ep = some e' ∧ e'.input.r ≠ e.input.r :=
  ⟨due .rt [.issue .inRead] (withIn oneByte), _, _, _, inv_issue (ok_withIn ok_oneByte) (fun _ => quiet) (by decide),
    rfl, rfl, rfl, by decide⟩
theorem witness_CursorOwnership_output_w : ∃ s t e e', SysInv s ∧ step s = .next t ∧ s.ep = some e ∧
    t.ep = some e' ∧ e'.output.w ≠ e.output.w ∧ e'.output.cells ≠ e.output.cells :=
  ⟨due .rt [.issue (.outEnq 0x90)] (withOut mostBytes), _, _, _,
    inv_issue (ok_withOut ok_mostBytes) (fun _ => quietOut) (by decide), rfl, rfl, rfl, by decide, by decide⟩
theorem witness_CursorOwnership_output_r : ∃ s t e e', SysInv s ∧ step s = .next t ∧ s.ep = some e ∧
    t.ep = some e' ∧ e'.output.r ≠ e.output.r :=
  ⟨due .bgOut [.micro (.drainFinish 3 [9] false)] (withOut oneByte) { polled with writes := [.accepted 1] }, _, _, _,
    inv_micro (ok_withOut ok_oneByte) (fun _ => quietOut) (.inl rfl) ⟨rfl, by decide,
    .inl (by decide)⟩ rfl (by decide) rfl, rfl, rfl, rfl,
    by decide⟩
/-- A handler of the input loop drains. -/
theorem witness_CursorOwnership_handler : ∃ s t e e', SysInv s ∧ step s = .next t ∧ s.ep = some e ∧
    t.ep = some e' ∧ e'.output.r ≠ e.output.r ∧ t.cur = .bgIn ∧ s.driverAgent = .bgIn :=
  ⟨due .bgIn [.micro (.drainFinish 3 [9] false)] (withOut oneByte) { polled with writes := [.accepted 1] }, _, _, _,
    inv_micro (ok_withOut ok_oneByte) (fun _ => quietOut) (.inr ⟨rfl, rfl⟩) ⟨rfl, by decide,
    .inl (by decide)⟩ rfl (by decide) rfl,
    rfl, rfl, rfl, by decide, rfl, rfl⟩
theorem witness_CursorOwnership_no_decoder : ∃ s t e e', SysInv s ∧ step s = .next t ∧ s.ep = some e ∧
    t.ep = some e' ∧ e.dec = none :=
  ⟨due .rt [.issue .inRead] { withIn oneByte with dec := none }, _, _, _,
    inv_issue ⟨ok_oneByte, ok_fresh.output, fun _ h => by cases h⟩ (fun _ h => by cases h) (by decide), rfl, rfl,
    rfl, rfl⟩

theorem witness_StoreWriters_store : ∃ s t e e' d d', SysInv s ∧ step s = .next t ∧ s.ep = some e ∧
    t.ep = some e' ∧ e.dec = some d ∧ e'.dec = some d' ∧ d'.store ≠ d.store ∧ d'.state ≠ d.state :=
  ⟨due .bgIn [.issue (.decByte 0x9F)] fresh, _, _, _, _, _, inv_issue ok_fresh (fun _ h => by cases h; rfl) (by decide),
    rfl, rfl, rfl, rfl, rfl, by decide, by decide⟩
theorem witness_StoreWriters_writeSlot : ∃ s t e e' d d', SysInv s ∧ step s = .next t ∧ s.ep = some e ∧
    t.ep = some e' ∧ e.dec = some d ∧ e'.dec = some d' ∧ d'.writeSlot ≠ d.writeSlot := by
  have h0 : SysInv (at_ .bgIn (withDec late) { polled with sched := [.act .bgIn] }) :=
    inv_at (ok_withDec ok_late) (fun _ h => by cases h; rfl) (by decide)
  have h1 := h0.complete (d := late) (d' := lateDone) (fun m hm => by rw [no_todo] at hm; cases hm)
    ⟨by decide, by decide, by decide, by decide⟩ rfl rfl rfl (by decide) ok_lateDone (by decide) (some .unit)
  exact ⟨_, _, _, _, _, _, h1, rfl, rfl, rfl, rfl, rfl, by decide⟩

theorem witness_CallbackRegisterWriters : ∃ s t e e' d d', step s = .next t ∧ s.ep = some e ∧ t.ep = some e' ∧
    e.dec = some d ∧ e'.dec = some d' ∧ d'.cb ≠ d.cb ∧ d'.cbArg ≠ d.cbArg :=
  ⟨due .bgIn [.issue (.decSetcb (some 5) 7)] fresh, _, _, _, _, _, rfl, rfl, rfl, rfl, rfl, by decide, by decide⟩

theorem witness_ShutdownStopsPolling : ∃ s t e e', SysInv s ∧ s.env.shutdown = true ∧ step s = .next t ∧
    s.ep = some e ∧ t.ep = some e' :=
  ⟨due .rt [.issue .inRead] (withIn oneByte) { Env.reset with shutdown := true, handle := .released }, _, _, _,
    inv_issue (ok_withIn ok_oneByte) (fun _ => quiet) (by decide), rfl, rfl, rfl, rfl⟩

theorem witness_BoundaryEventsDoAsSaid_open : ∃ (s : State) (v : List Event),
    s.env.sched = .openTransport .input true :: v ∧ s.ep = none ∧ s.env.handle.isOpen = false :=
  ⟨{ ownerAlone with env := { Env.reset with handle := .released, sched := [.openTransport .input true] } }, _,
    rfl, rfl, rfl⟩
theorem witness_BoundaryEventsDoAsSaid_open_fails : ∃ (s : State) (v : List Event),
    s.env.sched = .openTransport .both false :: v ∧ s.ep = none ∧ s.env.handle.isOpen = false :=
  ⟨{ ownerAlone with env := { Env.reset with handle := .unopened, sched := [.openTransport .both false] } }, _,
    rfl, rfl, rfl⟩
theorem witness_BoundaryEventsDoAsSaid_open_refused : ∃ (s : State) (v : List Event),
    s.env.sched = .openTransport .both true :: v ∧ s.ep ≠ none :=
  ⟨at_ .rt fresh { Env.reset with sched := [.openTransport .both true] }, _, rfl, by decide⟩
theorem witness_BoundaryEventsDoAsSaid_register : ∃ (s : State) (v : List Event),
    s.env.sched = .register .output :: v ∧ s.ep ≠ none ∧ s.env.handle.serves .output = true ∧
    s.env.closing = false ∧ s.env.shutdown = false :=
  ⟨at_ .rt fresh { Env.reset with handle := .opened .output, sched := [.register .output] }, _, rfl, by decide, rfl,
    rfl, rfl⟩
/-- The input direction, with the output set as it was left. -/
theorem witness_BoundaryEventsDoAsSaid_register_input : ∃ (s : State) (v : List Event),
    s.env.sched = .register .input :: v ∧ s.ep ≠ none ∧ s.env.handle.serves .input = true ∧
    s.env.closing = false ∧ s.env.shutdown = false ∧ s.env.polledOut = true :=
  ⟨at_ .rt fresh { polled with polledIn := false, sched := [.register .input] }, _, rfl, by decide, rfl, rfl, rfl,
    rfl⟩
theorem witness_BoundaryEventsDoAsSaid_register_refused : ∃ (s : State) (v : List Event),
    s.env.sched = .register .input :: v ∧ s.ep ≠ none ∧ s.env.handle.serves .input = false ∧
    s.env.handle.isOpen = true :=
  ⟨at_ .rt fresh { Env.reset with handle := .opened .output, sched := [.register .input] }, _, rfl, by decide, rfl,
    rfl⟩
theorem witness_BoundaryEventsDoAsSaid_shutdown : ∃ (s : State) (v : List Event), s.env.sched = .shutdown :: v ∧
    (s.thread .bgIn).inFlight = false ∧ (s.thread .bgOut).inFlight = false ∧ s.env.handle.isOpen = true ∧
    s.env.polledOut = true := ⟨at_ .rt fresh { polled with sched := [.shutdown] }, _, rfl, rfl, rfl, rfl, rfl⟩
theorem witness_BoundaryEventsDoAsSaid_shutdown_unregistered : ∃ (s : State) (v : List Event),
    s.env.sched = .shutdown :: v ∧ (s.thread .bgIn).inFlight = false ∧ (s.thread .bgOut).inFlight = false ∧
    s.env.handle.isOpen = true ∧ s.env.polledIn = false ∧ s.env.polledOut = false :=
  ⟨at_ .rt fresh { Env.reset with sched := [.shutdown] }, _, rfl, rfl, rfl, rfl, rfl, rfl⟩
theorem witness_BoundaryEventsDoAsSaid_shutdown_waits : ∃ (s : State) (v : List Event),
    s.env.sched = .shutdown :: v ∧ (s.thread .bgIn).inFlight = true :=
  ⟨(at_ .bgIn fresh { polled with sched := [.shutdown] }).push [.micro (.pollDraw 0 8)], _, rfl, by decide⟩

theorem witness_DecodeOfEncode : ∃ i st b, Instr.wellFormed i = true ∧ encode i = some (st, b) :=
  ⟨.discardSysex 0xF6#8, _, _, by decide, rfl⟩

/-- A byte at each end of every range; the two conditions with no range are met by the last two. -/
theorem witness_EveryByteDecodesByTheMap :
    0x7F#8 ≤ 0x7F#8 ∧ (0x80#8 ≤ 0x8F#8 ∧ 0x8F#8 ≤ 0x8F#8) ∧ (0x90#8 ≤ 0x90#8 ∧ 0x90#8 ≤ 0x9F#8) ∧
    (0xA0#8 ≤ 0xAF#8 ∧ 0xAF#8 ≤ 0xAF#8) ∧ (0xB0#8 ≤ 0xBF#8 ∧ 0xBF#8 ≤ 0xBF#8) ∧
    (0xC0#8 ≤ 0xC0#8 ∧ 0xC0#8 ≤ 0xCF#8) ∧ (0xD0#8 ≤ 0xDF#8 ∧ 0xDF#8 ≤ 0xDF#8) ∧
    (0xE0#8 ≤ 0xEF#8 ∧ 0xEF#8 ≤ 0xEF#8) ∧ (0xF1#8 ≤ 0xF6#8 ∧ 0xF6#8 ≤ 0xF6#8) ∧ 0xF8#8 ≤ 0xF8#8 ∧
    0xF8#8 ≠ 0xF7#8 := by decide

theorem witness_StepRunsNextTask_issue : ∃ (s : State) (v : List Event) (i : Instr) (rest : List Task),
    s.env.sched = .act .rt :: v ∧ (s.thread .rt).todo = .issue i :: rest ∧ i.wellFormed = true :=
  ⟨due .rt [.issue .inRead] fresh, _, .inRead, _, rfl, rfl, rfl⟩
theorem witness_StepRunsNextTask_illformed : ∃ (s : State) (v : List Event) (i : Instr) (rest : List Task),
    s.env.sched = .act .bgIn :: v ∧ (s.thread .bgIn).todo = .issue i :: rest ∧ i.wellFormed = false :=
  ⟨due .bgIn [.issue (.inWrite [1] 2)] fresh, _, .inWrite [1] 2, _, rfl, rfl, rfl⟩
theorem witness_StepRunsNextTask_micro : ∃ (s : State) (v : List Event) (m : Micro) (rest : List Task),
    s.env.sched = .act .bgIn :: v ∧ (s.thread .bgIn).todo = .micro m :: rest :=
  ⟨due .bgIn [.micro (.inWriteStore 0 [] 0)] fresh, _, _, _, rfl, rfl⟩
theorem witness_StepRunsNextTask_idle : ∃ (s : State) (v : List Event),
    s.env.sched = .act .rt :: v ∧ (s.thread .rt).todo = [] := ⟨due .rt [] fresh, _, rfl, rfl⟩

theorem witness_StepRunsDecodedByte : ∃ (s : State) (e : Endpoint) (d : Dec) (b : Byte) (i : Instr), s.ep = some e ∧
    e.dec = some d ∧ decode d.state [b] = .ok (i, []) ∧ ∃ t, step (s.withFetchWord 8 b.toNat) = .next t :=
  ⟨State.reset, _, _, 0xEF#8, .pitchbend 15, rfl, rfl, rfl, _, rfl⟩

/-- An unpolled endpoint that the placement polls. -/
theorem witness_StepRunsDecodedByte_unpolled : ∃ (s : State) (e : Endpoint) (d : Dec), s.ep = some e ∧
    e.dec = some d ∧ decode d.state [0xF7] = .ok (.eox, []) ∧ s.env.polledIn = false ∧
    ∃ t, step (s.withFetchWord 8 0xF7) = .next t ∧ t.env.polledIn = true :=
  ⟨at_ .rt (withDec sysex) Env.reset, _, _, rfl, rfl, rfl, rfl, _, rfl, rfl⟩

theorem witness_DecByteIsDecodedInstruction : ∃ (s : State) (e : Endpoint) (d : Dec) (b : Byte) (i : Instr),
    s.ep = some e ∧ e.dec = some d ∧ decodeByte d.state b = some i :=
  ⟨at_ .bgIn (withDec sysex), _, _, 0xF7#8, .eox, rfl, rfl, by decide⟩

theorem witness_StatusRowsStartMessage : ∃ (s : State) (e : Endpoint) (d : Dec), s.Admits .driver e ∧
    e.dec = some d ∧ d.state = .waitingForStatus :=
  ⟨_, fresh, waiting, admits (a := .bgIn) (v := polled) (by decide) rfl rfl, rfl, rfl⟩
/-- The decoder driven by RT. -/
theorem witness_StatusRowsStartMessage_rt : ∃ (s : State) (e : Endpoint) (d : Dec), s.Admits .driver e ∧
    e.dec = some d ∧ d.state = .waitingForStatus ∧ s.cur = .rt :=
  ⟨_, fresh, waiting, admits (a := .rt) (v := { polled with driver := .rt }) (by decide) rfl rfl, rfl, rfl, rfl⟩

theorem witness_SysexRowsMoveState : ∃ (s : State) (e : Endpoint) (d : Dec), s.Admits .driver e ∧ e.dec = some d ∧
    d.state = .receivingSysex :=
  ⟨_, withDec sysex, sysex, admits (a := .bgIn) (v := polled) (by decide) rfl rfl, rfl, rfl⟩

theorem witness_DiscardRowsChangeNothing : ∃ (s : State) (e : Endpoint) (d : Dec), s.Admits .driver e ∧
    e.dec = some d ∧ d.state = .receivingSysex :=
  ⟨_, withDec sysex, sysex, admits (a := .bgIn) (v := polled) (by decide) rfl rfl, rfl, rfl⟩
theorem witness_DiscardRowsChangeNothing_waiting : ∃ (s : State) (e : Endpoint) (d : Dec), s.Admits .driver e ∧
    e.dec = some d ∧ d.state = .waitingForStatus :=
  ⟨_, fresh, waiting, admits (a := .bgIn) (v := polled) (by decide) rfl rfl, rfl, rfl⟩

theorem witness_DataRowStoresByte_more : ∃ (s : State) (e : Endpoint) (d : Dec), s.Admits .driver e ∧ e.dec = some d ∧
    d.Ok ∧ d.state = .accumulatingData ∧ d.elapsed < d.slot.dataByteCount ∧ d.elapsed + 1 ≠ d.slot.dataByteCount :=
  ⟨_, withDec (noteOnAfter 0 (noteOn0 0 0)), _, admits (a := .bgIn) (v := polled) (by decide) rfl rfl, rfl,
    ok_first, rfl,
    by decide, by decide⟩
theorem witness_DataRowStoresByte_last : ∃ (s : State) (e : Endpoint) (d : Dec), s.Admits .driver e ∧ e.dec = some d ∧
    d.Ok ∧ d.state = .accumulatingData ∧ d.elapsed < d.slot.dataByteCount ∧ d.elapsed + 1 = d.slot.dataByteCount ∧
    d.cb = none :=
  ⟨_, withDec late, _, admits (a := .bgIn) (v := polled) (by decide) rfl rfl, rfl, ok_late, rfl, by decide,
    by decide, rfl⟩
theorem witness_DataRowStoresByte_callback : ∃ (s : State) (e : Endpoint) (d : Dec), s.Admits .driver e ∧
    e.dec = some d ∧ d.Ok ∧ d.state = .accumulatingData ∧ d.elapsed < d.slot.dataByteCount ∧
    d.elapsed + 1 = d.slot.dataByteCount ∧ d.cb ≠ none :=
  ⟨_, withDec { late with cb := some 5 }, _, admits (a := .bgIn) (v := polled) (by decide) rfl rfl, rfl,
    ⟨by decide, by decide, by decide, by decide, fun _ => by decide⟩, rfl, by decide, by decide, by decide⟩

theorem witness_CompletionSequence_none : ∃ (s : State) (e : Endpoint) (d : Dec), s.Admits .driver e ∧
    e.dec = some d ∧ d.Ok ∧ d.state = .accumulatingData ∧ d.elapsed + 1 = d.slot.dataByteCount ∧ d.cb = none :=
  ⟨_, withDec late, _, admits (a := .bgIn) (v := polled) (by decide) rfl rfl, rfl, ok_late, rfl, by decide, rfl⟩
theorem witness_CompletionSequence_some : ∃ (s : State) (e : Endpoint) (d : Dec) (h : Handler)
    (script : List Instr) (rest : List (List Instr)), s.Admits .driver e ∧ e.dec = some d ∧ d.Ok ∧
    d.state = .accumulatingData ∧ d.elapsed + 1 = d.slot.dataByteCount ∧ d.cb = some h ∧
    s.env.scripts = script :: rest :=
  ⟨_, withDec { late with cb := some 5 }, _, 5, [.mqAvail 0], [],
    admits (a := .bgIn) (v := { polled with scripts := [[.mqAvail 0]] }) (by decide) rfl rfl, rfl,
    ⟨by decide, by decide, by decide, by decide, fun _ => by decide⟩, rfl, by decide, rfl, rfl⟩

theorem witness_CallbackEntryPassesRecord : ∃ (s : State) (e : Endpoint) (d : Dec) (h : Handler) (script : List Instr)
    (rest : List (List Instr)), s.ep = some e ∧ e.dec = some d ∧ d.cb = some h ∧ s.env.scripts = script :: rest ∧
    script ≠ [] :=
  ⟨at_ .bgIn (withDec { late with cb := some 5 }) { polled with scripts := [[.mqAvail 0]] }, _, _, 5, [.mqAvail 0], [],
    rfl, rfl, rfl, rfl, by decide⟩

theorem witness_DecByteFeedsDecoder : ∃ (s : State) (e : Endpoint) (d : Dec), s.Admits .driver e ∧ e.dec = some d ∧
    d.Ok ∧ d.completing = false ∧ d.cb = none :=
  ⟨_, withDec late, _, admits (a := .bgIn) (v := polled) (by decide) rfl rfl, rfl, ok_late, by decide, rfl⟩

/-- Also of `DecParseStreams`, which has the same hypotheses. -/
theorem witness_DecParseFeedsEveryByte : ∃ (s : State) (e : Endpoint) (d : Dec), s.Admits .driver e ∧
    e.dec = some d ∧ d.Ok ∧ d.completing = false ∧ d.cb = none :=
  ⟨_, fresh, waiting, admits (a := .bgIn) (v := polled) (by decide) rfl rfl, rfl, ok_waiting, by decide, rfl⟩

theorem witness_DecParseStreams : ∃ (s : State) (e : Endpoint) (d : Dec), s.Admits .driver e ∧
    e.dec = some d ∧ d.Ok ∧ d.completing = false ∧ d.cb = none :=
  ⟨_, withDec (noteOnAfter 0 (noteOn0 0 0)), _, admits (a := .bgIn) (v := polled) (by decide) rfl rfl, rfl, ok_first,
    by decide, rfl⟩

theorem witness_DecParseCallsBackInOrder : ∃ (s : State) (e : Endpoint) (d : Dec) (h : Handler) (bytes : List Byte)
    (rest : List (List Instr)), s.Admits .driver e ∧ e.dec = some d ∧ d.Ok ∧ d.completing = false ∧ d.cb = some h ∧
    s.env.scripts = List.replicate (d.messages bytes).length [] ++ rest ∧ (d.messages bytes).length = 2 :=
  ⟨_, withDec { late with cb := some 5 }, _, 5, [0x7F, 0xC1, 0x05], [],
    admits (a := .bgIn) (v := { polled with scripts := [[], []] }) (by decide) rfl rfl, rfl,
    ⟨by decide, by decide, by decide, by decide, fun _ => by decide⟩, by decide, rfl, by decide, by decide⟩

theorem witness_OneMessagePerStatusByte : ∃ (d : Dec) (b : Byte) (data stray : List Byte), d.Ok ∧
    d.state = .waitingForStatus ∧ 0x80#8 ≤ b ∧ b < 0xF0#8 ∧ data.length = (tableType (hiNibble b)).count.toNat ∧
    (∀ x ∈ stray, x < 0x80#8) ∧ stray ≠ [] :=
  ⟨waiting, 0xEF#8, [0xF8, 0x80], [0x7F, 0x00], ok_waiting, rfl, by decide, by decide, by decide, by decide, by decide⟩
theorem witness_OneMessagePerStatusByte_one : ∃ (d : Dec) (b : Byte) (data : List Byte), d.Ok ∧
    d.state = .waitingForStatus ∧ 0x80#8 ≤ b ∧ b < 0xF0#8 ∧ data.length = (tableType (hiNibble b)).count.toNat ∧
    data.length = 1 :=
  ⟨waiting, 0xC0#8, [0xFF], ok_waiting, rfl, by decide, by decide, by decide, by decide⟩

theorem witness_SysexBlockProducesNothing : ∃ (d : Dec) (payload : List Byte), d.state = .waitingForStatus ∧
    (∀ b ∈ payload, b ≠ 0xF7#8) ∧ payload ≠ [] :=
  ⟨waiting, [0x90, 0xF0, 0xF6, 0xF8], rfl, by decide, by decide⟩

theorem witness_MessagesStandInDecodeOrder : ∃ (d : Dec) (bytes : List Byte) (j : Nat), d.Ok ∧
    d.completing = false ∧ j < (d.messages bytes).length ∧ (d.messages bytes).length < j + d.store.length ∧
    (d.messages bytes).length = 4 :=
  ⟨waiting, [0xC0, 1, 0xC0, 2, 0xC0, 3, 0xC0, 4], 1, ok_waiting, by decide, by decide, by decide, by decide⟩

theorem witness_SetcbWritesBothRegisters : ∃ (s : State) (e : Endpoint) (d : Dec), s.Admits .registrar e ∧
    e.dec = some d ∧ (d.completing = true → s.cur = s.driverAgent) ∧ d.completing = true :=
  ⟨_, withDec (noteOnAfter 2 (noteOn0 1 2)), _, admits (a := .bgIn) (v := polled) (by decide) rfl rfl, rfl,
    fun _ => rfl,
    by decide⟩
theorem witness_SetcbWritesBothRegisters_owner : ∃ (s : State) (e : Endpoint) (d : Dec), s.Admits .registrar e ∧
    e.dec = some d ∧ d.completing = false ∧ s.cur = .owner :=
  ⟨_, fresh, waiting, admits (a := .owner) (v := Env.reset) (by decide) rfl rfl, rfl, by decide, rfl⟩

theorem witness_InWriteAcceptsFirstBytes : ∃ (s : State) (e : Endpoint), s.Admits .producerIn e ∧ e.input.Ok :=
  ⟨_, withIn mostBytes, admits (a := .bgIn) (v := polled) (by decide) rfl rfl, ok_mostBytes⟩

theorem witness_InWriteStoreSparesUnread : ∃ (s : State) (e : Endpoint) (rs : Nat), s.ep = some e ∧ e.input.Ok ∧
    e.input.Snapshot rs ∧ rs ≠ e.input.r :=
  ⟨at_ .bgIn (withIn oneByte), _, 1, rfl, ok_oneByte, ⟨by decide, by decide⟩, by decide⟩

theorem witness_FullInputReadsEmpty : ∃ (s : State) (e : Endpoint) (bytes : List Byte), s.Admits .producerIn e ∧
    e.input.Ok ∧ e.input.free ≤ bytes.length :=
  ⟨_, withIn mostBytes, [1], admits (a := .bgIn) (v := polled) (by decide) rfl rfl, ok_mostBytes, by decide⟩

theorem witness_InReadTakesOldest_empty : ∃ (s : State) (e : Endpoint), s.Admits .consumerIn e ∧ e.input.Ok ∧
    e.input.r = e.input.w :=
  ⟨_, withIn noByte, admits (a := .rt) (v := polled) (by decide) rfl rfl, ok_noByte, rfl⟩
theorem witness_InReadTakesOldest_some : ∃ (s : State) (e : Endpoint), s.Admits .consumerIn e ∧ e.input.Ok ∧
    e.input.r ≠ e.input.w :=
  ⟨_, withIn oneByte, admits (a := .rt) (v := polled) (by decide) rfl rfl, ok_oneByte, by decide⟩

theorem witness_InputIsFirstInFirstOut_write : ∃ s t e e', SysInv s ∧ step s = .next t ∧ s.ep = some e ∧
    t.ep = some e' ∧ e'.input.queue ≠ e.input.queue ∧ t.cur = .bgIn :=
  ⟨due .bgIn [.micro (.inWriteStore 3 [1] 1)] (withIn mostBytes), _, _, _,
    inv_micro (ok_withIn ok_mostBytes) (fun _ => quiet) rfl ⟨rfl, by decide, by decide⟩ rfl (by decide) rfl, rfl,
    rfl, rfl,
    by decide, rfl⟩
theorem witness_InputIsFirstInFirstOut_read : ∃ s t e e', SysInv s ∧ step s = .next t ∧ s.ep = some e ∧
    t.ep = some e' ∧ e'.input.queue ≠ e.input.queue ∧ t.cur = .rt :=
  ⟨due .rt [.issue .inRead] (withIn oneByte), _, _, _, inv_issue (ok_withIn ok_oneByte) (fun _ => quiet) (by decide),
    rfl, rfl, rfl, by decide, rfl⟩

theorem witness_OutEnqStoresUnconditionally : ∃ (s : State) (e : Endpoint), s.Admits .producerOut e ∧
    e.output.w < e.output.cap :=
  ⟨_, withOut noByte, admits (a := .rt) (v := polled) (by decide) rfl rfl, by decide⟩

theorem witness_OutEnqOverflowEmptiesRing_room : ∃ (s : State) (e : Endpoint), s.Admits .producerOut e ∧
    e.output.Ok ∧ e.output.unread < e.output.cap - 1 :=
  ⟨_, withOut oneByte, admits (a := .rt) (v := polled) (by decide) rfl rfl, ok_oneByte, by decide⟩
theorem witness_OutEnqOverflowEmptiesRing_full : ∃ (s : State) (e : Endpoint), s.Admits .producerOut e ∧
    e.output.Ok ∧ e.output.unread = e.output.cap - 1 :=
  ⟨_, withOut mostBytes, admits (a := .rt) (v := polled) (by decide) rfl rfl, ok_mostBytes, by decide⟩

theorem witness_OutEnqnEnqueuesInOrder : ∃ (s : State) (e : Endpoint), s.Admits .producerOut e ∧ e.output.Ok :=
  ⟨_, withOut mostBytes, admits (a := .rt) (v := polled) (by decide) rfl rfl, ok_mostBytes⟩

theorem witness_DrainOfEmptyRing : ∃ (s : State) (e : Endpoint), s.Admits .consumerOut e ∧
    s.env.handle.serves .output = true ∧ e.output.w = e.output.r :=
  ⟨_, withOut noByte, admits (a := .bgOut) (v := polled) (by decide) rfl rfl, rfl, rfl⟩

theorem witness_DrainSendsBurst : ∃ (s : State) (e : Endpoint) (ans : WriteAnswer) (rest : List WriteAnswer),
    s.Admits .consumerOut e ∧ s.env.handle.serves .output = true ∧ e.output.Ok ∧ e.output.unread ≠ 0 ∧
    s.env.writes = ans :: rest :=
  ⟨_, withOut mostBytes, .accepted 9, [],
    admits (a := .bgOut) (v := { polled with writes := [.accepted 9] }) (by decide) rfl rfl, rfl, ok_mostBytes,
    by decide, rfl⟩
theorem witness_DrainSendsBurst_error : ∃ (s : State) (e : Endpoint) (rest : List WriteAnswer),
    s.Admits .consumerOut e ∧ s.env.handle.serves .output = true ∧ e.output.Ok ∧ e.output.unread ≠ 0 ∧
    s.env.writes = .error :: rest :=
  ⟨_, withOut oneByte, [], admits (a := .bgOut) (v := { polled with writes := [.error] }) (by decide) rfl rfl, rfl,
    ok_oneByte, by decide, rfl⟩

theorem witness_DrainReadsByteAsItStands : ∃ (s : State) (e : Endpoint) (r0 n i : Nat) (b : Byte), s.ep = some e ∧
    Memory.read e.output.cells ((r0 + i) % e.output.cap) = some b ∧ i + 1 < n :=
  ⟨at_ .bgOut (withOut mostBytes), _, 3, 3, 1, 5, rfl, by decide, by decide⟩
theorem witness_DrainReadsByteAsItStands_last : ∃ (s : State) (e : Endpoint) (r0 n i : Nat) (b : Byte),
    s.ep = some e ∧ Memory.read e.output.cells ((r0 + i) % e.output.cap) = some b ∧ ¬ i + 1 < n :=
  ⟨at_ .bgOut (withOut mostBytes), _, 3, 3, 2, 6, rfl, by decide, by decide⟩

theorem todo_due (a b : Agent) (ts : List Task) (e : Endpoint) (v : Env) :
    ((due a ts e v).thread b).todo = if b = a then ts else [] := by
  cases a <;> cases b <;> simp [due, State.push, at_, idle, State.setThread, State.thread, Threads.set, Threads.get,
    Thread.idle]

theorem coherent_of_idle {a : Agent} {i : Instr} {e : Endpoint} {v : Env} :
    OutputCoherent (due a [.issue i] e v) := by
  have h : ∀ b m, Task.micro m ∉ ((due a [.issue i] e v).thread b).todo := by
    intro b m hm; rw [todo_due] at hm; split at hm <;> simp at hm
  exact fun x _ => ⟨fun _ _ _ _ _ _ hm => absurd hm (h _ _), fun _ _ _ _ hm => absurd hm (h _ _)⟩

theorem witness_OutputIsSentInOrder_enqueue : ∃ s t e e', SysInv s ∧ OutputCoherent s ∧ step s = .next t ∧
    s.ep = some e ∧ t.ep = some e' ∧ e'.output.w ≠ e.output.w ∧ e.output.unread + 1 < e.output.cap :=
  ⟨due .rt [.issue (.outEnq 0x90)] (withOut oneByte), _, _, _, inv_issue (ok_withOut ok_oneByte)
    (fun _ => quietOut) (by decide),
    coherent_of_idle, rfl, rfl, rfl, by decide, by decide⟩
theorem witness_OutputIsSentInOrder_send : ∃ s t e e', SysInv s ∧ OutputCoherent s ∧ step s = .next t ∧
    s.ep = some e ∧ t.ep = some e' ∧ e'.output.w = e.output.w ∧ t.env.sent ≠ s.env.sent :=
  ⟨due .bgOut [.micro (.drainFinish 3 [9] false)] (withOut oneByte) { polled with writes := [.accepted 1] }, _, _, _,
    inv_micro (ok_withOut ok_oneByte) (fun _ => quietOut) (.inl rfl) ⟨rfl, by decide,
    .inl (by decide)⟩ rfl (by decide) rfl,
    fun x hx => by
      cases hx
      refine ⟨fun _ _ _ _ _ _ hm => ?_, fun _ _ _ _ hm => ?_⟩ <;> rw [todo_due] at hm <;> split at hm <;> simp at hm
      obtain ⟨-, rfl, -⟩ := hm
      exact ⟨[], by decide⟩,
    rfl, rfl, rfl, rfl, by decide⟩

theorem witness_MqAvailCountsPending : ∃ (s : State) (e : Endpoint) (d : Dec) (c : Nat), s.Admits .reader e ∧
    e.dec = some d ∧ d.Ok ∧ c < d.store.length :=
  ⟨_, fresh, waiting, 3, admits (a := .rt) (v := polled) (by decide) rfl rfl, rfl, ok_waiting, by decide⟩

theorem witness_MqPeekReturnsRecord : ∃ (s : State) (e : Endpoint) (d : Dec) (i : Nat) (m : Message),
    s.Admits .reader e ∧ e.dec = some d ∧ d.store[i]? = some m :=
  ⟨_, withDec late, late, 3, noteOn0 0x40 0, admits (a := .bgOut) (v := polled) (by decide) rfl rfl, rfl, rfl⟩

theorem witness_RacingPeekIsOldOrNewByField : ∃ (s : State) (e : Endpoint) (d : Dec) (i : Nat) (old new : Message),
    s.ep = some e ∧ e.dec = some d ∧ d.store[i]? = some new ∧ old ≠ new :=
  ⟨at_ .rt (withDec late), _, late, 3, Message.blank, noteOn0 0x40 0, rfl, rfl, rfl, by decide⟩

theorem witness_MqNextReturnsOldestPending_none : ∃ (s : State) (e : Endpoint) (d : Dec) (c : Nat) (m : Message),
    s.Admits .reader e ∧ e.dec = some d ∧ d.Ok ∧ d.store[c]? = some m ∧ c = d.writeSlot :=
  ⟨_, withDec late, late, 3, noteOn0 0x40 0, admits (a := .rt) (v := polled) (by decide) rfl rfl, rfl, ok_late,
    rfl, rfl⟩
theorem witness_MqNextReturnsOldestPending_some : ∃ (s : State) (e : Endpoint) (d : Dec) (c : Nat) (m : Message),
    s.Admits .reader e ∧ e.dec = some d ∧ d.Ok ∧ d.store[c]? = some m ∧ c ≠ d.writeSlot :=
  ⟨_, withDec late, late, 0, noteOn0 1 2, admits (a := .rt) (v := polled) (by decide) rfl rfl, rfl, ok_late, rfl,
    by decide⟩

/-- Also of the statement about `ENC.PITCHBEND`. -/
theorem witness_EncoderEmitsMaskedBytes : ∃ (s : State) (e : Endpoint), s.Admits .producerOut e ∧ e.output.Ok :=
  ⟨_, withOut mostBytes, admits (a := .rt) (v := polled) (by decide) rfl rfl, ok_mostBytes⟩
theorem witness_EncoderPitchbendEmitsMaskedBytes : ∃ (s : State) (e : Endpoint), s.Admits .producerOut e ∧
    e.output.Ok := ⟨_, withOut noByte, admits (a := .rt) (v := polled) (by decide) rfl rfl, ok_noByte⟩

theorem witness_EncodeDecodeRoundTrip : ∃ (s : State) (e : Endpoint) (T : MsgType) (d : Dec), s.Admits .producerOut e ∧
    e.output.Ok ∧ T = .pitchBend ∧ e.output.unread + 1 + T.count.toNat < e.output.cap ∧ d.Ok ∧
    d.state = .waitingForStatus :=
  ⟨_, withOut noByte, _, waiting, admits (a := .rt) (v := polled) (by decide) rfl rfl, ok_noByte, rfl, by decide,
    ok_waiting, rfl⟩

theorem witness_InPollEndsOnWouldBlockOrError : ∃ (s : State) (e : Endpoint), s.Admits .producerIn e ∧
    s.env.handle.serves .input = true :=
  ⟨_, withIn mostBytes, admits (a := .bgIn) (v := polled) (by decide) rfl rfl, rfl⟩
theorem witness_InPollEndsOnWouldBlockOrError_wouldBlock : ∃ (s : State) (rest : List ReadAnswer),
    s.env.reads = .wouldBlock :: rest := ⟨at_ .bgIn fresh { polled with reads := [.wouldBlock] }, _, rfl⟩
theorem witness_InPollEndsOnWouldBlockOrError_error : ∃ (s : State) (rest : List ReadAnswer),
    s.env.reads = .error :: rest := ⟨at_ .bgIn fresh { polled with reads := [.error] }, _, rfl⟩

theorem witness_InPollFeedsDecoder_fewer : ∃ (s : State) (e : Endpoint) (d : Dec) (data : List Byte)
    (rest : List ReadAnswer), s.Admits .producerIn e ∧ s.env.handle.serves .input = true ∧
    e.input.Ok ∧ e.dec = some d ∧ s.env.driver = .bg ∧ d.Ok ∧ d.completing = false ∧ d.cb = none ∧
    s.env.reads = .read data :: rest ∧ data.length < e.input.free :=
  ⟨_, withIn oneByte, waiting, [0x90, 0x40], [],
    admits (a := .bgIn) (v := { polled with reads := [.read [0x90, 0x40]] }) (by decide) rfl rfl, rfl, ok_oneByte,
    rfl, rfl, ok_waiting, by decide, rfl, rfl, by decide⟩
theorem witness_InPollFeedsDecoder_full : ∃ (s : State) (e : Endpoint) (d : Dec) (data : List Byte)
    (rest : List ReadAnswer), s.Admits .producerIn e ∧ s.env.handle.serves .input = true ∧
    e.input.Ok ∧ e.dec = some d ∧ s.env.driver = .bg ∧ d.Ok ∧ d.completing = false ∧ d.cb = none ∧
    s.env.reads = .read data :: rest ∧ data.length = e.input.free :=
  ⟨_, withIn mostBytes, waiting, [0x90], [],
    admits (a := .bgIn) (v := { polled with reads := [.read [0x90]] }) (by decide) rfl rfl, rfl, ok_mostBytes,
    rfl, rfl, ok_waiting, by decide, rfl, rfl, by decide⟩

theorem witness_InPollWithoutFeed_no_decoder : ∃ (s : State) (e : Endpoint) (data : List Byte)
    (rest : List ReadAnswer), s.Admits .producerIn e ∧ s.env.handle.serves .input = true ∧
    e.input.Ok ∧ e.dec = none ∧ s.env.reads = .read data :: rest ∧ data.length < e.input.free :=
  ⟨_, { withIn oneByte with dec := none }, [], [],
    admits (a := .bgIn) (v := { polled with reads := [.read []] }) (by decide) rfl rfl, rfl, ok_oneByte, rfl, rfl,
    by decide⟩
theorem witness_InPollWithoutFeed_rt : ∃ (s : State) (e : Endpoint) (data : List Byte)
    (rest : List ReadAnswer), s.Admits .producerIn e ∧ s.env.handle.serves .input = true ∧
    e.input.Ok ∧ s.env.driver = .rt ∧ s.env.reads = .read data :: rest ∧ data.length = e.input.free :=
  ⟨_, withIn mostBytes, [0x90], [],
    admits (a := .bgIn) (v := { polled with reads := [.read [0x90]], driver := .rt }) (by decide) rfl rfl, rfl,
    ok_mostBytes, rfl, rfl, by decide⟩

theorem witness_InPollAcceptsAllItRead : ∃ (s : State) (e : Endpoint) (rs w0 f : Nat) (data : List Byte), SysInv s ∧
    s.ep = some e ∧ Task.micro (.pollStore rs w0 f data) ∈ (s.thread .bgIn).todo :=
  ⟨due .bgIn [.micro (.pollStore 3 2 1 [7])] (withIn mostBytes), _, 3, 2, 1, [7],
    inv_micro (ok_withIn ok_mostBytes) (fun _ => quiet) rfl ⟨rfl, by decide, by decide, by decide,
    by decide⟩ rfl (by decide) rfl,
    rfl, by decide⟩

theorem witness_OutPollDrainsOnce : ∃ (s : State) (e : Endpoint) (ans : WriteAnswer) (rest : List WriteAnswer),
    s.Admits .consumerOut e ∧ s.env.handle.serves .output = true ∧ e.output.Ok ∧
    e.output.unread ≠ 0 ∧ s.env.writes = ans :: rest :=
  ⟨_, withOut mostBytes, .accepted 2, [],
    admits (a := .bgOut) (v := { polled with writes := [.accepted 2] }) (by decide) rfl rfl, rfl, ok_mostBytes,
    by decide, rfl⟩
/-- From inside a handler of the input loop. -/
theorem witness_OutPollDrainsOnce_handler : ∃ (s : State) (e : Endpoint) (ans : WriteAnswer)
    (rest : List WriteAnswer), s.Admits .consumerOut e ∧ s.env.handle.serves .output = true ∧ e.output.Ok ∧
    e.output.unread ≠ 0 ∧ s.env.writes = ans :: rest ∧ s.cur = .bgIn :=
  ⟨_, { withOut mostBytes with dec := some lateDone }, .error, [],
    admits (a := .bgIn) (v := { polled with writes := [.error] }) (by decide) rfl rfl, rfl, ok_mostBytes,
    by decide, rfl, rfl⟩

/-- Both capacities as large as the cursors can hold. -/
theorem witness_EpResetCreatesEndpoint : ∃ (s : State) (capIn capOut : Nat), s.cur = .owner ∧ s.ep = none ∧
    s.env.handle.isOpen = true ∧ capIn = 2 ^ s.env.cursorBits ∧ capOut = 2 ^ s.env.cursorBits :=
  ⟨{ ownerAlone with env := { Env.reset with cursorBits := 3 } }, 8, 8, rfl, rfl, rfl, rfl, rfl⟩

theorem witness_EpCloseTearsDownInOrder_open : ∃ (s : State) (e : Endpoint), s.Admits .owner e ∧
    (s.thread .bgOut).inFlight = true ∧ (s.thread .rt).inFlight = false ∧ s.env.handle.isOpen = true :=
  ⟨{ at_ .owner fresh with threads := { idle with bgOut := ⟨[.micro (.drainFinish 0 [1] true)], none⟩ } }, fresh,
    ⟨by decide, rfl, rfl, by decide⟩, by decide, by decide, rfl⟩
/-- After the shutdown. -/
theorem witness_EpCloseTearsDownInOrder_released : ∃ (s : State) (e : Endpoint), s.Admits .owner e ∧
    s.env.handle.isOpen = false :=
  ⟨_, fresh, admits (a := .owner) (v := { Env.reset with shutdown := true, handle := .released }) (by decide) rfl rfl,
    rfl⟩

theorem witness_RoleMatrixIsEnforced : ∃ (s : State) (i : Instr), mayIssue s s.cur i = false ∧ s.ep ≠ none :=
  ⟨at_ .owner fresh, .decSetcb none 0, by decide, by decide⟩
/-- The other loop drains. -/
theorem witness_RoleMatrixIsEnforced_draining : ∃ (s : State) (i : Instr), mayIssue s s.cur i = false ∧
    s.inHandler = true ∧ i = .outDrain :=
  ⟨{ at_ .bgIn (withDec lateDone) with threads := { idle with bgOut := ⟨[.micro (.drainFinish 0 [1] true)], none⟩ } },
    .outDrain, by decide, by decide, rfl⟩

theorem witness_UndefinedExecutionsAreRefused_no_endpoint : ∃ (s : State) (i : Instr),
    mayIssue s s.cur i = true ∧ (∀ a b c h, i ≠ .epReset a b c h) ∧ s.ep = none :=
  ⟨ownerAlone, .epClose, by decide, by simp, rfl⟩
/-- The handler of a completion that the close found in progress, in a state no run reaches. -/
theorem witness_UndefinedExecutionsAreRefused_closing : ∃ (s : State) (i : Instr),
    mayIssue s s.cur i = true ∧ (∀ a b c h, i ≠ .epReset a b c h) ∧ s.ep ≠ none ∧
    s.env.closing = true ∧ s.inHandler = true :=
  ⟨at_ .bgIn (withDec lateDone) { polled with closing := true }, .mqAvail 0, by decide, by simp, by decide, rfl,
    by decide⟩
theorem witness_UndefinedExecutionsAreRefused_unregistered_in : ∃ (s : State) (i : Instr),
    mayIssue s s.cur i = true ∧ s.ep ≠ none ∧ s.env.closing = false ∧ s.cur = .bgIn ∧ s.env.polledIn = false ∧
    i = .decByte 0x90 :=
  ⟨at_ .bgIn fresh Env.reset, .decByte 0x90, by decide, by decide, rfl, rfl, rfl, rfl⟩
theorem witness_UndefinedExecutionsAreRefused_unregistered_out : ∃ (s : State) (i : Instr),
    mayIssue s s.cur i = true ∧ s.ep ≠ none ∧ s.env.closing = false ∧ s.cur = .bgOut ∧ s.env.polledOut = false ∧
    i = .outPoll :=
  ⟨at_ .bgOut fresh { polled with polledOut := false }, .outPoll, by decide, by decide, rfl, rfl, rfl, rfl⟩
theorem witness_UndefinedExecutionsAreRefused_unregistered_handler : ∃ (s : State) (i : Instr),
    mayIssue s s.cur i = true ∧ s.ep ≠ none ∧ s.env.closing = false ∧ s.cur = .bgIn ∧ s.env.polledIn = true ∧
    s.env.polledOut = false ∧ i = .outDrain :=
  ⟨at_ .bgIn (withDec lateDone) { polled with polledOut := false }, .outDrain, by decide, by decide, rfl, rfl, rfl,
    rfl, rfl⟩
/-- RT is not in BG's sets, and needs no registration. -/
theorem witness_UndefinedExecutionsAreRefused_no_decoder : ∃ (s : State) (e : Endpoint) (i : Instr),
    mayIssue s s.cur i = true ∧ (∀ a b c h, i ≠ .epReset a b c h) ∧ s.ep = some e ∧
    s.env.closing = false ∧ s.cur = .rt ∧ e.dec = none ∧ needsDecoder i = true :=
  ⟨at_ .rt { fresh with dec := none } Env.reset, _, .mqAvail 0, by decide, by simp, rfl, rfl, rfl, rfl, rfl⟩
theorem witness_UndefinedExecutionsAreRefused_handle_in : ∃ (s : State) (i : Instr),
    mayIssue s s.cur i = true ∧ s.ep ≠ none ∧ s.env.closing = false ∧ s.env.polledIn = true ∧
    s.env.handle.serves .input = false ∧ i = .inPoll :=
  ⟨at_ .bgIn fresh { polled with handle := .opened .output }, .inPoll, by decide, by decide, rfl, rfl, rfl, rfl⟩
theorem witness_UndefinedExecutionsAreRefused_handle_out : ∃ (s : State) (i : Instr),
    mayIssue s s.cur i = true ∧ s.ep ≠ none ∧ s.env.closing = false ∧ s.env.polledOut = true ∧
    s.env.handle.serves .output = false ∧ i = .outDrain :=
  ⟨at_ .bgOut fresh { polled with handle := .released }, .outDrain, by decide, by decide, rfl, rfl, rfl, rfl⟩
theorem witness_UndefinedExecutionsAreRefused_reentry : ∃ (s : State) (e : Endpoint) (d : Dec) (i : Instr),
    mayIssue s s.cur i = true ∧ s.ep = some e ∧ s.env.closing = false ∧ s.env.polledIn = true ∧
    e.dec = some d ∧ d.completing = true ∧ i = .data 0x40 :=
  ⟨at_ .bgIn (withDec (noteOnAfter 2 (noteOn0 1 2))), _, _, .data 0x40, by decide, rfl, rfl, rfl, rfl, by decide, rfl⟩
theorem witness_UndefinedExecutionsAreRefused_reentry_parse : ∃ (s : State) (e : Endpoint) (d : Dec) (i : Instr),
    mayIssue s s.cur i = true ∧ s.ep = some e ∧ s.env.closing = false ∧ s.cur = .rt ∧
    e.dec = some d ∧ d.completing = true ∧ i = .decParse [] 0 :=
  ⟨at_ .rt (withDec lateDone) { polled with driver := .rt }, _, _, .decParse [] 0, by decide, rfl, rfl, rfl, rfl,
    by decide, rfl⟩
/-- RT drives the decoder, so a byte may be decoded before polling begins. -/
theorem witness_UndefinedExecutionsAreRefused_setcb : ∃ (s : State) (e : Endpoint) (d : Dec) (i : Instr),
    mayIssue s s.cur i = true ∧ s.ep = some e ∧ s.env.closing = false ∧ s.cur = .owner ∧
    e.dec = some d ∧ d.completing = true ∧ i = .decSetcb none 0 :=
  ⟨at_ .owner (withDec lateDone) { Env.reset with driver := .rt }, _, _, .decSetcb none 0, by decide, rfl, rfl, rfl,
    rfl, by decide, rfl⟩
theorem witness_UndefinedExecutionsAreRefused_slot : ∃ (s : State) (e : Endpoint) (d : Dec) (c : Nat),
    mayIssue s s.cur (.mqNext c) = true ∧ s.ep = some e ∧ s.env.closing = false ∧ s.cur = .rt ∧
    e.dec = some d ∧ d.store.length ≤ c :=
  ⟨at_ .rt fresh, _, waiting, 4, by decide, rfl, rfl, rfl, rfl, by decide⟩
theorem witness_UndefinedExecutionsAreRefused_row : ∃ (s : State) (e : Endpoint) (d : Dec) (i : Instr)
    (st : DecState) (b : Byte), mayIssue s s.cur i = true ∧ s.ep = some e ∧
    s.env.closing = false ∧ s.env.polledIn = true ∧ e.dec = some d ∧ encode i = some (st, b) ∧ d.state ≠ st :=
  ⟨at_ .bgIn fresh, _, waiting, .eox, _, _, by decide, rfl, rfl, rfl, rfl, rfl, by decide⟩

theorem witness_EpResetNeedsNoEndpointAndOpenTransport_live : ∃ s : State, s.cur = .owner ∧ s.ep ≠ none :=
  ⟨at_ .owner fresh, rfl, by decide⟩
theorem witness_EpResetNeedsNoEndpointAndOpenTransport_failed : ∃ s : State, s.cur = .owner ∧ s.ep = none ∧
    s.env.handle.isOpen = false := ⟨{ ownerAlone with env := { Env.reset with handle := .failed } }, rfl, rfl, rfl⟩
theorem witness_EpResetNeedsNoEndpointAndOpenTransport_width : ∃ (s : State) (a : Nat), s.cur = .owner ∧
    s.ep = none ∧ s.env.handle.isOpen = true ∧ 2 ^ s.env.cursorBits < a :=
  ⟨{ ownerAlone with env := { Env.reset with cursorBits := 3 } }, 9, rfl, rfl, rfl, by decide⟩

end Sys2Proof.Tests
end

section
/-! SUPPORT. A step as one agent's turn: its first task is off its list, and what the rest of the work and the
invariant still say. -/

namespace Sys2Proof.Machine

/-! ### The event a step takes -/

/-- A step takes one event, the schedule or the counter of free values moved on before it. -/
theorem step_eq_takeEvent (s : State) :
    ∃ v x, s.env.SameBoundary v ∧ step s = takeEvent x (s.setEnv v) := by
  unfold step
  split
  · refine ⟨_, _, ?_, rfl⟩; exact ⟨rfl, rfl, rfl, rfl, rfl, rfl, rfl⟩
  · refine ⟨_, _, ?_, rfl⟩; exact ⟨rfl, rfl, rfl, rfl, rfl, rfl, rfl⟩

/-- An agent waits, or runs the first task of its list. -/
theorem runAgent_cases {a : Agent} {s : State} {o : Outcome} (h : runAgent a s = o) :
    o = .next s ∨ ∃ k rest, (s.thread a).todo = k :: rest ∧ runTask k (s.turnOf a rest) = o := by
  unfold runAgent at h
  split at h
  · exact .inl h.symm
  · exact .inr ⟨_, _, ‹_›, h⟩

/-! ### Drains and completions in the agents' lists -/

theorem isAdvance_eq_true {k : Task} : k.isAdvance = true ↔ ∃ fin, k = .micro (.advance fin) := by
  constructor
  · intro h
    match k, h with
    | .micro (.advance fin), _ => exact ⟨fin, rfl⟩
  · rintro ⟨fin, rfl⟩; rfl

theorem headOnly_of_isDrain {m : Micro} (h : (Task.micro m).isDrain = true) : m.headOnly = true := by
  cases m with
  | drainRead | drainFinish => rfl
  | _ => cases h

/-- A drain is a step of one of BG's loops (60_exceptions.md R263). -/
theorem Micro.belongs.loop_of_isDrain {drv a : Agent} {m : Micro} (hb : m.belongs drv a)
    (h : (Task.micro m).isDrain = true) : a = .bgIn ∨ a = .bgOut := by
  cases m with
  | drainRead | drainFinish => exact hb.symm.imp And.left id
  | _ => cases h

theorem any_isDrain_eq_false {ts : List Task} :
    ts.any Task.isDrain = false ↔ ∀ m, Task.micro m ∈ ts → (Task.micro m).isDrain = false := by
  rw [List.any_eq_false]
  constructor
  · exact fun h m hm => by simpa using h _ hm
  · intro h k hk
    cases k with
    | issue i => simp [Task.isDrain]
    | micro m => simp [h m hk]

theorem draining_eq_false {s : State} : s.draining = false ↔
    (s.thread .bgIn).todo.any Task.isDrain = false ∧ (s.thread .bgOut).todo.any Task.isDrain = false := by
  simp only [State.draining, Bool.or_eq_false_iff]

/-- Where BG has no drain in progress, nobody has. -/
theorem WorkInv.no_drain {s : State} (h : WorkInv s) (hd : s.draining = false) (a : Agent) :
    (s.thread a).todo.any Task.isDrain = false := by
  obtain ⟨hin, hout⟩ := draining_eq_false.1 hd
  refine any_isDrain_eq_false.2 fun m hm => Bool.eq_false_iff.2 fun hx => ?_
  rcases (h.roles a m hm).loop_of_isDrain hx with rfl | rfl
  · exact absurd hx (by simp [any_isDrain_eq_false.1 hin m hm])
  · exact absurd hx (by simp [any_isDrain_eq_false.1 hout m hm])

/-! ### The first task is taken off its list -/

section turn
variable {s : State} {a : Agent} {k : Task} {rest : List Task} (hk : (s.thread a).todo = k :: rest)
include hk

theorem turnOf_todo_sublist (b : Agent) : ((s.turnOf a rest).thread b).todo.Sublist (s.thread b).todo := by
  by_cases hb : b = a
  · subst hb; rw [thread_turnOf_self, hk]; exact List.sublist_cons_self k rest
  · rw [thread_turnOf_ne s a rest hb]

theorem WorkInv.turnOf (h : WorkInv s) : WorkInv (s.turnOf a rest) where
  roles := fun b m hm => h.roles b m ((turnOf_todo_sublist hk b).subset hm)
  heads := fun b m hm => h.heads b m ((turnOf_todo_sublist hk b).tail.subset hm)
  once := fun b => ((turnOf_todo_sublist hk b).countP_le).trans (h.once b)
  still := fun hx b m hb hm => h.still hx b m hb ((turnOf_todo_sublist hk b).subset hm)
  tearing := fun m hm => h.tearing m ((turnOf_todo_sublist hk _).subset hm)
  pollsIn := fun m hm => h.pollsIn m ((turnOf_todo_sublist hk _).subset hm)
  pollsOut := fun m hm => h.pollsOut m ((turnOf_todo_sublist hk _).subset hm)
  oneDrain := by
    have keep : ∀ b, (s.thread b).todo.any Task.isDrain = false →
        ((s.turnOf a rest).thread b).todo.any Task.isDrain = false := fun b hb =>
      any_isDrain_eq_false.2 fun m hm => any_isDrain_eq_false.1 hb m ((turnOf_todo_sublist hk b).subset hm)
    exact h.oneDrain.imp (keep _) (keep _)

/-- Snapshots stand only at the head of a list, so the rest holds none. -/
theorem WorkInv.clear_turnOf (h : WorkInv s) : (s.turnOf a rest).Clear := fun m hm =>
  h.heads a m (by rw [turnOf_cur, thread_turnOf_self] at hm; rw [hk]; exact hm)

theorem SysInv.turnOf (h : SysInv s) (hadv : k.isAdvance = false) : SysInv (s.turnOf a rest) where
  toWorkInv := h.toWorkInv.turnOf hk
  endpoint := h.endpoint
  ready := fun b m hm => h.ready b m ((turnOf_todo_sublist hk b).subset hm)
  boundary := ⟨h.boundary.serves, h.boundary.alive⟩
  fits := h.fits
  handing := fun hl e d he hd hc => by
    obtain ⟨b, fin, hm⟩ := h.handing hl e d he hd hc
    refine ⟨b, fin, ?_⟩
    by_cases hb : b = a
    · subst hb
      rw [hk] at hm
      rw [thread_turnOf_self]
      rcases List.mem_cons.1 hm with rfl | hm
      · cases hadv
      · exact hm
    · rw [thread_turnOf_ne s a rest hb]; exact hm

end turn

/-- The acting agent takes the step `m`, which is off its list: what the invariant said of that step. -/
structure State.Takes (s : State) (m : Micro) : Prop where
  clear : s.Clear
  belongs : m.belongs s.driverAgent s.cur
  ready : ∀ e, s.ep = some e → m.Ready e
  engaged : m ≠ .lost → s.Engaged
  /-- A drain that takes a step is the only one. -/
  drain : (Task.micro m).isDrain = true → s.draining = false

theorem SysInv.takes {s : State} (h : SysInv s) {a : Agent} {m : Micro} {rest : List Task}
    (hk : (s.thread a).todo = .micro m :: rest) : (s.turnOf a rest).Takes m := by
  have hm : Task.micro m ∈ (s.thread a).todo := by rw [hk]; exact List.mem_cons_self
  have hb := h.roles a m hm
  refine ⟨h.clear_turnOf hk, hb, h.ready a m hm, fun hl => h.engaged hm hl rest, fun hx => ?_⟩
  have own : ((s.turnOf a rest).thread a).todo.any Task.isDrain = false :=
    any_isDrain_eq_false.2 fun m' hm' => Bool.eq_false_iff.2 fun hx' => by
      have := h.clear_turnOf hk m' hm'
      rw [headOnly_of_isDrain hx'] at this; cases this
  have busy : (s.thread a).todo.any Task.isDrain = true := List.any_eq_true.2 ⟨_, hm, hx⟩
  have one := h.oneDrain
  rcases hb.loop_of_isDrain hx with rfl | rfl
  · refine draining_eq_false.2 ⟨own, ?_⟩
    rw [thread_turnOf_ne _ _ _ (by simp)]
    exact one.resolve_left (by simp [busy])
  · refine draining_eq_false.2 ⟨?_, own⟩
    rw [thread_turnOf_ne _ _ _ (by simp)]
    exact one.resolve_right (by simp [busy])

/-! ### Who may have an operation of several steps in progress -/

theorem driverAgent_ne_owner (s : State) : s.driverAgent ≠ .owner := by
  unfold State.driverAgent; cases s.env.driver <;> simp [Driver.agent]

/-- Every role but the owner's and the registrar's is one of RT or BG (60_exceptions.md R263). -/
theorem State.Admits.cur_ne_owner {s : State} {r : Role} {e : Endpoint} (h : s.Admits r e) (ho : r ≠ .owner)
    (hr : r ≠ .registrar) : s.cur ≠ .owner := by
  intro hc
  have hrole := h.role
  have hdrv := (driverAgent_ne_owner s).symm
  cases r <;> simp_all [State.holds]

/-- So such an agent may have an operation in progress. -/
theorem State.Admits.engages {s : State} {r : Role} {e : Endpoint} (h : s.Admits r e) (ho : r ≠ .owner := by simp)
    (hr : r ≠ .registrar := by simp) : s.Engaged := h.engaged (h.cur_ne_owner ho hr)

theorem State.Admits.inputLoop {s : State} {e : Endpoint} (h : s.Admits .producerIn e) : s.cur = .bgIn := by
  simpa [State.holds] using h.role

theorem State.Admits.realTime {s : State} {e : Endpoint} (h : s.Admits .producerOut e) : s.cur = .rt := by
  simpa [State.holds] using h.role

theorem State.Clear.polling {s : State} (h : s.Clear) : s.polling.Clear := h.of_same rfl fun _ => rfl

theorem State.Engaged.polling {s : State} (h : s.Engaged) : s.polling.Engaged :=
  h.of_same rfl ⟨rfl, rfl, rfl, rfl, rfl, rfl, rfl⟩ rfl

theorem State.Engaged.begin {s : State} (h : s.Engaged) : s.begin.Engaged := h.of_same rfl (.refl _) rfl

theorem State.Engaged.push {s : State} (h : s.Engaged) (ts : List Task) : (s.push ts).Engaged :=
  h.of_same rfl (.refl _) rfl

end Sys2Proof.Machine
end

section
/-! SUPPORT. Every operation keeps the invariant: the step that issues it, and each of its later steps. -/

namespace Sys2Proof.Machine

/-! ### Shared operations -/

/-- New steps of the acting agent that hold no snapshot and end no completion. -/
theorem SysInv.pushSteps {s : State} (h : SysInv s) (hno : s.Clear) (hen : s.Engaged) {ts : List Task}
    (hts : ∀ m, Task.micro m ∈ ts → m.belongs s.driverAgent s.cur ∧ (∀ e, s.ep = some e → m.Ready e))
    (hhd : ∀ m, Task.micro m ∈ ts → m.headOnly = false) (hadv : ∀ fin, Task.micro (.advance fin) ∉ ts) :
    SysInv (s.push ts) := by
  refine h.push hno (fun m hm => ⟨(hts m hm).1, (hts m hm).2, hen⟩) (fun m hm => hhd m (List.mem_of_mem_tail hm))
    (.inl (List.countP_eq_zero.2 fun k hk => ?_)) (.inl (any_isDrain_eq_false.2 fun m hm => ?_))
  · intro hx
    obtain ⟨fin, rfl⟩ := isAdvance_eq_true.1 hx
    exact hadv fin hk
  · exact Bool.eq_false_iff.2 fun hx => by
      have := hhd m hm
      rw [headOnly_of_isDrain hx] at this; cases this

theorem SysInv.enqueueAll {s t : State} (h : SysInv s) (hno : s.Clear) (hen : s.Engaged) (hcur : s.cur = .rt)
    {e : Endpoint} (he : s.ep = some e) {bytes : List Byte} (ht : enqueueAll bytes s e = .next t) : SysInv t := by
  cases bytes with
  | nil => exact h.answer ht
  | cons b rest =>
    have hnew : ∀ m, Task.micro m ∈ enqueueTasks rest → ∃ b fin, m = .outEnq b fin := fun m hm => by
      simpa using mem_enqueueTasks hm
    refine (h.begin.pushSteps hno.begin hen.begin (fun m hm => ?_) (fun m hm => ?_) fun fin hm => ?_).enqueueStep he ht
    · obtain ⟨b, fin, rfl⟩ := hnew m hm; exact ⟨hcur, fun _ _ => trivial⟩
    · obtain ⟨b, fin, rfl⟩ := hnew m hm; rfl
    · obtain ⟨b, f, hx⟩ := hnew _ hm; cases hx

theorem SysInv.encodeAll {s t : State} (h : SysInv s) (hno : s.Clear) {kind : Byte} {ch d0 d1 : Nat}
    (ht : encodeAll kind ch d0 d1 s = .next t) : SysInv t := by
  obtain ⟨e, ha, ht⟩ := guarded_next ht
  split at ht
  · cases ht
  · exact h.enqueueAll hno ha.engages ha.realTime ha.present ht

/-- A drain begins where none is in progress (93_implementation_defined.md U4). -/
theorem SysInv.drainStart {s t : State} (h : SysInv s) (hno : s.Clear) (hen : s.Engaged) {e : Endpoint}
    (he : s.ep = some e) (hrole : s.holds .consumerOut = true) {poll : Bool} (ht : drainStart poll s e = .next t) :
    SysInv t := by
  obtain ⟨hwho, hd⟩ := holds_consumerOut hrole
  unfold Machine.drainStart at ht
  simp only at ht
  split at ht
  · exact h.answer ht
  · rename_i hn
    cases ht
    refine h.begin.pushOne hno.begin hen.begin hwho (fun x hx => ?_) rfl (.inr fun b _ => ?_)
    · cases he.symm.trans hx
      have hu := (h.endpoint e he).output.unread_lt
      exact ⟨rfl, by omega, rfl, hu.le, .inl le_rfl⟩
    · rw [begin_todo]; exact h.no_drain hd b

theorem SysInv.pollHead {s : State} (h : SysInv s) (hno : s.Clear) (hen : s.Engaged) (hcur : s.cur = .bgIn)
    {e : Endpoint} (he : s.ep = some e) : SysInv (pollHead s e) :=
  h.pushOne hno hen hcur fun x hx => by cases he.symm.trans hx; exact ⟨rfl, le_rfl⟩

/-- The producer of IN accepts bytes, all of them offered. -/
theorem SysInv.acceptInput {s : State} (h : SysInv s) (hno : s.Clear) (hcur : s.cur = .bgIn) {e : Endpoint}
    (he : s.ep = some e) (rs : Nat) (bytes : List Byte) :
    SysInv (s.setEndpoint { e with input := e.input.accept bytes (e.input.accepts rs bytes.length) }) :=
  h.setInput he ((h.endpoint e he).input.accept (Ring.accepts_le_cap _ _) (Ring.accepts_le_count _ _))
    (e.input.grows_accept _ _) (.inr ⟨hcur, hno⟩)

/-! ### The wire rows -/

/-- A wire row keeps the invariant where what it does to the decoder does (30_encoding.md R103). -/
theorem SysInv.onWire {s t : State} (h : SysInv s) {st : DecState} {k : Endpoint → Dec → Outcome}
    (ht : onWire st s k = .next t)
    (hk : ∀ e d, s.Admits .driver e → s.begin.ep = some e → e.dec = some d → d.state = st → SysInv s.begin →
      k e d = .next t → SysInv t) : SysInv t := by
  obtain ⟨e, d, ha, hd, hst, ht⟩ := onWire_next ht
  exact hk e d ha ha.present hd hst h.begin ht

/-! ### The boundary -/

/-- Where nothing is polled, the boundary's invariant says nothing. -/
theorem State.BoundaryOk.of_none {s : State} (hin : s.env.polledIn = false) (hout : s.env.polledOut = false) :
    s.BoundaryOk := by
  have hnone : ∀ d, s.env.polled d ≠ true := fun d hd => by
    cases d with
    | input => exact absurd (hin.symm.trans hd) Bool.false_ne_true
    | output => exact absurd (hout.symm.trans hd) Bool.false_ne_true
  exact ⟨fun d hd => absurd hd (hnone d), fun d hd => absurd hd (hnone d)⟩

/-- The boundary changes: what is in progress needs its polled set, and the boundary its own invariant. -/
theorem SysInv.setBoundary {s : State} (h : SysInv s) {v : Env} (hc : v.closing = s.env.closing)
    (hd : v.driver = s.env.driver) (hb : v.cursorBits = s.env.cursorBits)
    (hin : ∀ m, Task.micro m ∈ (s.thread .bgIn).todo → s.env.polledIn = true → v.polledIn = true)
    (hout : ∀ m, Task.micro m ∈ (s.thread .bgOut).todo → s.env.polledOut = true → v.polledOut = true)
    (hbd : (s.setEnv v).BoundaryOk) : SysInv (s.setEnv v) where
  roles := fun a m hm => by
    rw [show (s.setEnv v).driverAgent = s.driverAgent from congrArg Driver.agent hd]; exact h.roles a m hm
  heads := h.heads
  once := h.once
  still := fun hx => h.still (hc ▸ hx)
  tearing := fun m hm => hc.trans (h.tearing m hm)
  pollsIn := fun m hm hl => hin m hm (h.pollsIn m hm hl)
  pollsOut := fun m hm hl => hout m hm (h.pollsOut m hm hl)
  oneDrain := h.oneDrain
  endpoint := h.endpoint
  ready := h.ready
  boundary := hbd
  fits := fun e he => by rw [setEnv_env, hb]; exact h.fits e he
  handing := fun hl => h.handing (hc ▸ hl)

/-- While an `EP.CLOSE` is under way nothing is polled. -/
theorem State.BoundaryOk.not_polled {s : State} (h : s.BoundaryOk) (hc : s.env.closing = true) (d : Direction) :
    s.env.polled d = false := Bool.eq_false_iff.2 fun hp => by
  have := (h.alive d hp).2.1
  rw [hc] at this; cases this

/-! ### The endpoint's creation and teardown -/

theorem Endpoint.ok_reset {capIn capOut slots : Nat} (hi : 2 ≤ capIn) (ho : 2 ≤ capOut) (hs : 2 ≤ slots)
    (hasDecoder : Bool) : (Endpoint.reset capIn capOut slots hasDecoder).Ok where
  input := Ring.ok_reset hi
  output := Ring.ok_reset ho
  dec := fun d hd => by
    cases hasDecoder <;> cases hd
    exact Dec.ok_reset hs

theorem completing_reset {capIn capOut slots : Nat} {hasDecoder : Bool} {d : Dec}
    (hd : (Endpoint.reset capIn capOut slots hasDecoder).dec = some d) : d.completing = false := by
  cases hasDecoder <;> cases hd
  exact not_completing_of_state (by simp [Dec.reset])

/-- The owner's steps are those of the teardown, which hold no place behind another task. -/
theorem Micro.belongs.headOnly_of_owner {drv : Agent} {m : Micro} (hb : m.belongs drv .owner) (hdrv : drv ≠ .owner) :
    m.headOnly = true := by
  cases m with
  | inWriteStore | drainRead | drainFinish | pollDraw | pollSnap | pollStore | closeTransport | closeDestroy => rfl
  | decByte | callback | advance => exact absurd hb.symm hdrv
  | peekFinish | nextPeek | nextFinish | lost => exact absurd rfl hb
  | pollFeed => cases hb.1
  | outEnq | pollNext => cases hb

/-- The owner at its turn has no step of an operation left. -/
theorem SysInv.owner_idle {s : State} (h : SysInv s) (hno : s.Clear) (hcur : s.cur = .owner) (m : Micro) :
    Task.micro m ∉ (s.thread .owner).todo := fun hm => by
  have := hno m (by rw [hcur]; exact hm)
  rw [(h.roles _ _ hm).headOnly_of_owner (driverAgent_ne_owner s)] at this; cases this

/-- With no endpoint, or in a teardown, what is left of the operations of RT and BG at the owner's turn is to be
refused. -/
theorem SysInv.lost_of_gone {s : State} (h : SysInv s) (hno : s.Clear) (hcur : s.cur = .owner)
    (hg : s.ep = none ∨ s.env.closing = true) (a : Agent) (m : Micro) (hm : Task.micro m ∈ (s.thread a).todo) :
    a ≠ .owner ∧ m = .lost := by
  have ho : a ≠ .owner := fun hx => h.owner_idle hno hcur m (hx ▸ hm)
  exact ⟨ho, h.still hg a m ho hm⟩

theorem SysInv.epReset {s t : State} (h : SysInv s) (hno : s.Clear) {capIn capOut slots : Nat} {hasDecoder : Bool}
    (hw : (Instr.epReset capIn capOut slots hasDecoder).wellFormed = true)
    (ht : execEpReset capIn capOut slots hasDecoder s = .next t) : SysInv t := by
  simp only [Instr.wellFormed, Bool.and_eq_true, decide_eq_true_eq] at hw
  obtain ⟨⟨hi, ho⟩, hs⟩ := hw
  unfold execEpReset at ht
  split at ht
  · rename_i hrole
    split at ht
    · cases ht
    · rename_i hn
      split at ht
      · split at ht
        · rename_i hfit
          have hgone := h.lost_of_gone hno (by simpa [State.holds] using hrole) (.inl (by simpa using hn))
          cases ht
          refine SysInv.finish ?_ _
          refine .of_lost hgone ?_ ?_ (.of_none rfl rfl) ?_
          · intro e he; cases he; exact Endpoint.ok_reset hi ho hs _
          · intro _ e d he hd; cases he; exact completing_reset hd
          · intro e he; cases he; simpa [fitsCursors, Endpoint.Fits, Endpoint.reset, Ring.reset] using hfit
        · cases ht
      · cases ht
  · cases ht

/-- `EP.CLOSE` begins: it empties the polled sets, and only the owner goes on (70_reset_and_hazards.md R282). -/
theorem SysInv.epClose {s t : State} (h : SysInv s) (hno : s.Clear) (ht : execEpClose s = .next t) : SysInv t := by
  obtain ⟨e, ha, ht⟩ := guarded_next ht
  have hcur : s.cur = .owner := by simpa [State.holds] using ha.role
  cases ht
  have hlost : SysInv (s.loseOthers.setEnv { s.env with polledIn := false, polledOut := false, closing := true }) := by
    refine .of_lost (fun a m hm => ?_) h.endpoint (fun hl => by cases hl) (.of_none rfl rfl) h.fits
    by_cases ho : a = .owner
    · subst ho; exact absurd hm (h.owner_idle hno hcur m)
    · rw [setEnv_thread, thread_loseOthers_ne s ho] at hm; exact ⟨ho, Thread.micro_mem_lose hm⟩
  have hclear : (s.loseOthers.setEnv { s.env with polledIn := false, polledOut := false, closing := true }).Clear :=
    fun m hm => absurd (by simpa [hcur] using hm) (h.owner_idle hno hcur m)
  have hen : (s.loseOthers.setEnv { s.env with polledIn := false, polledOut := false, closing := true }).Engaged :=
    ⟨fun _ => hcur, fun _ => rfl, fun hx => by simp [hcur] at hx, fun hx => by simp [hcur] at hx⟩
  exact hlost.begin.pushOne hclear.begin hen.begin hcur fun _ _ => trivial

/-! ### Every instruction -/

/-- The step that issues an operation keeps the invariant. -/
theorem SysInv.exec {s t : State} (h : SysInv s) (hno : s.Clear) {i : Instr} (hw : i.wellFormed = true)
    (ht : exec i s = .next t) : SysInv t := by
  cases i with
  | noteoff | noteon | polykey | cc | program | chanpress | pitchbend =>
    exact h.onWire ht fun e d _ he hd hst h ht => h.statusStep he hd hst (by simp) ht
  | sox | eox => exact h.onWire ht fun e d _ he hd hst h ht => h.gotoStep he hd (by simp [hst]) (by simp) ht
  | discardData | discardSyscommon | discardEox | discardRealtime | discardSysex =>
    exact h.onWire ht fun e d _ _ _ _ h ht => by cases ht; exact h.finish _
  | data b =>
    exact h.onWire ht fun e d ha he hd hst h ht =>
      h.dataStep hno.begin ha.engages.begin (holds_driver ha.role) he hd hst ht
  | decByte b =>
    obtain ⟨e, ha, ht⟩ := guarded_next ht
    exact h.begin.feedByte hno.begin ha.engages.begin (holds_driver ha.role) ht
  | decParse bytes n =>
    obtain ⟨e, ha, ht⟩ := guarded_next ht
    obtain ⟨d, -, ht⟩ := onDecoder_next ht
    split at ht
    · cases ht
    cases bytes with
    | nil => exact h.answer ht
    | cons b rest =>
      have hnew : ∀ m, Task.micro m ∈ parseTasks n rest → ∃ b fin, m = .decByte b fin := fun m hm => by
        simpa using mem_parseTasks hm
      have hhd : ∀ m, Task.micro m ∈ parseTasks n rest → m.headOnly = false := fun m hm => by
        obtain ⟨b, fin, rfl⟩ := hnew m hm; rfl
      refine (h.begin.pushSteps hno.begin ha.engages.begin (fun m hm => ?_) hhd fun fin hm => ?_).feedByte
        (hno.begin.push hhd) (ha.engages.begin.push _) (holds_driver ha.role) ht
      · obtain ⟨b, fin, rfl⟩ := hnew m hm; exact ⟨holds_driver ha.role, fun _ _ => trivial⟩
      · obtain ⟨b, f, hx⟩ := hnew _ hm; cases hx
  | inWrite bytes n =>
    obtain ⟨e, ha, ht⟩ := guarded_next ht
    cases ht
    refine h.begin.pushOne hno.begin ha.engages.begin ha.inputLoop fun x hx => ?_
    cases ha.present.symm.trans hx
    exact ⟨by simpa [Instr.wellFormed] using hw, (h.endpoint e ha.present).input.snapshot⟩
  | inRead =>
    obtain ⟨e, ha, ht⟩ := guarded_next ht
    have hok := (h.endpoint e ha.present).input
    split at ht
    · exact h.answer ht
    rename_i hne
    have hu : 1 ≤ e.input.unread := Nat.one_le_iff_ne_zero.2 fun hz => hne (hok.isEmpty_iff.2 hz)
    split at ht
    · cases ht
    · refine (h.setInput ha.present (hok.consume hu) (.refl _) (.inl ⟨rfl, ?_⟩)).answer ht
      rw [hok.unread_consume hu]; exact Nat.sub_le _ _
  | outEnq b =>
    obtain ⟨e, ha, ht⟩ := guarded_next ht
    exact h.enqueueStep ha.present ht
  | outEnqn bytes n =>
    obtain ⟨e, ha, ht⟩ := guarded_next ht
    exact h.enqueueAll hno ha.engages ha.realTime ha.present ht
  | outDrain =>
    obtain ⟨e, ha, ht⟩ := guarded_next ht
    exact h.drainStart hno ha.engages ha.present ha.role (onTransport_next ht)
  | mqPeek c =>
    obtain ⟨e, ha, ht⟩ := guarded_next ht
    obtain ⟨d, -, ht⟩ := onDecoder_next ht
    cases (onSlot_next ht).2
    exact h.begin.pushOne hno.begin ha.engages.begin (ha.cur_ne_owner (by simp) (by simp)) fun _ _ => trivial
  | mqAvail c =>
    obtain ⟨e, ha, ht⟩ := guarded_next ht
    obtain ⟨d, -, ht⟩ := onDecoder_next ht
    exact h.answer (onSlot_next ht).2
  | mqNext c =>
    obtain ⟨e, ha, ht⟩ := guarded_next ht
    obtain ⟨d, -, ht⟩ := onDecoder_next ht
    have ht := (onSlot_next ht).2
    split at ht
    · exact h.answer ht
    · cases ht
      exact h.begin.pushOne hno.begin ha.engages.begin (ha.cur_ne_owner (by simp) (by simp)) fun _ _ => trivial
  | encNoteoff | encNoteon | encPolykey | encCc | encProgram | encChanpress | encPitchbend =>
    simp only [Machine.exec] at ht; exact h.encodeAll hno ht
  | decSetcb f a =>
    obtain ⟨e, ha, ht⟩ := guarded_next ht
    obtain ⟨d, hd, ht⟩ := onDecoder_next ht
    split at ht
    · cases ht
    · have hok := (h.endpoint e ha.present).dec d hd
      have hok' : ({ d with cb := f, cbArg := a } : Dec).Ok :=
        ⟨hok.slots, hok.slot_in, hok.elapsed_le, hok.counts, hok.building⟩
      refine (h.setDec ha.present hok' (fun d₀ hd₀ hc => ?_) fun hl hc => ?_).answer ht
      · cases hd.symm.trans hd₀; exact hc
      · exact h.handing hl e d ha.present hd hc
  | inPoll =>
    obtain ⟨e, ha, ht⟩ := guarded_next ht
    cases onTransport_next ht
    exact h.polling.begin.pollHead (hno.polling.begin) ha.engages.polling.begin ha.inputLoop ha.present
  | outPoll =>
    obtain ⟨e, ha, ht⟩ := guarded_next ht
    exact h.polling.drainStart hno.polling ha.engages.polling ha.present ha.role (onTransport_next ht)
  | epReset => exact h.epReset hno hw ht
  | epClose => exact h.epClose hno ht

/-! ### Every later step -/

theorem length_clampRead {f : Nat} {x : ReadAnswer} {data : List Byte} (h : clampRead f x = .read data) :
    data.length ≤ f := by
  cases x <;> simp only [clampRead, ReadAnswer.read.injEq, reduceCtorEq] at h
  subst h; exact List.length_take_le _ _

/-- The transport answers a read with no more bytes than were asked for (45_bridge_and_system.md R237). -/
theorem length_drawRead {s : State} {f : Nat} {data : List Byte} (h : (s.drawRead f).1 = .read data) :
    data.length ≤ f := by
  unfold State.drawRead at h
  split at h <;> exact length_clampRead h

theorem acceptedCount_le (n : Nat) (x : WriteAnswer) : acceptedCount n x ≤ n := by
  cases x with
  | accepted k => exact Nat.min_le_right k n
  | error => exact Nat.zero_le n

/-- The store step of `IN.POLL` writes every byte it then feeds (45_bridge_and_system.md R228). -/
theorem SysInv.pollStore {s : State} (h : SysInv s) (hno : s.Clear) (hen : s.Engaged) (hcur : s.cur = .bgIn)
    {e : Endpoint} (he : s.ep = some e) (rs f : Nat) (data : List Byte) :
    SysInv ((s.setEndpoint { e with input := e.input.accept data (e.input.accepts rs data.length) }).push
      ((if feeds s e then feedTasks e.input.w (e.input.accepts rs data.length) else []) ++
        [.micro (.pollNext data.length f)])) := by
  have hnew : ∀ m, Task.micro m ∈ (if feeds s e then feedTasks e.input.w (e.input.accepts rs data.length)
      else []) ++ [.micro (.pollNext data.length f)] →
      (feeds s e = true ∧ ∃ i, i < e.input.accepts rs data.length ∧ m = .pollFeed e.input.w i) ∨
        m = .pollNext data.length f := by
    intro m hm
    rcases List.mem_append.1 hm with hm | hm
    · split at hm
      · obtain ⟨i, hi, hx⟩ := mem_feedTasks hm
        cases hx
        exact .inl ⟨‹_›, i, hi, rfl⟩
      · cases hm
    · right; simpa using hm
  refine (h.acceptInput hno hcur he rs data).pushSteps hno (hen.setEndpoint _) (fun m hm => ?_) (fun m hm => ?_)
    fun fin hm => ?_
  · rcases hnew m hm with ⟨hf, i, hi, rfl⟩ | rfl
    · have hdrv : s.env.driver = .bg := by simpa [feeds] using (Bool.and_eq_true_iff.1 hf).2
      refine ⟨⟨hcur, hcur.trans (congrArg Driver.agent hdrv).symm⟩, fun x hx => ?_⟩
      cases hx
      have hle := e.input.accepts_le_count rs data.length
      exact (congrArg Option.isSome (Ring.read_accept (e.input.accepts_le_cap rs data.length) hi hle)).trans
        (by rw [List.getElem?_eq_getElem (by omega)]; rfl)
    · exact ⟨hcur, fun _ _ => trivial⟩
  · rcases hnew m hm with ⟨-, i, -, rfl⟩ | rfl <;> rfl
  · rcases hnew _ hm with ⟨-, i, -, hx⟩ | hx <;> cases hx

/-- The handle is released while nothing is polled (70_reset_and_hazards.md R282). -/
theorem SysInv.closeTransport {s t : State} (h : SysInv s) (hno : s.Clear) (hen : s.Engaged) (hcur : s.cur = .owner)
    (ht : closeTransportStep s = .next t) : SysInv t := by
  cases ht
  have hc := hen.tearing hcur
  have hrel : SysInv (s.setEnv { s.env with handle := s.env.handle.release }) :=
    h.setBoundary rfl rfl rfl (fun _ _ => id) (fun _ _ => id)
      (.of_none (h.boundary.not_polled hc .input) (h.boundary.not_polled hc .output))
  exact hrel.pushOne hno ⟨fun _ => hcur, fun _ => hc, hen.pollsIn, hen.pollsOut⟩ hcur fun _ _ => trivial

/-- With the endpoint gone nothing is left to do but what is refused (70_reset_and_hazards.md R282). -/
theorem SysInv.closeDestroy {s t : State} (h : SysInv s) (hno : s.Clear) (hen : s.Engaged) (hcur : s.cur = .owner)
    (ht : closeDestroyStep s = .next t) : SysInv t := by
  have hc := hen.tearing hcur
  cases ht
  refine SysInv.finish ?_ _
  exact .of_lost (h.lost_of_gone hno hcur (.inr hc)) (fun e he => by cases he) (fun _ e d he => by cases he)
    (.of_none (h.boundary.not_polled hc .input) (h.boundary.not_polled hc .output)) fun e he => by cases he

/-- A later step of an operation keeps the invariant, the last of a completion excepted, which ends what the
invariant says of it. -/
theorem SysInv.runMicro {s t : State} (h : SysInv s) {m : Micro} (hm : s.Takes m)
    (hadv : (Task.micro m).isAdvance = false) (ht : runMicro m s = .next t) : SysInv t := by
  have hno := hm.clear
  have hb := hm.belongs
  cases m with
  | inWriteStore rs bytes count =>
    obtain ⟨e, he, ht⟩ := onEndpoint_next ht
    obtain ⟨rfl, -⟩ := hm.ready e he
    exact (h.acceptInput hno hb he rs bytes).answer ht
  | outEnq b fin =>
    obtain ⟨e, he, ht⟩ := onEndpoint_next ht
    exact h.enqueueStep he ht
  | drainRead r0 n i burst poll =>
    obtain ⟨e, he, ht⟩ := onEndpoint_next ht
    obtain ⟨hr0, hi, hlen, hn⟩ := hm.ready e he
    have hdr := h.no_drain (hm.drain rfl)
    simp only at ht
    split at ht
    · cases ht
    split at ht
    · rename_i hlt
      cases ht
      refine h.pushOne hno (hm.engaged (by simp)) hb (fun x hx => ?_) rfl (.inr fun b _ => hdr b)
      cases he.symm.trans hx
      exact ⟨hr0, hlt, by simp [hlen], hn⟩
    · rename_i hge
      cases ht
      refine h.pushOne hno (hm.engaged (by simp)) hb (fun x hx => ?_) rfl (.inr fun b _ => hdr b)
      cases he.symm.trans hx
      refine ⟨hr0, ?_⟩
      rwa [List.length_append, List.length_singleton, show burst.length + 1 = n by omega]
  | drainFinish r0 burst poll =>
    obtain ⟨e, he, ht⟩ := onEndpoint_next ht
    obtain ⟨rfl, hn⟩ := hm.ready e he
    have hq := (h.endpoint e he).output.resume hn (acceptedCount_le burst.length s.drawWrite.1)
    have hd := hm.drain rfl
    have hend : ∀ u : State, SysInv u → u.ep = s.ep → u.draining = s.draining → SysInv (u.setEndpoint
        { e with output := e.output.resume e.output.r (acceptedCount burst.length s.drawWrite.1) }) :=
      fun u hu hep hdr => hu.setOutput (hep.trans he) hq rfl (.inr (hdr.trans hd))
    refine SysInv.answer ?_ ht
    split
    · exact hend _ ((h.drawWrite.transmit _).logLine _) (by simp) (by simp [State.draining])
    · exact hend _ (h.drawWrite.transmit _) (by simp) (by simp [State.draining])
  | decByte b fin => exact h.feedByte hno (hm.engaged (by simp)) hb ht
  | callback =>
    obtain ⟨e, -, ht⟩ := onEndpoint_next ht
    obtain ⟨d, -, ht⟩ := onDecoder_next ht
    split at ht
    · cases ht; exact h
    · cases ht
      exact (h.recordCall _).drawScript.pushIssues _ (hno.of_same (by simp) (by simp))
  | advance fin => cases hadv
  | peekFinish i old =>
    obtain ⟨e, -, ht⟩ := onEndpoint_next ht
    obtain ⟨d, -, ht⟩ := onDecoder_next ht
    exact (h.endPeek _ _).answer ht
  | nextPeek c =>
    obtain ⟨e, -, ht⟩ := onEndpoint_next ht
    obtain ⟨d, -, ht⟩ := onDecoder_next ht
    cases ht
    exact h.pushOne hno (hm.engaged (by simp)) hb fun _ _ => trivial
  | nextFinish c old =>
    obtain ⟨e, -, ht⟩ := onEndpoint_next ht
    obtain ⟨d, -, ht⟩ := onDecoder_next ht
    exact (h.endPeek _ _).answer ht
  | pollDraw w0 f =>
    simp only [Machine.runMicro, pollDrawStep] at ht
    split at ht
    · exact (h.drawRead f).answer ht
    · exact ((h.drawRead f).logLine _).answer ht
    · rename_i data hdata
      cases ht
      have hen := (hm.engaged (by simp)).of_same (by simp) (drawRead_boundary s f) (by simp)
      refine (h.drawRead f).pushOne (hno.of_same (by simp) (by simp)) hen (by rw [drawRead_cur]; exact hb)
        fun x hx => ?_
      obtain ⟨hw0, hf⟩ := hm.ready x (by simpa using hx)
      exact ⟨hw0, length_drawRead hdata, hf⟩
  | pollSnap w0 f data =>
    obtain ⟨e, he, ht⟩ := onEndpoint_next ht
    obtain ⟨hw0, hlen, hf⟩ := hm.ready e he
    cases ht
    refine h.pushOne hno (hm.engaged (by simp)) hb fun x hx => ?_
    cases he.symm.trans hx
    exact ⟨hw0, hlen, hf, (h.endpoint e he).input.snapshot⟩
  | pollStore rs w0 f data =>
    obtain ⟨e, he, ht⟩ := onEndpoint_next ht
    obtain ⟨rfl, -, -, -⟩ := hm.ready e he
    cases ht
    exact h.pollStore hno (hm.engaged (by simp)) hb he rs f data
  | pollFeed w0 i =>
    obtain ⟨e, -, ht⟩ := onEndpoint_next ht
    simp only at ht
    split at ht
    · cases ht
    · exact h.feedByte hno (hm.engaged (by simp)) hb.2 ht
  | pollNext k f =>
    obtain ⟨e, he, ht⟩ := onEndpoint_next ht
    split at ht
    · cases ht; exact h.pollHead hno (hm.engaged (by simp)) hb he
    · exact h.answer ht
  | closeTransport => exact h.closeTransport hno (hm.engaged (by simp)) hb ht
  | closeDestroy => exact h.closeDestroy hno (hm.engaged (by simp)) hb ht
  | lost => cases ht

end Sys2Proof.Machine
end

section
/-! SUPPORT. The step keeps the invariant: the end of a completion, the turns, and the events at the boundary. -/

namespace Sys2Proof.Machine

/-! ### The end of a completion -/

/-- The end of a completion is the only one there is: no agent has another to do (10_state.md R29). -/
theorem SysInv.advance_alone {s : State} (h : SysInv s) {a : Agent} {fin : Option Result} {rest : List Task}
    (hk : (s.thread a).todo = .micro (.advance fin) :: rest) (b : Agent) (f : Option Result) :
    Task.micro (.advance f) ∉ ((s.turnOf a rest).thread b).todo := by
  intro hm
  have ha : a = s.driverAgent := h.roles a (.advance fin) (by rw [hk]; exact List.mem_cons_self)
  have hb : b = s.driverAgent := h.roles b (.advance f) ((turnOf_todo_sublist hk b).subset hm)
  rw [hb.trans ha.symm, thread_turnOf_self] at hm
  have hpos : 0 < rest.countP Task.isAdvance := List.countP_pos_iff.2 ⟨_, hm, rfl⟩
  have hone := h.once a
  rw [hk, List.countP_cons_of_pos (by rfl)] at hone
  omega

/-- The last step of a completion hands the message over, and no completion is half done any more
(40_decoder.md R138). -/
theorem SysInv.advanceTurn {s t : State} (h : SysInv s) {a : Agent} {fin : Option Result} {rest : List Task}
    (hk : (s.thread a).todo = .micro (.advance fin) :: rest)
    (ht : Machine.runMicro (.advance fin) (s.turnOf a rest) = .next t) : SysInv t := by
  obtain ⟨e, he, ht⟩ := onEndpoint_next ht
  obtain ⟨d, hd, ht⟩ := onDecoder_next ht
  cases ht
  have hok := h.endpoint e he
  refine SysInv.finish (s := (s.turnOf a rest).setDec e d.advance)
    { toWorkInv := (h.toWorkInv.turnOf hk).setEndpoint _
      endpoint := fun x hx => ?_, ready := fun b m hm x hx => ?_
      fits := fun x hx => ?_, handing := fun _ x y hx hy hc => ?_
      boundary := ⟨h.boundary.serves, fun p hp => ⟨by simp, (h.boundary.alive p hp).2⟩⟩ } fin
  · cases hx
    exact ⟨hok.input, hok.output, fun y hy => by cases hy; exact (hok.dec d hd).advance⟩
  · cases hx
    have hr := h.ready b m ((turnOf_todo_sublist hk b).subset hm) e he
    cases m with
    | advance f => exact absurd hm (h.advance_alone hk b f)
    | _ => exact hr
  · cases hx; exact h.fits e he
  · cases hx; cases hy
    rw [not_completing_of_state (by simp [Dec.advance])] at hc; cases hc

/-! ### Turns -/

theorem SysInv.runAgent {s t : State} (h : SysInv s) {a : Agent} (ht : runAgent a s = .next t) : SysInv t := by
  rcases runAgent_cases ht with hx | ⟨k, rest, hk, ht⟩
  · cases hx; exact h
  · cases k with
    | issue i =>
      simp only [runTask] at ht
      split at ht
      · exact (h.turnOf hk rfl).exec (h.clear_turnOf hk) ‹_› ht
      · cases ht
    | micro m =>
      cases hadv : (Task.micro m).isAdvance with
      | true =>
        obtain ⟨fin, hm⟩ := isAdvance_eq_true.1 hadv
        cases hm
        exact h.advanceTurn hk ht
      | false => exact (h.turnOf hk hadv).runMicro (h.takes hk) hadv ht

/-! ### Events at the boundary -/

theorem micro_not_mem_of_inFlight {t : Thread} (h : t.inFlight = false) (m : Micro) : Task.micro m ∉ t.todo :=
  fun hm => by
    simp only [Thread.inFlight, List.any_eq_false] at h
    exact h _ hm rfl

/-- A transport is opened only for an endpoint that does not exist yet, which is not polled. -/
theorem SysInv.openTransport {s : State} (h : SysInv s) (access : Access) (success : Bool) :
    SysInv (openTransportEvent access success s) := by
  unfold openTransportEvent
  split
  · rename_i hx
    refine h.setBoundary rfl rfl rfl (fun _ _ => id) (fun _ _ => id) ⟨fun d hd => ?_, h.boundary.alive⟩
    exact absurd hx.1 (h.boundary.alive d hd).1
  · exact h

/-- A registration is in a direction the transport is open for, of a live endpoint. -/
theorem SysInv.register {s : State} (h : SysInv s) (d : Direction) : SysInv (registerEvent d s) := by
  unfold registerEvent
  split
  · rename_i hx
    obtain ⟨hep, hserves, hclosing, hshutdown⟩ := hx
    cases d with
    | input =>
      refine h.setBoundary rfl rfl rfl (fun _ _ _ => rfl) (fun _ _ => id)
        ⟨fun p hp => ?_, fun _ _ => ⟨hep, hclosing, hshutdown⟩⟩
      cases p with
      | input => exact hserves
      | output => exact h.boundary.serves .output hp
    | output =>
      refine h.setBoundary rfl rfl rfl (fun _ _ => id) (fun _ _ _ => rfl)
        ⟨fun p hp => ?_, fun _ _ => ⟨hep, hclosing, hshutdown⟩⟩
      cases p with
      | input => exact h.boundary.serves .input hp
      | output => exact hserves
  · exact h

/-- The shutdown comes between activations, so that no operation in progress loses its polled set. -/
theorem SysInv.shutdown {s : State} (h : SysInv s) : SysInv (shutdownEvent s) := by
  unfold shutdownEvent
  split
  · exact h
  · rename_i hx
    simp only [Bool.or_eq_true, not_or, Bool.not_eq_true] at hx
    exact h.setBoundary rfl rfl rfl (fun m hm => absurd hm (micro_not_mem_of_inFlight hx.1 m))
      (fun m hm => absurd hm (micro_not_mem_of_inFlight hx.2 m)) (.of_none rfl rfl)

theorem SysInv.takeEvent {s t : State} (h : SysInv s) {x : Event} (ht : takeEvent x s = .next t) : SysInv t := by
  cases x with
  | act a => exact h.runAgent ht
  | openTransport access success => cases ht; exact h.openTransport access success
  | register d => cases ht; exact h.register d
  | shutdown => cases ht; exact h.shutdown

/-- Settles O3: the schedule moves on, and the event then taken keeps the invariant. -/
theorem stepKeepsInv : Obligations.StepKeepsInv := by
  intro s t h ht
  obtain ⟨v, x, hv, heq⟩ := step_eq_takeEvent s
  exact (h.setEnv hv).takeEvent (heq.symm.trans ht)

end Sys2Proof.Machine
end

section
/-! SUPPORT. Faults: which steps read storage, and why the invariant has the byte they read. -/

namespace Sys2Proof.Machine

/-! ### Shared operations that read no storage -/

section
variable {s : State} {e : Endpoint} {d : Dec} {f : Fault}

theorem statusStep_fault {T : MsgType} {ch : Channel} {fin : Option Result} :
    statusStep T ch fin s e d ≠ .fault f := by
  intro h
  unfold statusStep at h
  split at h <;> cases h

theorem dataStep_fault {b : Byte} {fin : Option Result} : dataStep b fin s e d ≠ .fault f := by
  intro h
  unfold dataStep at h
  split at h
  · cases h
  · split at h <;> cases h

theorem enqueueAll_fault {bytes : List Byte} : enqueueAll bytes s e ≠ .fault f := by
  intro h
  cases bytes <;> cases h

theorem encodeAll_fault {kind : Byte} {ch d0 d1 : Nat} : encodeAll kind ch d0 d1 s ≠ .fault f := by
  intro h
  obtain ⟨e, -, h⟩ := guarded_fault h
  split at h
  · cases h
  · exact enqueueAll_fault h

theorem drainStart_fault {poll : Bool} : drainStart poll s e ≠ .fault f := by
  intro h
  unfold drainStart at h
  simp only at h
  split at h <;> cases h

end

/-! ### The steps that fault -/

/-- Of the operations only `IN.READ` reads storage in the step that issues it, the byte at `IN.r` of a ring that is
not empty (41_ring_input.md R152). -/
theorem exec_fault {i : Instr} {s : State} {f : Fault} (h : exec i s = .fault f) :
    ∃ e, s.ep = some e ∧ e.input.isEmpty = false ∧ Memory.read e.input.cells e.input.r = none := by
  cases i with
  | noteoff | noteon | polykey | cc | program | chanpress | pitchbend =>
    obtain ⟨e, d, h⟩ := onWire_fault h; exact absurd h statusStep_fault
  | sox | eox | discardData | discardSyscommon | discardEox | discardRealtime | discardSysex =>
    obtain ⟨e, d, h⟩ := onWire_fault h; cases h
  | data b => obtain ⟨e, d, h⟩ := onWire_fault h; exact absurd h dataStep_fault
  | decByte b => obtain ⟨e, -, h⟩ := guarded_fault h; exact absurd h feedByte_fault
  | decParse bytes n =>
    obtain ⟨e, -, h⟩ := guarded_fault h
    obtain ⟨d, -, h⟩ := onDecoder_fault h
    split at h
    · cases h
    cases bytes with
    | nil => cases h
    | cons b rest => exact absurd h feedByte_fault
  | inWrite | outEnq | epClose => obtain ⟨e, -, h⟩ := guarded_fault h; cases h
  | inRead =>
    obtain ⟨e, ha, h⟩ := guarded_fault h
    split at h
    · cases h
    · rename_i hne
      split at h
      · exact ⟨e, ha.present, by simpa using hne, ‹_›⟩
      · cases h
  | outEnqn => obtain ⟨e, -, h⟩ := guarded_fault h; exact absurd h enqueueAll_fault
  | outDrain | outPoll =>
    obtain ⟨e, -, h⟩ := guarded_fault h; exact absurd (onTransport_fault h) drainStart_fault
  | mqPeek | mqAvail =>
    obtain ⟨e, -, h⟩ := guarded_fault h
    obtain ⟨d, -, h⟩ := onDecoder_fault h
    cases onSlot_fault h
  | mqNext =>
    obtain ⟨e, -, h⟩ := guarded_fault h
    obtain ⟨d, -, h⟩ := onDecoder_fault h
    have h := onSlot_fault h
    split at h <;> cases h
  | encNoteoff | encNoteon | encPolykey | encCc | encProgram | encChanpress | encPitchbend =>
    simp only [exec] at h; exact absurd h encodeAll_fault
  | decSetcb =>
    obtain ⟨e, -, h⟩ := guarded_fault h
    obtain ⟨d, -, h⟩ := onDecoder_fault h
    split at h <;> cases h
  | inPoll => obtain ⟨e, -, h⟩ := guarded_fault h; cases onTransport_fault h
  | epReset =>
    simp only [exec, execEpReset] at h
    repeat' split at h
    all_goals cases h

/-- Of the later steps those of a drain and of the decoder feed read storage (20_memory.md R77;
45_bridge_and_system.md R232). -/
theorem runMicro_fault {m : Micro} {s : State} {f : Fault} (h : runMicro m s = .fault f) :
    ∃ e, s.ep = some e ∧
      ((∃ r0 n i burst poll, m = .drainRead r0 n i burst poll ∧
          Memory.read e.output.cells (modAdd r0 i e.output.cap) = none) ∨
       (∃ w0 i, m = .pollFeed w0 i ∧ Memory.read e.input.cells (modAdd w0 i e.input.cap) = none)) := by
  cases m with
  | drainRead r0 n i burst poll =>
    obtain ⟨e, he, h⟩ := onEndpoint_fault h
    simp only at h
    split at h
    · exact ⟨e, he, .inl ⟨r0, n, i, burst, poll, rfl, ‹_›⟩⟩
    · split at h <;> cases h
  | pollFeed w0 i =>
    obtain ⟨e, he, h⟩ := onEndpoint_fault h
    simp only at h
    split at h
    · exact ⟨e, he, .inr ⟨w0, i, rfl, ‹_›⟩⟩
    · exact absurd h feedByte_fault
  | decByte => exact absurd h feedByte_fault
  | inWriteStore | outEnq | drainFinish | pollSnap | pollStore => obtain ⟨e, -, h⟩ := onEndpoint_fault h; cases h
  | advance | peekFinish | nextPeek | nextFinish =>
    obtain ⟨e, -, h⟩ := onEndpoint_fault h
    obtain ⟨d, -, h⟩ := onDecoder_fault h
    cases h
  | callback =>
    obtain ⟨e, -, h⟩ := onEndpoint_fault h
    obtain ⟨d, -, h⟩ := onDecoder_fault h
    split at h <;> cases h
  | pollDraw =>
    simp only [runMicro, pollDrawStep] at h
    split at h <;> cases h
  | pollNext =>
    obtain ⟨e, -, h⟩ := onEndpoint_fault h
    split at h <;> cases h
  | closeTransport | closeDestroy | lost => cases h

/-! ### The bytes read are there -/

theorem exec_ne_fault {s : State} (hok : ∀ e, s.ep = some e → e.Ok) {i : Instr} {f : Fault} :
    exec i s ≠ .fault f := by
  intro hf
  obtain ⟨e, he, hne, hr⟩ := exec_fault hf
  have hq := (hok e he).input
  have hu : 0 < e.input.unread := Nat.pos_of_ne_zero fun hz => by
    rw [hq.isEmpty_iff.2 hz] at hne; cases hne
  have hw := hq.written 0 hu
  rw [modAdd_zero hq.read_in, hr] at hw
  cases hw

theorem runMicro_ne_fault {s : State} (hok : ∀ e, s.ep = some e → e.Ok) {m : Micro} (hm : s.Takes m) {f : Fault} :
    runMicro m s ≠ .fault f := by
  intro hf
  obtain ⟨e, he, ⟨r0, n, i, burst, poll, rfl, hr⟩ | ⟨w0, i, rfl, hr⟩⟩ := runMicro_fault hf
  · obtain ⟨rfl, hi, -, hn⟩ := hm.ready e he
    have hw := (hok e he).output.isSome_drainable hn hi
    rw [hr] at hw; cases hw
  · have hw : (Memory.read e.input.cells (modAdd w0 i e.input.cap)).isSome = true := hm.ready e he
    rw [hr] at hw; cases hw

theorem SysInv.runAgent_ne_fault {s : State} (h : SysInv s) {a : Agent} {f : Fault} :
    Machine.runAgent a s ≠ .fault f := by
  intro hf
  rcases runAgent_cases hf with hx | ⟨k, rest, hk, hf⟩
  · cases hx
  · cases k with
    | issue i =>
      simp only [runTask] at hf
      split at hf
      · exact exec_ne_fault (s := s.turnOf a rest) h.endpoint hf
      · cases hf
    | micro m => exact runMicro_ne_fault (s := s.turnOf a rest) h.endpoint (h.takes hk) hf

/-- Settles O4: only an agent's turn reads storage, and the invariant has every byte its task reads. -/
theorem invStepNeverFaults : Obligations.InvStepNeverFaults := by
  intro s f h hf
  obtain ⟨v, x, hv, heq⟩ := step_eq_takeEvent s
  have hf : takeEvent x (s.setEnv v) = .fault f := heq.symm.trans hf
  cases x with
  | act a => exact (h.setEnv hv).runAgent_ne_fault hf
  | openTransport | register | shutdown => cases hf

end Sys2Proof.Machine
end

section
/-! SUPPORT. Who writes which register of the endpoint, read off from the effect of a turn. -/

namespace Sys2Proof.Machine

/-! ### Cursors, storages and parameters -/

/-- Agent `a` takes the endpoint from `e` to `e'` and moves no cursor, writes no storage but its own, and no
parameter, `drv` being the decoder's driver (10_state.md R22; 00_scope.md R5). -/
structure Endpoint.MovedBy (drv a : Agent) (e e' : Endpoint) : Prop where
  inputWritten : e'.input.w ≠ e.input.w ∨ e'.input.cells ≠ e.input.cells → a = .bgIn
  inputRead : e'.input.r ≠ e.input.r → a = .rt
  outputWritten : e'.output.w ≠ e.output.w ∨ e'.output.cells ≠ e.output.cells → a = .rt
  outputRead : e'.output.r ≠ e.output.r → a = .bgOut ∨ (a = .bgIn ∧ drv = .bgIn)
  inputCap : e'.input.cap = e.input.cap
  outputCap : e'.output.cap = e.output.cap
  slots : ∀ d, e.dec = some d → ∃ d', e'.dec = some d' ∧ d'.store.length = d.store.length
  noDecoder : e.dec = none → e'.dec = none

namespace Endpoint.MovedBy
variable {drv a : Agent} {e : Endpoint}

theorem refl : e.MovedBy drv a e where
  inputWritten := by simp
  inputRead := by simp
  outputWritten := by simp
  outputRead := by simp
  inputCap := rfl
  outputCap := rfl
  slots := fun d hd => ⟨d, hd, rfl⟩
  noDecoder := id

theorem accept (ha : a = .bgIn) (bytes : List Byte) (n : Nat) :
    e.MovedBy drv a { e with input := e.input.accept bytes n } :=
  { refl (drv := drv) (a := a) with inputWritten := fun _ => ha, inputRead := by simp, inputCap := rfl }

theorem consume (ha : a = .rt) (n : Nat) : e.MovedBy drv a { e with input := e.input.consume n } :=
  { refl (drv := drv) (a := a) with inputWritten := by simp, inputRead := fun _ => ha, inputCap := rfl }

theorem enqueue (ha : a = .rt) (b : Byte) : e.MovedBy drv a { e with output := e.output.enqueue b } :=
  { refl (drv := drv) (a := a) with outputWritten := fun _ => ha, outputRead := by simp, outputCap := rfl }

theorem resume (ha : a = .bgOut ∨ (a = .bgIn ∧ drv = .bgIn)) (r0 n : Nat) :
    e.MovedBy drv a { e with output := e.output.resume r0 n } :=
  { refl (drv := drv) (a := a) with
    outputWritten := by simp [Ring.resume], outputRead := fun _ => ha, outputCap := rfl }

theorem setDec {d d' : Dec} (hd : e.dec = some d) (hlen : d'.store.length = d.store.length) :
    e.MovedBy drv a { e with dec := some d' } :=
  { refl (drv := drv) (a := a) with
    slots := fun x hx => ⟨d', rfl, by cases hd.symm.trans hx; exact hlen⟩
    noDecoder := fun hx => by cases hd.symm.trans hx }

end Endpoint.MovedBy

/-- A turn's task, if a later step only of its own agent's, keeps to what its agent owns. -/
theorem Effect.movedBy {k : Task} {s t : State} (h : Effect k s t)
    (hb : ∀ m, k = .micro m → m.belongs s.driverAgent s.cur) {e e' : Endpoint} (he : s.ep = some e)
    (he' : t.ep = some e') : e.MovedBy s.driverAgent s.cur e' := by
  cases h with
  | quiet ep => cases he.symm.trans (ep.symm.trans he'); exact .refl
  | created gone => cases gone.symm.trans he
  | destroyed gone => cases gone.symm.trans he'
  | accepted x rs count bytes ep ep' _ task =>
    cases ep.symm.trans he; cases ep'.symm.trans he'
    refine .accept ?_ _ _
    rcases task with hk | ⟨w0, f, hk, -⟩
    · exact hb _ hk
    · exact hb _ hk
  | consumed x v ep _ _ ep' _ who => cases ep.symm.trans he; cases ep'.symm.trans he'; exact .consume who _
  | enqueued x b ep ep' _ who =>
    cases ep.symm.trans he; cases ep'.symm.trans he'
    exact .enqueue (who.elim id fun ⟨fin, hk⟩ => hb _ hk) _
  | drained x r0 n burst poll ep task _ ep' =>
    cases ep.symm.trans he; cases ep'.symm.trans he'
    exact .resume ((hb _ task).imp id fun ⟨hin, hdrv⟩ => ⟨hin, hdrv.symm.trans hin⟩) _ _
  | decoded x d d' ep dec ep' _ change =>
    cases ep.symm.trans he; cases ep'.symm.trans he'; exact .setDec dec change.length
  | advanced x d fin ep dec _ ep' => cases ep.symm.trans he; cases ep'.symm.trans he'; exact .setDec dec rfl
  | registered x d f a ep dec _ ep' => cases ep.symm.trans he; cases ep'.symm.trans he'; exact .setDec dec rfl

/-- Settles O5: an event at the boundary leaves the endpoint alone, and a turn's effect is its agent's. -/
theorem cursorOwnership : Obligations.CursorOwnership := by
  intro s t e e' h ht he he'
  suffices hm : e.MovedBy s.driverAgent t.cur e' ∧ t.env.cursorBits = s.env.cursorBits by
    obtain ⟨hm, hbits⟩ := hm
    exact ⟨hm.inputWritten, hm.inputRead, hm.outputWritten, hm.outputRead, hbits, hm.inputCap, hm.outputCap,
      hm.slots, hm.noDecoder⟩
  rcases step_turn ht with hbeside | ⟨v, a, k, rest, hv, -, hk, ht⟩
  · cases he.symm.trans (hbeside.ep.symm.trans he')
    exact ⟨.refl, hbeside.cursorBits⟩
  · obtain ⟨hcur, -, hbits, -, -⟩ := kept_task ht
    have hdrv : (s.setEnv v).driverAgent = s.driverAgent := congrArg Driver.agent hv.driver
    have hmoved := (runTask_effect ht).movedBy (fun m hm => by
      subst hm
      rw [turnOf_driverAgent, hdrv]
      exact h.roles a m (by rw [hk]; exact List.mem_cons_self)) he he'
    rw [turnOf_driverAgent, hdrv] at hmoved
    exact ⟨hcur ▸ hmoved, hbits.trans hv.cursorBits⟩

/-! ### The callback register pair -/

/-- A turn's task leaves the callback register pair alone, or it is a `DEC.SETCB` with the pair as its operands. -/
theorem Effect.callback {k : Task} {s t : State} (h : Effect k s t) {e e' : Endpoint} {d d' : Dec}
    (he : s.ep = some e) (he' : t.ep = some e') (hd : e.dec = some d) (hd' : e'.dec = some d') :
    (d'.cb = d.cb ∧ d'.cbArg = d.cbArg) ∨ k = .issue (.decSetcb d'.cb d'.cbArg) := by
  cases h with
  | quiet ep => cases he.symm.trans (ep.symm.trans he'); cases hd.symm.trans hd'; exact .inl ⟨rfl, rfl⟩
  | created gone => cases gone.symm.trans he
  | destroyed gone => cases gone.symm.trans he'
  | accepted x _ _ _ ep ep' | consumed x _ ep _ _ ep' | enqueued x _ ep ep' | drained x _ _ _ _ ep _ _ ep' =>
    cases ep.symm.trans he; cases ep'.symm.trans he'; cases hd.symm.trans hd'; exact .inl ⟨rfl, rfl⟩
  | decoded x d₀ d₁ ep dec ep' _ change =>
    cases ep.symm.trans he; cases ep'.symm.trans he'; cases dec.symm.trans hd; cases hd'
    exact .inl ⟨change.cb, change.cbArg⟩
  | advanced x d₀ fin ep dec _ ep' =>
    cases ep.symm.trans he; cases ep'.symm.trans he'; cases dec.symm.trans hd; cases hd'
    exact .inl ⟨rfl, rfl⟩
  | registered x d₀ f a ep dec task ep' =>
    cases ep.symm.trans he; cases ep'.symm.trans he'; cases hd'
    exact .inr task

/-- Settles O7: of all that a step can do only the issue of a `DEC.SETCB` reaches the pair. -/
theorem callbackRegisterWriters : Obligations.CallbackRegisterWriters := by
  intro s t e e' d d' ht he he' hd hd' hne
  rcases step_turn ht with hbeside | ⟨v, a, k, rest, -, -, hk, ht⟩
  · cases he.symm.trans (hbeside.ep.symm.trans he')
    cases hd.symm.trans hd'
    simp at hne
  · have hcur : t.cur = a := (kept_task ht).1
    rcases (runTask_effect ht).callback he he' hd hd' with ⟨hcb, harg⟩ | hissue
    · exact absurd hne (by simp [hcb, harg])
    · exact ⟨d'.cb, d'.cbArg, rest, by rw [hcur, hk, hissue], rfl, rfl⟩

end Sys2Proof.Machine
end

section
/-! SUPPORT. The state after reset. -/

namespace Sys2Proof.Machine

/-- Settles O1: each register is read off from the reset values of the rings and the decoder. -/
theorem resetGivesStatedValues : Obligations.ResetGivesStatedValues :=
  ⟨_, Dec.reset Config.resetMsgSlots, rfl, rfl, rfl, rfl, rfl, rfl, rfl, rfl, rfl, rfl, rfl, rfl, rfl,
    fun _ hm => List.eq_of_mem_replicate hm⟩

/-- Settles O2: nothing is in progress or polled, and the fresh endpoint is sound. -/
theorem resetMeetsInv : Obligations.ResetMeetsInv := by
  refine SysInv.of_issues (fun a m => ?_) (fun e he => ?_) (fun e d he hd => ?_) (.of_none rfl rfl) fun e he => ?_
  · cases a <;> exact List.not_mem_nil
  · cases he; exact Endpoint.ok_reset (by decide) (by decide) (by decide) _
  · cases he; exact completing_reset hd
  · cases he; exact ⟨by decide, by decide⟩

end Sys2Proof.Machine
end

section
/-! SUPPORT. A scheduled agent's turn: what it runs, by the first task of its list. -/

namespace Sys2Proof.Machine

theorem step_of_act {s : State} {a : Agent} {v : List Event} (h : s.env.sched = .act a :: v) :
    step s = runAgent a (s.setEnv { s.env with sched := v }) := by
  rw [step, h]; rfl

theorem runAgent_of_nil {a : Agent} {s : State} (h : (s.thread a).todo = []) : runAgent a s = .next s := by
  rw [runAgent, h]

theorem runAgent_of_cons {a : Agent} {s : State} {k : Task} {rest : List Task} (h : (s.thread a).todo = k :: rest) :
    runAgent a s = runTask k (s.turnOf a rest) := by
  rw [runAgent, h]

theorem runTask_issue {i : Instr} (h : i.wellFormed = true) (s : State) : runTask (.issue i) s = exec i s :=
  if_pos h

theorem runTask_illFormed {i : Instr} (h : i.wellFormed = false) (s : State) :
    runTask (.issue i) s = .refused .illFormed :=
  if_neg (by simp [h])

theorem step_of_todo {s : State} {a : Agent} {v : List Event} {k : Task} {rest : List Task}
    (hs : s.env.sched = .act a :: v) (hk : (s.thread a).todo = k :: rest) :
    step s = runTask k ((s.setEnv { s.env with sched := v }).turnOf a rest) :=
  (step_of_act hs).trans (runAgent_of_cons (s := s.setEnv _) hk)

/-- Settles O15: the schedule names the agent, and the head of its list the task that runs. -/
theorem stepRunsNextTask : Obligations.StepRunsNextTask := by
  intro s a v hs
  refine ⟨fun i rest hk hw => ?_, fun i rest hk hw => ?_, fun m rest hk => ?_, fun hk => ?_⟩
  · exact (step_of_todo hs hk).trans (runTask_issue hw _)
  · exact (step_of_todo hs hk).trans (runTask_illFormed hw _)
  · exact step_of_todo hs hk
  · exact (step_of_act hs).trans (runAgent_of_nil (s := s.setEnv _) hk)

end Sys2Proof.Machine
end

section
/-! SUPPORT. The end of a peek: the record it answers, and what it leaves alone. -/

namespace Sys2Proof.Machine

theorem slotAt_of_getElem? {d : Dec} {i : Nat} {m : Message} (h : d.store[i]? = some m) : d.slotAt i = m := by
  simp [Dec.slotAt, List.getD_eq_getElem?_getD, h]

theorem tornField_eq_or {α : Type} (useOld : Bool) (old new : α) :
    tornField useOld old new = old ∨ tornField useOld old new = new := by
  cases useOld
  · exact .inr rfl
  · exact .inl rfl

/-- Each field of `m` is that of `old` or that of `new` (20_memory.md R78). -/
structure Message.Torn (old new m : Message) : Prop where
  type : m.type = old.type ∨ m.type = new.type
  channel : m.channel = old.channel ∨ m.channel = new.channel
  data0 : m.data0 = old.data0 ∨ m.data0 = new.data0
  data1 : m.data1 = old.data1 ∨ m.data1 = new.data1
  dataByteCount : m.dataByteCount = old.dataByteCount ∨ m.dataByteCount = new.dataByteCount

theorem torn_tornMessage (mask : TearMask) (old new : Message) : old.Torn new (tornMessage mask old new) where
  type := tornField_eq_or _ _ _
  channel := tornField_eq_or _ _ _
  data0 := tornField_eq_or _ _ _
  data1 := tornField_eq_or _ _ _
  dataByteCount := tornField_eq_or _ _ _

theorem torn_endPeek (s : State) (old new : Message) : old.Torn new (s.endPeek old new).1 := by
  unfold State.endPeek
  split
  · exact ⟨.inr rfl, .inr rfl, .inr rfl, .inr rfl, .inr rfl⟩
  · exact torn_tornMessage _ old new

theorem sameWork_endPeek (s : State) (old new : Message) : SameWork s (s.endPeek old new).2 where
  agent := endPeek_cur s old new
  others := fun b _ => endPeek_thread s old new b
  todo := by rw [endPeek_thread]

theorem runMicro_peekFinish {s : State} {e : Endpoint} {d : Dec} {i : Nat} {new : Message} (he : s.ep = some e)
    (hd : e.dec = some d) (hi : d.store[i]? = some new) (old : Message) :
    runMicro (.peekFinish i old) s = (s.endPeek old new).2.answer (.message (s.endPeek old new).1) := by
  rw [runMicro, peekFinishStep, onEndpoint_eq he, onDecoder_eq hd, slotAt_of_getElem? hi]

/-- Settles O46: the record is drawn field by field from the old and the new one, and if they are equal nothing is
drawn. -/
theorem racingPeekIsOldOrNewByField : Obligations.RacingPeekIsOldOrNewByField := by
  intro s e d i old new he hd hi
  have hret := (sameWork_endPeek s old new).returned (.message (s.endPeek old new).1)
  obtain ⟨htype, hchannel, hdata0, hdata1, hcount⟩ := torn_endPeek s old new
  refine ⟨_, (s.endPeek old new).1, runMicro_peekFinish he hd hi old, by simp, hret.ret, htype, hchannel, hdata0,
    hdata1, hcount, ?_⟩
  rintro rfl
  rw [endPeek_same]
  exact ⟨rfl, returned_finish s _⟩

end Sys2Proof.Machine
end

section
/-! SUPPORT. What one byte does to a decoder from its first to its last step, and where the messages of a list of
bytes stand. -/

namespace Sys2Proof.Machine

/-! ### One byte -/

/-- A decoder in AccumulatingData that is not completing has room for the byte (10_state.md R45 item 6). -/
theorem Dec.Ok.storeData_isSome {d : Dec} (h : d.Ok) (hst : d.state = .accumulatingData)
    (hc : d.completing = false) (b : Byte) : ∃ d', d.storeData b = some d' := by
  have hlt : d.elapsed < d.slot.dataByteCount := by simpa [Dec.completing, hst] using hc
  exact Machine.storeData_isSome hlt (by rw [h.slot_count]; exact count_ne_three _)

/-- A byte starts a message, or leaves the decoder in a state that takes no data bytes with all else as it was, or
is a data byte: one more of the message in progress, or its last, which hands the message over
(40_decoder.md R120). -/
theorem Dec.Ok.feed_cases {d : Dec} (h : d.Ok) (hc : d.completing = false) (b : Byte) :
    (d.state = .waitingForStatus ∧ 0x80#8 ≤ b ∧ b < 0xF0#8 ∧ d.handed b = none ∧
      d.feed b = d.acceptStatus (tableType (hiNibble b)) (loNibble b)) ∨
    (∃ st, st ≠ .accumulatingData ∧ d.handed b = none ∧ d.feed b = { d with state := st }) ∨
    (d.state = .accumulatingData ∧ ∃ d', d.storeData b = some d' ∧
      ((d'.elapsed ≠ d'.slot.dataByteCount ∧ d.handed b = none ∧ d.feed b = d') ∨
       (d'.elapsed = d'.slot.dataByteCount ∧ d.handed b = some d'.slot ∧ d.feed b = d'.advance))) := by
  cases hst : d.state with
  | waitingForStatus =>
    have hn : d.handed b = none := by simp only [Dec.handed, hst]
    have hf : d.feed b = if 0x80#8 ≤ b ∧ b < 0xF0#8 then d.acceptStatus (tableType (hiNibble b)) (loNibble b)
        else if b = 0xF0#8 then { d with state := .receivingSysex } else d := by simp only [Dec.feed, hst]
    split_ifs at hf with hb hx
    · exact .inl ⟨rfl, hb.1, hb.2, hn, hf⟩
    · exact .inr (.inl ⟨_, by simp, hn, hf⟩)
    · exact .inr (.inl ⟨d.state, by simp [hst], hn, hf⟩)
  | receivingSysex =>
    have hn : d.handed b = none := by simp only [Dec.handed, hst]
    have hf : d.feed b = if b = 0xF7#8 then { d with state := .waitingForStatus } else d := by
      simp only [Dec.feed, hst]
    split_ifs at hf with hx
    · exact .inr (.inl ⟨_, by simp, hn, hf⟩)
    · exact .inr (.inl ⟨d.state, by simp [hst], hn, hf⟩)
  | accumulatingData =>
    obtain ⟨d', hs⟩ := h.storeData_isSome hst hc b
    refine .inr (.inr ⟨rfl, d', hs, ?_⟩)
    by_cases hlast : d'.elapsed = d'.slot.dataByteCount
    · exact .inr ⟨hlast, by simp [Dec.handed, hst, hs, hlast], by simp [Dec.feed, hst, hs, hlast]⟩
    · exact .inl ⟨hlast, by simp [Dec.handed, hst, hs, hlast], by simp [Dec.feed, hst, hs, hlast]⟩

/-- A whole `DEC.BYTE` leaves a sound decoder that is between messages or owes data bytes. -/
theorem Dec.Ok.feed {d : Dec} (h : d.Ok) (hc : d.completing = false) (b : Byte) :
    (d.feed b).Ok ∧ (d.feed b).completing = false := by
  rcases h.feed_cases hc b with ⟨-, hlo, hhi, -, hf⟩ | ⟨st, hst, -, hf⟩ | ⟨hst, d', hs, ⟨hne, -, hf⟩ | ⟨-, -, hf⟩⟩ <;>
    rw [hf]
  · have ht := tableType_ne_none hlo hhi
    exact ⟨h.acceptStatus ht _, acceptStatus_not_completing h ht _⟩
  · exact ⟨h.goto hst, not_completing_of_state hst⟩
  · exact ⟨h.storeData hst hs, storeData_not_completing h hst hs hne⟩
  · exact ⟨(h.storeData hst hs).advance, not_completing_of_state (by simp [Dec.advance])⟩

/-- Of the store a byte changes the slot at `writeSlot` alone; the byte that hands a message over leaves it there
and moves on. -/
theorem Dec.Ok.handed_feed {d : Dec} (h : d.Ok) (hc : d.completing = false) (b : Byte) :
    (d.handed b = none ∧ d.Changed (d.feed b)) ∨
      ∃ d', d.Changed d' ∧ d.handed b = some d'.slot ∧ d.feed b = d'.advance := by
  rcases h.feed_cases hc b with ⟨-, -, -, hn, hf⟩ | ⟨st, -, hn, hf⟩ | ⟨-, d', hs, ⟨-, hn, hf⟩ | ⟨-, hn, hf⟩⟩
  · exact .inl ⟨hn, hf ▸ .acceptStatus d _ _⟩
  · exact .inl ⟨hn, hf ▸ .goto d st⟩
  · exact .inl ⟨hn, hf ▸ .storeData hs⟩
  · exact .inr ⟨d', .storeData hs, hn, hf⟩

/-! ### The messages of a list of bytes -/

theorem Dec.Changed.slotAt {d d' : Dec} (h : d.Changed d') {k : Nat} (hk : k ≠ d.writeSlot) :
    d'.slotAt k = d.slotAt k := by
  simp only [Dec.slotAt, List.getD_eq_getElem?_getD, h.others k hk]

/-- From `d` to `d'` the messages `ms` were completed: message `j` stands `j` places after the first, unless the
decoder has come round to that slot again (20_memory.md R71). -/
structure Dec.Completed (d d' : Dec) (ms : List Message) : Prop where
  length : d'.store.length = d.store.length
  writeSlot : d'.writeSlot = (d.writeSlot + ms.length) % d.store.length
  stands : ∀ j, j < ms.length → ms.length < j + d.store.length →
    ms[j]? = some (d'.slotAt ((d.writeSlot + j) % d.store.length))

namespace Dec.Completed
variable {d d' d'' : Dec} {ms : List Message}

theorem refl (h : d.writeSlot < d.store.length) : d.Completed d [] where
  length := rfl
  writeSlot := (Nat.mod_eq_of_lt h).symm
  stands := fun j hj => absurd hj (Nat.not_lt_zero j)

/-- The slot at `writeSlot` is none of those in which the messages stand. -/
theorem changed (h : d.Completed d' ms) (hx : d'.Changed d'') : d.Completed d'' ms where
  length := hx.length.trans h.length
  writeSlot := hx.writeSlot.trans h.writeSlot
  stands := fun j hj hround => by
    rw [hx.slotAt (by rw [h.writeSlot]; exact mod_ne_of_lt hj hround)]
    exact h.stands j hj hround

/-- The record at `writeSlot` is the next message. -/
theorem advance (h : d.Completed d' ms) : d.Completed d'.advance (ms ++ [d'.slot]) where
  length := h.length
  writeSlot := by
    show (d'.writeSlot + 1) % d'.store.length = _
    rw [h.writeSlot, h.length, Nat.mod_add_mod, List.length_append, List.length_singleton, Nat.add_assoc]
  stands := fun j hj hround => by
    rw [List.length_append, List.length_singleton] at hj hround
    rcases Nat.lt_succ_iff_lt_or_eq.1 hj with hlt | rfl
    · rw [List.getElem?_append_left hlt]
      exact h.stands j hlt (by omega)
    · rw [List.getElem?_concat_length, ← h.writeSlot]
      rfl

theorem feed (h : d.Completed d' ms) (hok : d'.Ok) (hc : d'.completing = false) (b : Byte) :
    d.Completed (d'.feed b) (ms ++ (d'.handed b).toList) := by
  rcases hok.handed_feed hc b with ⟨hn, hx⟩ | ⟨x, hx, hn, hf⟩
  · rw [hn, Option.toList_none, List.append_nil]
    exact h.changed hx
  · rw [hn, hf]
    exact (h.changed hx).advance

theorem feedAll (h : d.Completed d' ms) (hok : d'.Ok) (hc : d'.completing = false) (bytes : List Byte) :
    d.Completed (bytes.foldl Dec.feed d') (ms ++ d'.messages bytes) := by
  induction bytes generalizing d' ms with
  | nil => rw [Dec.messages, List.append_nil]; exact h
  | cons b rest ih =>
    obtain ⟨hok', hc'⟩ := hok.feed hc b
    rw [Dec.messages, ← List.append_assoc]
    exact ih (h.feed hok hc b) hok' hc'

end Dec.Completed

/-- Settles O30: byte by byte, each message handed over is put behind those that stand in the store. -/
theorem messagesStandInDecodeOrder : Obligations.MessagesStandInDecodeOrder := by
  intro d bytes hok hc
  have hall := (Dec.Completed.refl hok.slot_in).feedAll hok hc bytes
  exact ⟨hall.writeSlot, hall.stands⟩

end Sys2Proof.Machine
end

section
/-! SUPPORT. The table as a map: the one row that applies to a byte gives its instruction, and the row's instruction
encodes back to the byte. -/

namespace Sys2Proof

/-- Settles O12: the rows of each state, tried on every byte. -/
theorem oneRowAppliesToEachByte : Obligations.OneRowAppliesToEachByte := by
  intro st
  cases st with
  | waitingForStatus => decide
  | receivingSysex => decide
  | accumulatingData => decide

/-- A row that applies is the only one, so it is the one that is found. -/
theorem decodeByte_of_applies {row : WireRow} (hmem : row ∈ wireRows) {st : DecState} {b : Byte}
    (h : row.applies st b = true) : decodeByte st b = some (row.build b) := by
  obtain ⟨only, honly⟩ := List.length_eq_one_iff.1 (oneRowAppliesToEachByte st b)
  have hrow : row ∈ wireRows.filter (·.applies st b) := List.mem_filter.2 ⟨hmem, h⟩
  obtain rfl : row = only := by simpa [honly] using hrow
  rw [decodeByte, ← List.head?_filter, honly]
  rfl

theorem exists_row_of_decodeByte {st : DecState} {b : Byte} {i : Instr} (h : decodeByte st b = some i) :
    ∃ row ∈ wireRows, row.applies st b = true ∧ row.build b = i := by
  obtain ⟨row, hfind, hi⟩ := Option.map_eq_some_iff.1 h
  exact ⟨row, List.mem_of_find?_eq_some hfind, by simpa using List.find?_some hfind, hi⟩

/-- What a row builds from a byte it applies to, that byte encodes. -/
theorem WireRow.encode_build : ∀ row ∈ wireRows, ∀ b : Byte, row.applies row.state b = true →
    (row.build b).wellFormed = true ∧ encode (row.build b) = some (row.state, b) := by
  decide

theorem WireRow.state_of_applies {row : WireRow} {st : DecState} {b : Byte} (h : row.applies st b = true) :
    row.state = st := by
  simp only [WireRow.applies, Bool.and_eq_true, beq_iff_eq] at h
  exact h.1

theorem encode_of_decodeByte {st : DecState} {b : Byte} {i : Instr} (h : decodeByte st b = some i) :
    i.wellFormed = true ∧ encode i = some (st, b) := by
  obtain ⟨row, hmem, ha, rfl⟩ := exists_row_of_decodeByte h
  obtain rfl := row.state_of_applies ha
  exact row.encode_build hmem b ha

theorem exists_row_applies (st : DecState) (b : Byte) : ∃ row ∈ wireRows, row.applies st b = true := by
  obtain ⟨row, hrow⟩ := List.length_eq_one_iff.1 (oneRowAppliesToEachByte st b)
  exact ⟨row, List.mem_filter.1 (hrow ▸ List.mem_singleton_self row)⟩

/-- Whatever the operand bits, the byte of a wire instruction finds a row that builds the instruction again; a port
operation has no byte. -/
theorem decodeByte_of_encode {i : Instr} {st : DecState} {b : Byte} (hw : i.wellFormed = true)
    (h : encode i = some (st, b)) : decodeByte st b = some i := by
  cases i with
  | noteoff v | noteon v | polykey v | cc v | program v | chanpress v | pitchbend v
  | discardData v | discardRealtime v => cases h; revert v; decide
  | sox | discardEox | eox => cases h; rfl
  | discardSyscommon _ | discardSysex _ | data _ => cases h; revert b; decide
  | _ => cases h

theorem decode_cons_eq_ok_iff {st : DecState} {b : Byte} {rest : List Byte} {i : Instr} :
    decode st (b :: rest) = .ok (i, rest) ↔ decodeByte st b = some i := by
  cases h : decodeByte st b <;> simp [decode, h]

/-- Settles O10: the byte of the encoding decodes to the instruction, and only that byte is taken. -/
theorem decodeOfEncode : Obligations.DecodeOfEncode :=
  fun _ _ _ _ hw h => decode_cons_eq_ok_iff.2 (decodeByte_of_encode hw h)

/-- Settles O11: the row that applies builds the instruction. -/
theorem encodeOfDecode : Obligations.EncodeOfDecode := by
  intro st b rest
  obtain ⟨row, hmem, ha⟩ := exists_row_applies st b
  have hi := decodeByte_of_applies hmem ha
  exact ⟨row.build b, decode_cons_eq_ok_iff.2 hi, encode_of_decodeByte hi⟩

/-- As `decodeByte_of_encode`, for a byte that is only equal to the encoding. -/
theorem decodeByte_of_eq_encoding {i : Instr} {st : DecState} {b c : Byte} (h : encode i = some (st, c))
    (hw : i.wellFormed = true) (hc : c = b) : decodeByte st b = some i :=
  hc ▸ decodeByte_of_encode hw h

/-- Settles O13: in each range the operand bits the map names, put behind the bits that are fixed there, give the
byte again, so it is the encoding. -/
theorem everyByteDecodesByTheMap : Obligations.EveryByteDecodesByTheMap := by
  intro b
  refine ⟨?_, ?_, ?_, ?_, ?_, ?_, ?_, ?_, fun h => decodeByte_of_eq_encoding rfl rfl h.symm,
    fun h => decodeByte_of_encode (by simpa [Instr.wellFormed] using h) rfl,
    fun h => ⟨decodeByte_of_eq_encoding rfl rfl h.symm, decodeByte_of_eq_encoding rfl rfl h.symm⟩, ?_,
    fun h => decodeByte_of_encode (by simpa [Instr.wellFormed] using h) rfl, decodeByte_of_encode rfl rfl⟩
  all_goals
    intro _
    refine decodeByte_of_eq_encoding rfl rfl ?_
    revert b
    decide

/-- Settles O14: each byte is the encoding of the instruction it is listed with. -/
theorem wireBytesDecodeAsListed : Obligations.WireBytesDecodeAsListed := by
  intro p hp
  have hlisted : p.2.2.wellFormed = true ∧ encode p.2.2 = some (p.1, p.2.1) := by
    revert p
    decide
  exact decodeByte_of_encode hlisted.1 hlisted.2

end Sys2Proof
end

section
/-! SUPPORT. A byte placed for the decoder's driver: the step issues it as a `DEC.BYTE`, which is the instruction the
byte decodes to. -/

namespace Sys2Proof.Machine

open Laws

/-! ### `DEC.BYTE` and the wire rows -/

theorem guarded_of_ep {r : Role} {s : State} {e : Endpoint} (he : s.ep = some e) (k : Endpoint → Outcome) :
    guarded r s k = guarded r s fun _ => k e := by
  simp only [guarded, he]

theorem onWire_of_dec {st : DecState} {s : State} {e : Endpoint} {d : Dec} (he : s.ep = some e)
    (hd : e.dec = some d) (hst : d.state = st) (k : Endpoint → Dec → Outcome) :
    onWire st s k = guarded .driver s fun _ => k e d := by
  rw [onWire, guarded_of_ep he, onDecoder_eq hd, if_pos hst]

theorem feedByte_eq {s : State} {e : Endpoint} {d : Dec} (he : s.ep = some e) (hd : e.dec = some d) (b : Byte)
    (fin : Option Result) : feedByte b fin s = byteStep b fin s e d := by
  rw [feedByte, onEndpoint_eq he, onDecoder_eq hd]

section byteStep
variable {b : Byte} {fin : Option Result} {s : State} {e : Endpoint} {d : Dec}

/-- A status byte is its message type in the high nibble and the channel in the low one (30_encoding.md R91). -/
theorem byteStep_append (hst : d.state = .waitingForStatus) {h ch : BitVec 4} (hlo : 8#4 ≤ h) (hhi : h ≠ 15#4) :
    byteStep (h ++ ch) fin s e d = statusStep (tableType (h ++ 0#4)) ch fin s e d := by
  have hrange : 0x80#8 ≤ h ++ ch ∧ h ++ ch < 0xF0#8 := by revert h ch; decide
  have hhigh : hiNibble (h ++ ch) = h ++ 0#4 := by revert h ch; decide
  have hlow : loNibble (h ++ ch) = ch := by revert h ch; decide
  rw [byteStep, hst, hhigh, hlow]
  exact if_pos hrange

theorem byteStep_sox (hst : d.state = .waitingForStatus) :
    byteStep 0xF0#8 fin s e d = gotoStep .receivingSysex fin s e d := by
  rw [byteStep, hst]; rfl

theorem byteStep_discard (hst : d.state = .waitingForStatus) (hb : b < 0x80#8 ∨ 0xF0#8 < b) :
    byteStep b fin s e d = discardStep fin s := by
  have hstatus : ¬(0x80#8 ≤ b ∧ b < 0xF0#8) := by bv_omega
  have hsox : b ≠ 0xF0#8 := by bv_omega
  simp only [byteStep, hst, if_neg hstatus, if_neg hsox]

theorem byteStep_eox (hst : d.state = .receivingSysex) :
    byteStep 0xF7#8 fin s e d = gotoStep .waitingForStatus fin s e d := by
  rw [byteStep, hst]; rfl

theorem byteStep_discardSysex (hst : d.state = .receivingSysex) (hb : b ≠ 0xF7#8) :
    byteStep b fin s e d = discardStep fin s := by
  simp only [byteStep, hst, if_neg hb]

theorem byteStep_data (hst : d.state = .accumulatingData) : byteStep b fin s e d = dataStep b fin s e d := by
  rw [byteStep, hst]

end byteStep

/-- A wire row that does with the decoder what `DEC.BYTE` does, refused where that is refused. -/
theorem exec_decByte_of_onWire {s : State} {e : Endpoint} {d : Dec} {b : Byte} {i : Instr} {st : DecState}
    {k : Endpoint → Dec → Outcome} (he : s.ep = some e) (hd : e.dec = some d) (hst : d.state = st)
    (hexec : exec i s = onWire st s k) (hstep : byteStep b (some .unit) s.begin e d = k e d) :
    exec (.decByte b) s = exec i s := by
  rw [hexec, onWire_of_dec he hd hst, ← hstep]
  exact congrArg (guarded .driver s) (funext fun _ => feedByte_eq (s := s.begin) he hd b _)

/-- A wire instruction is the `DEC.BYTE` of its encoding, in the state it is encoded in. -/
theorem exec_decByte_of_encode {s : State} {e : Endpoint} {d : Dec} {b : Byte} {i : Instr} (he : s.ep = some e)
    (hd : e.dec = some d) (hw : i.wellFormed = true) (h : encode i = some (d.state, b)) :
    exec (.decByte b) s = exec i s := by
  obtain ⟨st, hst⟩ : ∃ st, d.state = st := ⟨_, rfl⟩
  rw [hst] at h
  cases i with
  | noteoff ch | noteon ch | polykey ch | cc ch | program ch | chanpress ch | pitchbend ch =>
    cases h
    exact exec_decByte_of_onWire he hd hst rfl (byteStep_append hst (by decide) (by decide))
  | sox => cases h; exact exec_decByte_of_onWire he hd hst rfl (byteStep_sox hst)
  | discardData v =>
    obtain ⟨rfl, -, hhi⟩ := WireRange.discardData v st b hw h
    exact exec_decByte_of_onWire he hd hst rfl (byteStep_discard hst (.inl (by bv_omega)))
  | discardSyscommon v =>
    obtain ⟨rfl, hlo, -⟩ := WireRange.discardSyscommon v st b hw h
    exact exec_decByte_of_onWire he hd hst rfl (byteStep_discard hst (.inr (by bv_omega)))
  | discardEox => cases h; exact exec_decByte_of_onWire he hd hst rfl (byteStep_discard hst (.inr (by decide)))
  | discardRealtime v =>
    obtain ⟨rfl, hlo, -⟩ := WireRange.discardRealtime v st b hw h
    exact exec_decByte_of_onWire he hd hst rfl (byteStep_discard hst (.inr (by bv_omega)))
  | eox => cases h; exact exec_decByte_of_onWire he hd hst rfl (byteStep_eox hst)
  | discardSysex v =>
    obtain ⟨rfl, hne⟩ := WireRange.discardSysex v st b hw h
    exact exec_decByte_of_onWire he hd hst rfl (byteStep_discardSysex hst hne)
  | data v => cases h; exact exec_decByte_of_onWire he hd hst rfl (byteStep_data hst)
  | _ => cases h

/-! ### The placed byte -/

/-- A turn starts from the agent's work with the task that was put before it taken off again. -/
theorem turnOf_setThread_cons (s : State) (a : Agent) (v : Env) (k : Task) :
    ((s.setThread a { s.thread a with todo := k :: (s.thread a).todo }).setEnv v).turnOf a (s.thread a).todo =
      (s.setEnv v).turnOf a (s.thread a).todo := by
  cases a <;> rfl

/-- The driver's turn issues the placed byte, its own work still to come. -/
theorem step_withFetchWord (s : State) (b : Byte) :
    step (s.withFetchWord 8 b.toNat) =
      exec (.decByte b) ((s.setEnv { s.env with polledIn := s.env.polledIn || s.driverAgent == .bgIn }).turnOf
        s.driverAgent (s.thread s.driverAgent).todo) := by
  have hbyte : BitVec.ofNat 8 (b.toNat % 2 ^ min 8 8) = b := by
    rw [Nat.min_self, Nat.mod_eq_of_lt b.isLt, BitVec.ofNat_toNat, BitVec.setWidth_eq]
  have hsched : (s.withFetchWord 8 b.toNat).env.sched = .act s.driverAgent :: s.env.sched := rfl
  have htodo : ((s.withFetchWord 8 b.toNat).thread s.driverAgent).todo =
      .issue (.decByte b) :: (s.thread s.driverAgent).todo := by
    simp only [State.withFetchWord, setEnv_thread, thread_setThread_self, hbyte]
  rw [step_of_todo hsched htodo, runTask_issue rfl]
  exact congrArg (exec (.decByte b)) (turnOf_setThread_cons s s.driverAgent _ _)

/-- Settles O16: the placed `DEC.BYTE` is the instruction that its byte decodes to. -/
theorem stepRunsDecodedByte : Obligations.StepRunsDecodedByte := by
  intro s e d b i he hd hdec
  obtain ⟨hw, henc⟩ := encode_of_decodeByte (decode_cons_eq_ok_iff.1 hdec)
  exact (step_withFetchWord s b).trans (exec_decByte_of_encode he hd hw henc)

end Sys2Proof.Machine
end

section
/-! SUPPORT. The wire rows between messages: what `DEC.BYTE` has to do with them, and the state each leaves. -/

namespace Sys2Proof.Machine

/-- Settles O17: what the byte decodes to encodes back to the byte. -/
theorem decByteIsDecodedInstruction : Obligations.DecByteIsDecodedInstruction := by
  intro s e d b i he hd hdec
  obtain ⟨hw, henc⟩ := encode_of_decodeByte hdec
  exact exec_decByte_of_encode he hd hw henc

/-- A type with data bytes goes to AccumulatingData (40_decoder.md R128). -/
theorem acceptStatus_eq {T : MsgType} (hT : T ≠ .none) (d : Dec) (ch : Channel) :
    d.acceptStatus T ch = { d with
      state := .accumulatingData, elapsed := 0
      store := d.store.set d.writeSlot { d.slot with type := T, channel := ch, dataByteCount := T.count } } := by
  have hcount : T.count ≠ 0 := mt count_eq_zero.1 hT
  simp only [Dec.acceptStatus, Dec.setSlot, if_neg hcount]

theorem statusStep_eq {T : MsgType} (hT : T ≠ .none) (ch : Channel) (fin : Option Result) (s : State) (e : Endpoint)
    (d : Dec) : statusStep T ch fin s e d = .next ((s.setDec e (d.acceptStatus T ch)).finish fin) :=
  if_neg (mt count_eq_zero.1 hT)

section rows
variable {s : State} {e : Endpoint} {d : Dec} {st : DecState} {i : Instr}

/-- A row that changes the decoder to `d'` and returns. -/
theorem exec_row_setDec {k : Endpoint → Dec → Outcome} {d' : Dec} (h : s.Admits .driver e) (hd : e.dec = some d)
    (hst : d.state = st) (hexec : exec i s = onWire st s k)
    (hk : k e d = .next ((s.begin.setDec e d').finish (some .unit))) :
    ∃ t, exec i s = .next t ∧ Returned s t .unit ∧ t.ep = some { e with dec := some d' } :=
  ⟨_, hexec.trans ((onWire_eq h hd hst k).trans hk), returned_begin_setEndpoint s _ _, by simp⟩

/-- A status row of type `T`. -/
theorem exec_row_status {T : MsgType} {ch : Channel} (hT : T ≠ .none) (h : s.Admits .driver e) (hd : e.dec = some d)
    (hst : d.state = .waitingForStatus)
    (hexec : exec i s = onWire .waitingForStatus s (statusStep T ch (some .unit) s.begin)) :
    ∃ t, exec i s = .next t ∧ Returned s t .unit ∧
      t.ep = some { e with dec := some { d with
        state := .accumulatingData, elapsed := 0
        store := d.store.set d.writeSlot { d.slot with type := T, channel := ch, dataByteCount := T.count } } } :=
  acceptStatus_eq hT d ch ▸ exec_row_setDec h hd hst hexec (statusStep_eq hT ch _ _ e d)

/-- A discard. -/
theorem exec_row_discard (h : s.Admits .driver e) (hd : e.dec = some d) (hst : d.state = st)
    (hexec : exec i s = onWire st s fun _ _ => discardStep (some .unit) s.begin) :
    ∃ t, exec i s = .next t ∧ Returned s t .unit ∧ t.ep = s.ep :=
  ⟨_, hexec.trans (onWire_eq h hd hst _), (SameWork.refl s).begin.returned .unit, by simp⟩

end rows

/-- Settles O18: row by row, the type and the number of data bytes are those of the status table. -/
theorem statusRowsStartMessage : Obligations.StatusRowsStartMessage := by
  intro s e d ch i T n h hd hst hrow
  simp only [List.mem_cons, Prod.mk.injEq, List.not_mem_nil, or_false] at hrow
  rcases hrow with ⟨rfl, rfl, rfl⟩ | ⟨rfl, rfl, rfl⟩ | ⟨rfl, rfl, rfl⟩ | ⟨rfl, rfl, rfl⟩ | ⟨rfl, rfl, rfl⟩ |
    ⟨rfl, rfl, rfl⟩ | ⟨rfl, rfl, rfl⟩
  all_goals exact exec_row_status (by decide) h hd hst rfl

/-- Settles O19: both rows are a change of the control state that returns. -/
theorem sysexRowsMoveState : Obligations.SysexRowsMoveState :=
  fun _ _ _ h hd => ⟨fun hst => exec_row_setDec h hd hst rfl rfl, fun hst => exec_row_setDec h hd hst rfl rfl⟩

/-- Settles O20: each discard is a row that only returns. -/
theorem discardRowsChangeNothing : Obligations.DiscardRowsChangeNothing := by
  intro s e d h hd
  refine ⟨fun hst v b r i hi => ?_, fun hst b => exec_row_discard h hd hst rfl⟩
  simp only [List.mem_cons, List.not_mem_nil, or_false] at hi
  rcases hi with rfl | rfl | rfl | rfl
  all_goals exact exec_row_discard h hd hst rfl

end Sys2Proof.Machine
end

section
/-! SUPPORT. A data byte: what it stores, and the completion that follows the last one. -/

namespace Sys2Proof.Machine

/-! ### The registers -/

/-- `b` stored whole as data byte `elapsed` of the record at `writeSlot`, and counted (40_decoder.md R136). -/
def Dec.withData (d : Dec) (b : Byte) : Dec :=
  { d with
    elapsed := d.elapsed + 1
    store := d.store.set d.writeSlot
      (if d.elapsed = 0 then { d.slot with data0 := b } else { d.slot with data1 := b }) }

/-- A byte is owed before the last one is stored; `elapsed` does not wrap (10_state.md R45). -/
theorem Dec.Ok.owed_of_last {d : Dec} (h : d.Ok) (hlast : d.elapsed + 1 = d.slot.dataByteCount) :
    d.elapsed < d.slot.dataByteCount := by
  have hwrap := h.elapsed_le
  bv_omega

section withData
variable {d : Dec} (h : d.Ok) (howed : d.elapsed < d.slot.dataByteCount) (b : Byte)
include h howed

theorem Dec.Ok.storeData_eq : d.storeData b = some (d.withData b) := by
  obtain ⟨d', hs⟩ := Machine.storeData_isSome (b := b) howed (h.slot_count ▸ count_ne_three _)
  rw [hs]
  obtain ⟨-, ⟨h0, rfl⟩ | ⟨h1, rfl⟩⟩ := storeData_some hs
  · simp [Dec.withData, Dec.setSlot, h0]
  · simp [Dec.withData, Dec.setSlot, h1]

theorem Dec.Ok.withData_count : (d.withData b).slot.dataByteCount = d.slot.dataByteCount :=
  (slot_storeData h (h.storeData_eq howed b)).2

/-- The completion test is on the counted byte (40_decoder.md R137). -/
theorem Dec.Ok.dataStep_eq (fin : Option Result) (s : State) (e : Endpoint) :
    dataStep b fin s e d =
      if d.elapsed + 1 = d.slot.dataByteCount
      then .next ((s.setDec e (d.withData b)).push (completion (d.withData b) fin))
      else .next ((s.setDec e (d.withData b)).finish fin) := by
  simp only [dataStep, h.storeData_eq howed, h.withData_count howed]
  rfl

end withData

/-! ### The steps of a completion -/

/-- The handler has been called as in `cs`, and `rest` is what it is still to issue (60_exceptions.md R260; log 14). -/
def Env.afterCalls (v : Env) (cs : List Call) (rest : List (List Instr)) : Env :=
  { v with scripts := rest, calls := v.calls ++ cs }

theorem completion_of_cb_eq_none {d : Dec} (h : d.cb = none) (fin : Option Result) :
    completion d fin = [.micro (.advance fin)] := by
  rw [completion, h]
  rfl

theorem completion_of_cb_ne_none {d : Dec} (h : d.cb ≠ none) (fin : Option Result) :
    completion d fin = [.micro .callback, .micro (.advance fin)] :=
  if_pos (Option.isSome_iff_ne_none.2 h)

section completion
variable {s : State} {e : Endpoint} {d : Dec} {fin : Option Result} (he : s.ep = some e) (hd : e.dec = some d)
include he hd

theorem runMicro_advance : runMicro (.advance fin) s = .next ((s.setDec e d.advance).finish fin) := by
  rw [runMicro, advanceStep, onEndpoint_eq he, onDecoder_eq hd]

/-- The handler's call is recorded, and what it issues runs next (60_exceptions.md R260; log 14). -/
theorem runMicro_callback {h : Handler} {script : List Instr} {rest : List (List Instr)} (hcb : d.cb = some h)
    (hs : s.env.scripts = script :: rest) :
    runMicro .callback s =
      .next ((s.setEnv (s.env.afterCalls [⟨h, d.slot, d.cbArg⟩] rest)).push (script.map .issue)) := by
  have hdraw : (s.recordCall ⟨h, d.slot, d.cbArg⟩).drawScript =
      (script, s.setEnv (s.env.afterCalls [⟨h, d.slot, d.cbArg⟩] rest)) := by
    simp only [State.drawScript, State.recordCall, setEnv_env, hs]
    rfl
  rw [runMicro, callbackEnter, onEndpoint_eq he, onDecoder_eq hd, hcb]
  simp only [hdraw]

theorem turns_advance : turns s.cur 1 (s.push [.micro (.advance fin)]) = .next ((s.setDec e d.advance).finish fin) :=
  turns_push 0 (by rw [push_nil]; exact runMicro_advance he hd)

theorem turns_callback {h : Handler} {script : List Instr} {rest : List (List Instr)} (hcb : d.cb = some h)
    (hs : s.env.scripts = script :: rest) :
    turns s.cur 1 (s.push [.micro .callback, .micro (.advance fin)]) =
      .next ((s.setEnv (s.env.afterCalls [⟨h, d.slot, d.cbArg⟩] rest)).push
        (script.map .issue ++ [.micro (.advance fin)])) := by
  have hrun := runMicro_callback (s := s.push [.micro (.advance fin)]) he hd hcb hs
  rw [setEnv_push, push_push] at hrun
  exact turns_push 0 hrun

end completion

/-! ### The row -/

section row
variable {s : State} {e : Endpoint} {d : Dec} (h : s.Admits .driver e) (hd : e.dec = some d) (hok : d.Ok)
  (hst : d.state = .accumulatingData) (b : Byte)
include h hd hok hst

theorem exec_data_more (howed : d.elapsed < d.slot.dataByteCount) (hmore : d.elapsed + 1 ≠ d.slot.dataByteCount) :
    exec (.data b) s = .next ((s.begin.setDec e (d.withData b)).finish (some .unit)) :=
  (onWire_eq h hd hst _).trans ((hok.dataStep_eq howed b _ _ e).trans (if_neg hmore))

theorem exec_data_last (hlast : d.elapsed + 1 = d.slot.dataByteCount) :
    exec (.data b) s = .next ((s.begin.setDec e (d.withData b)).push (completion (d.withData b) (some .unit))) :=
  (onWire_eq h hd hst _).trans ((hok.dataStep_eq (hok.owed_of_last hlast) b _ _ e).trans (if_pos hlast))

end row

/-- Settles O21: after the byte the completion test tells whether the row returns or goes on, and the callback
register whether the handler is called first. -/
theorem dataRowStoresByte : Obligations.DataRowStoresByte := by
  intro s e d b h hd hok hst howed
  by_cases hlast : d.elapsed + 1 = d.slot.dataByteCount
  · have hgoes := ((SameWork.refl s).begin.setDec e (d.withData b)).goesOn (completion (d.withData b) (some .unit))
    refine ⟨_, exec_data_last h hd hok hst b hlast, rfl, fun hmore => absurd hlast hmore, fun _ hcb => ?_,
      fun _ hcb => ?_⟩
    · exact completion_of_cb_eq_none (d := d.withData b) hcb (some .unit) ▸ hgoes
    · exact completion_of_cb_ne_none (d := d.withData b) hcb (some .unit) ▸ hgoes
  · exact ⟨_, exec_data_more h hd hok hst b howed hlast, by rw [finish_ep]; rfl,
      fun _ => returned_begin_setEndpoint s _ _, fun hx => absurd hx hlast, fun hx => absurd hx hlast⟩

/-- Settles O22: the steps of the completion are the callback's, if a handler is registered, and the advance. -/
theorem completionSequence : Obligations.CompletionSequence := by
  intro s e d b h hd hok hst hlast
  have hsame := (SameWork.refl s).begin.setDec e (d.withData b)
  refine ⟨⟨_, _, d.withData b, exec_data_last h hd hok hst b hlast, rfl, rfl, hst, ?_, rfl, fun hcb => ?_,
    fun f script rest hcb hscripts => ?_⟩, fun x e2 d2 he2 hd2 => ?_⟩
  · exact hlast.trans (hok.withData_count (hok.owed_of_last hlast) b).symm
  · rw [completion_of_cb_eq_none (d := d.withData b) hcb]
    exact ⟨hsame.goesOn _, _, turns_advance (s := s.begin.setDec e (d.withData b)) rfl rfl,
      (hsame.setDec _ _).returned .unit, finish_ep _ _⟩
  · rw [completion_of_cb_ne_none (d := d.withData b) (hcb ▸ Option.some_ne_none f)]
    exact ⟨_, turns_callback (s := s.begin.setDec e (d.withData b)) rfl rfl hcb hscripts, rfl,
      (hsame.setEnv _).goesOn _⟩
  · exact ⟨_, runMicro_advance he2 hd2, returned_setEndpoint x _ _, finish_ep _ _⟩

end Sys2Proof.Machine
end

section
/-! SUPPORT. Uninterrupted `DEC.BYTE` and `DEC.PARSE`: the decoder goes from byte to byte by its one transition, and
a registered handler is called at each completion. -/

namespace Sys2Proof.Machine

/-! ### A handler that issues nothing -/

/-- `v'` is what a handler that issues nothing leaves of `v` when it is called for the messages `ms`: each call is
recorded and takes an empty script (log 14). With no handler registered nothing is called. -/
inductive Dec.CallsQuietly (d : Dec) (ms : List Message) (v : Env) : Env → Prop
  | unregistered (hcb : d.cb = none) : d.CallsQuietly ms v v
  | registered {h : Handler} {rest : List (List Instr)} (hcb : d.cb = some h)
      (hs : v.scripts = List.replicate ms.length [] ++ rest) :
      d.CallsQuietly ms v (v.afterCalls (ms.map fun m => ⟨h, m, d.cbArg⟩) rest)

namespace Dec.CallsQuietly
variable {d d' : Dec} {ms ns : List Message} {v v' : Env}

theorem eq_of_nil (h : d.CallsQuietly [] v v') : v' = v := by
  cases h with
  | unregistered => rfl
  | registered hcb hs => cases v; simp_all [Env.afterCalls]

/-- The calls for the first messages come first. -/
theorem split (h : d.CallsQuietly (ms ++ ns) v v') :
    ∃ v₁, d.CallsQuietly ms v v₁ ∧ d.CallsQuietly ns v₁ v' := by
  cases h with
  | unregistered hcb => exact ⟨v, .unregistered hcb, .unregistered hcb⟩
  | @registered f rest hcb hs =>
    rw [List.length_append, List.replicate_add, List.append_assoc] at hs
    refine ⟨_, .registered hcb hs, ?_⟩
    have hns := CallsQuietly.registered (d := d) (ms := ns)
      (v := v.afterCalls (ms.map fun m => ⟨f, m, d.cbArg⟩) (List.replicate ns.length [] ++ rest)) hcb rfl
    simpa [Env.afterCalls] using hns

/-- The handler is the callback register pair's. -/
theorem of_same (h : d.CallsQuietly ms v v') (hcb : d'.cb = d.cb) (harg : d'.cbArg = d.cbArg) :
    d'.CallsQuietly ms v v' := by
  cases h with
  | unregistered hnone => exact .unregistered (hcb.trans hnone)
  | registered hsome hs => rw [← harg]; exact .registered (hcb.trans hsome) hs

end Dec.CallsQuietly

/-! ### The decoder along a list -/

/-- No byte writes the callback register pair. -/
theorem Dec.Ok.feed_callback {d : Dec} (h : d.Ok) (hc : d.completing = false) (b : Byte) :
    (d.feed b).cb = d.cb ∧ (d.feed b).cbArg = d.cbArg := by
  rcases h.handed_feed hc b with ⟨-, hx⟩ | ⟨d', hx, -, hf⟩
  · exact ⟨hx.cb, hx.cbArg⟩
  · rw [hf]; exact ⟨hx.cb, hx.cbArg⟩

theorem Dec.Ok.feedAll {d : Dec} (h : d.Ok) (hc : d.completing = false) (bytes : List Byte) :
    (bytes.foldl Dec.feed d).Ok ∧ (bytes.foldl Dec.feed d).completing = false ∧
      (bytes.foldl Dec.feed d).cb = d.cb := by
  induction bytes generalizing d with
  | nil => exact ⟨h, hc, rfl⟩
  | cons b rest ih =>
    obtain ⟨hok, hcompl⟩ := h.feed hc b
    obtain ⟨hok', hcompl', hcb⟩ := ih hok hcompl
    exact ⟨hok', hcompl', hcb.trans (h.feed_callback hc b).1⟩

/-! ### One byte -/

theorem setDec_self {s : State} {e : Endpoint} {d : Dec} (he : s.ep = some e) (hd : e.dec = some d) :
    s.setDec e d = s := by
  cases s; cases e; cases he; cases hd; rfl

/-- The step that takes the byte makes the decoder's transition and returns; or the byte is the last one of a message,
and the completion is still to come. -/
theorem Dec.Ok.byteStep_cases {d : Dec} (h : d.Ok) (hc : d.completing = false) {s : State} {e : Endpoint}
    (he : s.ep = some e) (hd : e.dec = some d) (b : Byte) (fin : Option Result) :
    (d.handed b = none ∧ byteStep b fin s e d = .next ((s.setDec e (d.feed b)).finish fin)) ∨
    ∃ d', d.Changed d' ∧ d.handed b = some d'.slot ∧ d.feed b = d'.advance ∧
      byteStep b fin s e d = .next ((s.setDec e d').push (completion d' fin)) := by
  cases hst : d.state with
  | waitingForStatus =>
    refine .inl ⟨by simp only [Dec.handed, hst], ?_⟩
    simp only [byteStep, Dec.feed, hst]
    split_ifs with hb hx
    · exact statusStep_eq (tableType_ne_none hb.1 hb.2) _ _ _ _ _
    · rfl
    · rw [setDec_self he hd]; rfl
  | receivingSysex =>
    refine .inl ⟨by simp only [Dec.handed, hst], ?_⟩
    simp only [byteStep, Dec.feed, hst]
    split_ifs with hx
    · rfl
    · rw [setDec_self he hd]; rfl
  | accumulatingData =>
    obtain ⟨d', hs⟩ := h.storeData_isSome hst hc b
    simp only [byteStep, dataStep, Dec.feed, Dec.handed, hst, hs]
    split_ifs with hlast
    · exact .inr ⟨d', .storeData hs, rfl, rfl, rfl⟩
    · exact .inl ⟨rfl, rfl⟩

/-- The completion of a message, whether a handler is registered or not. -/
theorem completion_turns {s : State} {e : Endpoint} {d : Dec} {v : Env} (he : s.ep = some e) (hd : e.dec = some d)
    (hq : d.CallsQuietly [d.slot] s.env v) (fin : Option Result) :
    ∃ n, (d.cb = none → n ≤ 1) ∧
      turns s.cur n (s.push (completion d fin)) = .next (((s.setEnv v).setDec e d.advance).finish fin) := by
  cases hq with
  | unregistered hcb =>
    rw [completion_of_cb_eq_none hcb]
    exact ⟨1, fun _ => le_rfl, turns_advance he hd⟩
  | @registered f rest hcb hs =>
    have hne : d.cb ≠ none := hcb ▸ Option.some_ne_none f
    rw [completion_of_cb_ne_none hne]
    exact ⟨1 + 1, fun hx => absurd hx hne,
      turns_add (turns_callback he hd hcb hs) (turns_advance (s := s.setEnv _) he hd)⟩

/-- One `DEC.BYTE` from its first to its last step. -/
theorem feedByte_turns {s : State} {e : Endpoint} {d : Dec} {v : Env} (hok : d.Ok) (hc : d.completing = false)
    (he : s.ep = some e) (hd : e.dec = some d) (b : Byte) (hq : d.CallsQuietly (d.handed b).toList s.env v)
    (fin : Option Result) :
    ∃ n t, (d.cb = none → n ≤ 1) ∧ feedByte b fin s = .next t ∧
      turns s.cur n t = .next (((s.setEnv v).setDec e (d.feed b)).finish fin) := by
  rw [feedByte_eq he hd]
  rcases hok.byteStep_cases hc he hd b fin with ⟨hn, hstep⟩ | ⟨d', hx, hm, hf, hstep⟩
  · rw [hn] at hq
    cases hq.eq_of_nil
    exact ⟨0, _, fun _ => Nat.zero_le 1, hstep, rfl⟩
  · rw [hm] at hq
    obtain ⟨n, hle, hturns⟩ := completion_turns (s := s.setDec e d') rfl rfl (hq.of_same hx.cb hx.cbArg) fin
    rw [hf]
    exact ⟨n, _, fun hcb => hle (hx.cb.trans hcb), hstep, hturns⟩

/-- Settles O24: the step is that of the dispatch, and a completion takes the one step that advances. -/
theorem decByteFeedsDecoder : Obligations.DecByteFeedsDecoder := by
  intro s e d b h hd hok hc
  have hexec : exec (.decByte b) s = feedByte b (some .unit) s.begin := guarded_eq h _
  rw [hexec]
  by_cases hcb : d.cb = none
  · obtain ⟨n, t, hle, hstep, hturns⟩ :=
      feedByte_turns (s := s.begin) hok hc h.present hd b (.unregistered hcb) (some .unit)
    exact ⟨t, hstep, fun _ => ⟨n, _, hle hcb, hturns, returned_begin_setEndpoint s _ _, finish_ep _ _⟩⟩
  · rw [feedByte_eq (s := s.begin) h.present hd]
    rcases hok.byteStep_cases (s := s.begin) hc h.present hd b (some .unit) with ⟨-, hstep⟩ | ⟨d', -, -, -, hstep⟩
    · exact ⟨_, hstep, fun hx => absurd hx hcb⟩
    · exact ⟨_, hstep, fun hx => absurd hx hcb⟩

/-! ### A list of bytes -/

/-- The first byte of a list and then the `DEC.BYTE`s of the others. -/
theorem parse_turns {s : State} {e : Endpoint} {d : Dec} {v : Env} (hok : d.Ok) (hc : d.completing = false)
    (he : s.ep = some e) (hd : e.dec = some d) (b : Byte) (rest : List Byte)
    (hq : d.CallsQuietly (d.messages (b :: rest)) s.env v) (length : Nat) :
    ∃ n t, feedByte b (lastFin rest (.count length)) (s.push (parseTasks length rest)) = .next t ∧
      turns s.cur n t =
        .next (((s.setEnv v).setDec e ((b :: rest).foldl Dec.feed d)).finish (some (.count length))) := by
  induction rest generalizing s e d b with
  | nil =>
    obtain ⟨v₁, hfirst, hnone⟩ := hq.split
    cases hnone.eq_of_nil
    obtain ⟨n, t, -, hstep, hturns⟩ := feedByte_turns hok hc he hd b hfirst (some (.count length))
    exact ⟨n, t, by rw [parseTasks, push_nil]; exact hstep, hturns⟩
  | cons c rest ih =>
    obtain ⟨v₁, hfirst, hothers⟩ := hq.split
    obtain ⟨hok', hc'⟩ := hok.feed hc b
    obtain ⟨hcb, harg⟩ := hok.feed_callback hc b
    obtain ⟨n, t, -, hstep, hturns⟩ :=
      feedByte_turns (s := s.push (parseTasks length (c :: rest))) hok hc he hd b hfirst none
    obtain ⟨k, u, hnext, hend⟩ :=
      ih (s := (s.setEnv v₁).setDec e (d.feed b)) hok' hc' rfl rfl c (hothers.of_same hcb harg)
    have htake : runTask (.micro (.decByte c (lastFin rest (.count length))))
        (((s.setEnv v₁).setDec e (d.feed b)).push (parseTasks length rest)) = .next u := hnext
    exact ⟨n + (k + 1), t, hstep, turns_add hturns ((turns_push k htake).trans hend)⟩

section parse
variable {s : State} {e : Endpoint} {d : Dec} {v : Env} (h : s.Admits .driver e) (hd : e.dec = some d)
  (hc : d.completing = false)
include h hd hc

theorem exec_decParse_nil (length : Nat) : exec (.decParse [] length) s = s.answer (.count length) := by
  rw [exec, execDecParse, guarded_eq h, onDecoder_eq hd, hc]
  rfl

theorem exec_decParse_cons (b : Byte) (rest : List Byte) (length : Nat) :
    exec (.decParse (b :: rest) length) s =
      feedByte b (lastFin rest (.count length)) (s.begin.push (parseTasks length rest)) := by
  rw [exec, execDecParse, guarded_eq h, onDecoder_eq hd, hc]
  rfl

/-- `DEC.PARSE` from its first to its last step, whether a handler is registered or not. -/
theorem exec_decParse_turns (hok : d.Ok) (bytes : List Byte) (hq : d.CallsQuietly (d.messages bytes) s.env v) :
    ∃ t n u, exec (.decParse bytes bytes.length) s = .next t ∧ turns s.cur n t = .next u ∧
      ReturnedIn s u v (.count bytes.length) ∧ u.ep = some { e with dec := some (bytes.foldl Dec.feed d) } := by
  cases bytes with
  | nil =>
    cases hq.eq_of_nil
    refine ⟨_, 0, _, exec_decParse_nil h hd hc _, rfl, returned_finish s _, ?_⟩
    rw [finish_ep, ← setDec_self h.present hd]
    rfl
  | cons b rest =>
    obtain ⟨n, t, hstep, hturns⟩ := parse_turns (s := s.begin) hok hc h.present hd b rest hq (b :: rest).length
    exact ⟨t, n, _, (exec_decParse_cons h hd hc b rest _).trans hstep, hturns,
      (((SameWork.refl s).begin.setEnv v).setDec e _).returned _, finish_ep _ _⟩

end parse

/-- Settles O25: with no handler registered nothing is called. -/
theorem decParseFeedsEveryByte : Obligations.DecParseFeedsEveryByte :=
  fun _ _ _ bytes h hd hok hc hcb => exec_decParse_turns h hd hc hok bytes (.unregistered hcb)

/-- Settles O27: each message handed over draws one of the empty scripts. -/
theorem decParseCallsBackInOrder : Obligations.DecParseCallsBackInOrder :=
  fun _ _ _ _ bytes _ h hd hok hc hcb hs => exec_decParse_turns h hd hc hok bytes (.registered hcb hs)

/-- The driver may go on after an operation that returned with nothing changed outside the block. -/
theorem State.Admits.driver_of_returned {s u : State} {e e' : Endpoint} {r : Result} (h : s.Admits .driver e)
    (hu : Returned s u r) (he : u.ep = some e') : u.Admits .driver e' where
  role := by simpa only [State.holds, State.driverAgent, hu.env, hu.agent] using h.role
  present := he
  live := by rw [hu.env]; exact h.live
  polled := by simpa only [State.unregistered, hu.env, hu.agent] using h.polled

/-- Settles O26: the second call begins where the first has left the decoder. -/
theorem decParseStreams : Obligations.DecParseStreams := by
  intro s e d a b h hd hok hc hcb
  obtain ⟨hok', hc', hcb'⟩ := hok.feedAll hc a
  obtain ⟨t₁, n₁, u₁, hexec₁, hturns₁, hret₁, hep₁⟩ := decParseFeedsEveryByte s e d a h hd hok hc hcb
  obtain ⟨t₂, n₂, u₂, hexec₂, hturns₂, hret₂, hep₂⟩ :=
    decParseFeedsEveryByte u₁ _ _ b (h.driver_of_returned hret₁ hep₁) rfl hok' hc' (hcb'.trans hcb)
  obtain ⟨t₃, n₃, u₃, hexec₃, hturns₃, hret₃, hep₃⟩ := decParseFeedsEveryByte s e d (a ++ b) h hd hok hc hcb
  rw [hret₁.agent] at hturns₂
  rw [List.length_append] at hret₃
  rw [List.foldl_append] at hep₃
  exact ⟨t₁, n₁, u₁, t₂, n₂, u₂, t₃, n₃, u₃, hexec₁, hturns₁, hret₁, hexec₂, hturns₂, hret₂, hexec₃, hturns₃, hret₃,
    hep₃.trans hep₂.symm⟩

end Sys2Proof.Machine
end

section
/-! SUPPORT. What lists of bytes make of the decoder: a whole message, stray data bytes, a System Exclusive block. -/

namespace Sys2Proof.Machine

/-! ### One byte, by the control state -/

section byte
variable {d : Dec} {b : Byte}

theorem handed_of_state (hst : d.state ≠ .accumulatingData) : d.handed b = none := by
  unfold Dec.handed
  split
  · rfl
  · rfl
  · exact absurd ‹_› hst

theorem feed_status (hst : d.state = .waitingForStatus) (hlo : 0x80#8 ≤ b) (hhi : b < 0xF0#8) :
    d.feed b = d.acceptStatus (tableType (hiNibble b)) (loNibble b) := by
  simp only [Dec.feed, hst, if_pos (And.intro hlo hhi)]

theorem feed_sox (hst : d.state = .waitingForStatus) : d.feed 0xF0#8 = { d with state := .receivingSysex } := by
  rw [Dec.feed, hst]
  rfl

theorem feed_stray (hst : d.state = .waitingForStatus) (hb : b < 0x80#8) : d.feed b = d := by
  have hstatus : ¬(0x80#8 ≤ b ∧ b < 0xF0#8) := by bv_omega
  have hsox : b ≠ 0xF0#8 := by bv_omega
  simp only [Dec.feed, hst, if_neg hstatus, if_neg hsox]

theorem feed_eox (hst : d.state = .receivingSysex) : d.feed 0xF7#8 = { d with state := .waitingForStatus } := by
  rw [Dec.feed, hst]
  rfl

theorem feed_inside_sysex (hst : d.state = .receivingSysex) (hb : b ≠ 0xF7#8) : d.feed b = d := by
  simp only [Dec.feed, hst, if_neg hb]

section data
variable (h : d.Ok) (hst : d.state = .accumulatingData)
include h hst

theorem Dec.Ok.feed_more (howed : d.elapsed < d.slot.dataByteCount) (hmore : d.elapsed + 1 ≠ d.slot.dataByteCount) :
    d.handed b = none ∧ d.feed b = d.withData b := by
  have hne : (d.withData b).elapsed ≠ (d.withData b).slot.dataByteCount := by
    rw [h.withData_count howed]
    exact hmore
  simp only [Dec.handed, Dec.feed, hst, h.storeData_eq howed, if_neg hne, and_self]

theorem Dec.Ok.feed_last (hlast : d.elapsed + 1 = d.slot.dataByteCount) :
    d.handed b = some (d.withData b).slot ∧ d.feed b = (d.withData b).advance := by
  have howed := h.owed_of_last hlast
  have heq : (d.withData b).elapsed = (d.withData b).slot.dataByteCount := by
    rw [h.withData_count howed]
    exact hlast
  simp only [Dec.handed, Dec.feed, hst, h.storeData_eq howed, if_pos heq, and_self]

end data

end byte

/-! ### Lists of bytes -/

/-- The list produces the messages `ms` and leaves the decoder `d'`. -/
structure Dec.Yields (d : Dec) (bytes : List Byte) (ms : List Message) (d' : Dec) : Prop where
  messages : d.messages bytes = ms
  feedAll : bytes.foldl Dec.feed d = d'

namespace Dec.Yields
variable {d d' d'' : Dec} {b : Byte} {xs ys : List Byte} {ms ns : List Message}

theorem one {o : Option Message} (hn : d.handed b = o) (hf : d.feed b = d') : d.Yields [b] o.toList d' :=
  ⟨by rw [Dec.messages, Dec.messages, List.append_nil, hn], hf⟩

theorem append (h : d.Yields xs ms d') (h' : d'.Yields ys ns d'') : d.Yields (xs ++ ys) (ms ++ ns) d'' := by
  obtain ⟨rfl, rfl⟩ := h
  obtain ⟨rfl, rfl⟩ := h'
  refine ⟨?_, List.foldl_append⟩
  induction xs generalizing d with
  | nil => rfl
  | cons b rest ih => rw [List.cons_append, Dec.messages, Dec.messages, ih, List.append_assoc, List.foldl_cons]

/-- Bytes that all leave the decoder as it is. -/
theorem ignored (h : ∀ b ∈ xs, d.handed b = none ∧ d.feed b = d) : d.Yields xs [] d := by
  induction xs with
  | nil => exact ⟨rfl, rfl⟩
  | cons b rest ih =>
    obtain ⟨hn, hf⟩ := h b List.mem_cons_self
    exact (one hn hf).append (ih fun x hx => h x (List.mem_cons_of_mem b hx))

end Dec.Yields

/-! ### A whole message -/

/-- The decoder that has handed over `m` from the slot at `writeSlot` (40_decoder.md R138). -/
def Dec.deliver (d : Dec) (m : Message) : Dec :=
  { d with
    state := .waitingForStatus, elapsed := m.dataByteCount
    writeSlot := (d.writeSlot + 1) % d.store.length, store := d.store.set d.writeSlot m }

/-- What the earlier bytes of the message did to its slot does not show after it. -/
theorem Dec.Changed.deliver {d d' : Dec} (h : d.Changed d') (m : Message) : d'.deliver m = d.deliver m := by
  have hstore : d'.store.set d.writeSlot m = d.store.set d.writeSlot m := by
    refine List.ext_getElem? fun k => ?_
    rcases eq_or_ne d.writeSlot k with rfl | hk
    · simp only [List.getElem?_set, if_true, h.length]
    · rw [List.getElem?_set_ne hk, List.getElem?_set_ne hk, h.others k hk.symm]
  simp only [Dec.deliver, h.writeSlot, h.length, h.cb, h.cbArg, hstore]

theorem count_eq_one_or_two {T : MsgType} (hT : T ≠ .none) : T.count = 1 ∨ T.count = 2 := by
  revert hT
  cases T <;> decide

theorem slot_withData {d : Dec} (h : d.writeSlot < d.store.length) (b : Byte) :
    (d.withData b).slot = if d.elapsed = 0 then { d.slot with data0 := b } else { d.slot with data1 := b } :=
  slot_setSlot _ h

section message
variable {d : Dec} (h : d.Ok) (hst : d.state = .accumulatingData)
include h hst

/-- The last data byte delivers the record it completes. -/
theorem Dec.Ok.yields_last (hlast : d.elapsed + 1 = d.slot.dataByteCount) (b : Byte) :
    d.Yields [b] [(d.withData b).slot] (d.deliver (d.withData b).slot) := by
  obtain ⟨hn, hf⟩ := h.feed_last (b := b) hst hlast
  have hcount : (d.withData b).slot.dataByteCount = d.elapsed + 1 :=
    (h.withData_count (h.owed_of_last hlast) b).trans hlast.symm
  refine .one hn (hf.trans ?_)
  rw [Dec.deliver, hcount, slot_withData h.slot_in]
  simp only [Dec.advance, Dec.withData, modAdd, List.length_set]

/-- The data bytes of a message, from the first one on; `data1` stays where there is one only (40_decoder.md R128). -/
theorem Dec.Ok.yields_data (h0 : d.elapsed = 0) {data : List Byte} (hlen : data.length = d.slot.dataByteCount.toNat) :
    d.Yields data [{ d.slot with data0 := data.getD 0 0, data1 := data.getD 1 d.slot.data1 }]
      (d.deliver { d.slot with data0 := data.getD 0 0, data1 := data.getD 1 d.slot.data1 }) := by
  have hcount : d.slot.dataByteCount = 1 ∨ d.slot.dataByteCount = 2 := by
    rw [h.slot_count]
    exact count_eq_one_or_two (h.building hst).1
  rcases hcount with hone | htwo
  · obtain ⟨x, rfl⟩ := List.length_eq_one_iff.1 (hlen.trans (by rw [hone]; rfl))
    have hy := h.yields_last hst (by rw [h0, hone]; rfl) x
    rw [slot_withData h.slot_in, if_pos h0] at hy
    exact hy
  · obtain ⟨x, y, rfl⟩ := List.length_eq_two.1 (hlen.trans (by rw [htwo]; rfl))
    have howed : d.elapsed < d.slot.dataByteCount := by rw [h0, htwo]; decide
    obtain ⟨hn, hf⟩ := h.feed_more (b := x) hst howed (by rw [h0, htwo]; decide)
    have hs := h.storeData_eq howed x
    have hok := h.storeData hst hs
    have helapsed : (d.withData x).elapsed = 1 := by rw [Dec.withData, h0]; rfl
    have hy := hok.yields_last (d := d.withData x) hst (by rw [helapsed, h.withData_count howed, htwo]; rfl) y
    rw [(Changed.storeData hs).deliver, slot_withData hok.slot_in, helapsed, slot_withData h.slot_in, if_pos h0] at hy
    exact (Yields.one hn hf).append hy

end message

/-- Settles O28: the status byte starts the message, its data bytes are stored and deliver it, and the decoder then
waits for a status byte. -/
theorem oneMessagePerStatusByte : Obligations.OneMessagePerStatusByte := by
  intro d b data stray hok hst hlo hhi hlen hstray m
  have hT := tableType_ne_none hlo hhi
  have hslot := slot_acceptStatus hok.slot_in (tableType (hiNibble b)) (loNibble b)
  have hstatus : d.Yields [b] [] (d.acceptStatus (tableType (hiNibble b)) (loNibble b)) :=
    .one (handed_of_state (by simp [hst])) (feed_status hst hlo hhi)
  have hdata := (hok.acceptStatus hT (loNibble b)).yields_data (by rw [acceptStatus_eq hT]) rfl (data := data)
    (by rw [hslot]; exact hlen)
  rw [(Dec.Changed.acceptStatus d _ _).deliver, hslot] at hdata
  have hignored : (d.deliver m).Yields stray [] (d.deliver m) :=
    .ignored fun x hx => ⟨handed_of_state (by simp [Dec.deliver]), feed_stray rfl (hstray x hx)⟩
  obtain ⟨hms, hd⟩ := (hstatus.append hdata).append hignored
  refine ⟨hms, hd.trans ?_⟩
  rw [Dec.deliver, hst]

/-! ### A System Exclusive block -/

/-- Settles O29: inside the block every byte but the end is ignored. -/
theorem sysexBlockProducesNothing : Obligations.SysexBlockProducesNothing := by
  intro d payload hst hpayload
  have hopen : d.Yields [0xF0#8] [] { d with state := .receivingSysex } :=
    .one (handed_of_state (by simp [hst])) (feed_sox hst)
  have hinside : ({ d with state := .receivingSysex } : Dec).Yields payload [] { d with state := .receivingSysex } :=
    .ignored fun b hb => ⟨handed_of_state (by simp), feed_inside_sysex rfl (hpayload b hb)⟩
  have hclose : ({ d with state := .receivingSysex } : Dec).Yields [0xF7#8] [] d :=
    .one (handed_of_state (by simp)) ((feed_eox rfl).trans (by rw [← hst]))
  obtain ⟨hms, hd⟩ := (hopen.append hinside).append hclose
  exact ⟨hms, hd⟩

end Sys2Proof.Machine
end

section
/-! SUPPORT. The operations of the input ring, step by step: what is accepted, what is read, and how much room a
snapshot shows (41_ring_input.md R150 to R157). -/

namespace Sys2Proof.Machine

/-! ### Room in the ring -/

namespace Ring
variable {q : Ring} {rs : Nat}

/-- Storing into all the free space brings the write cursor round to the read cursor (41_ring_input.md R154). -/
theorem Ok.modAdd_free (h : q.Ok) : modAdd q.w q.free q.cap = q.r := by
  have hsum : q.unread + q.free = q.cap := Nat.add_sub_of_le h.unread_lt.le
  rw [h.modAdd_w, hsum, modAdd_full h.read_in]

/-- A snapshot shows no more room than there is (41_ring_input.md R157). -/
theorem Snapshot.accepts_le_free (hs : q.Snapshot rs) (count : Nat) : q.accepts rs count ≤ q.free :=
  (Nat.min_le_right _ _).trans (Nat.sub_le_sub_left hs.2 q.cap)

theorem Ok.unread_add_accepts_le (h : q.Ok) (hs : q.Snapshot rs) (count : Nat) :
    q.unread + q.accepts rs count ≤ q.cap := by
  have hfree : q.accepts rs count ≤ q.cap - q.unread := hs.accepts_le_free count
  have := h.unread_lt
  omega

/-- The count of the accepted bytes with the difference as the spec writes it (00_scope.md R7). -/
theorem Ok.accepts_eq (h : q.Ok) (hs : q.Snapshot rs) (count : Nat) :
    q.accepts rs count = min count (q.cap - (q.w + q.cap - rs) % q.cap) := by
  rw [accepts, modSub_eq_mod h.write_in hs.1]

/-- The accepted bytes as the snapshot shows them: the first for which there is room. -/
theorem Ok.take_accepts (h : q.Ok) (hs : q.Snapshot rs) (bytes : List Byte) :
    bytes.take (q.accepts rs bytes.length) = bytes.take (q.cap - (q.w + q.cap - rs) % q.cap) := by
  rw [h.accepts_eq hs, Nat.min_comm, ← List.take_take, List.take_length]

theorem length_take_accepts (q : Ring) (rs : Nat) (bytes : List Byte) :
    (bytes.take (q.accepts rs bytes.length)).length = q.accepts rs bytes.length :=
  List.length_take_of_le (accepts_le_count rs _)

theorem stored_accepts (q : Ring) (rs : Nat) (bytes : List Byte) :
    q.Stored (q.accept bytes (q.accepts rs bytes.length)) (bytes.take (q.accepts rs bytes.length)) :=
  stored_accept (accepts_le_cap rs _) (accepts_le_count rs _)

/-- The accepted bytes go to the queue's tail, and the queue is empty if they fill the ring (41_ring_input.md R153,
R154). -/
theorem Ok.queue_accepts (h : q.Ok) (hs : q.Snapshot rs) (bytes : List Byte) :
    (q.accept bytes (q.accepts rs bytes.length)).queue =
      if q.unread + q.accepts rs bytes.length < q.cap
        then q.queue ++ (bytes.take (q.accepts rs bytes.length)).map some else [] := by
  split
  · exact h.queue_accept ‹_› (accepts_le_count rs _)
  · have hfull : q.unread + q.accepts rs bytes.length = q.cap :=
      Nat.le_antisymm (h.unread_add_accepts_le hs _) (Nat.le_of_not_lt ‹_›)
    rw [← List.length_eq_zero_iff, queue_length, h.unread_accept bytes (accepts_le_cap rs _), hfull, Nat.mod_self]

/-- The byte at the read cursor is the queue's head (41_ring_input.md R152). -/
theorem Ok.queue_eq_cons (h : q.Ok) (hu : q.unread ≠ 0) {v : Byte} (hv : Memory.read q.cells q.r = some v) :
    q.queue = some v :: (q.consume 1).queue := by
  have hpos : 0 < q.queue.length := by rw [queue_length]; omega
  have hhead : q.queue[0] = some v := by rw [queue_getElem, modAdd_zero h.read_in, hv]
  rw [h.queue_consume (Nat.one_le_iff_ne_zero.2 hu), ← hhead, List.getElem_cons_drop, List.drop_zero]

/-- An unread byte has been written. -/
theorem Ok.exists_head (h : q.Ok) (hu : q.unread ≠ 0) : ∃ v, Memory.read q.cells q.r = some v := by
  have hw := h.written 0 (Nat.pos_of_ne_zero hu)
  rw [modAdd_zero h.read_in] at hw
  exact Option.isSome_iff_exists.1 hw

end Ring

/-! ### The steps -/

section steps
variable {s : State} {e : Endpoint}

theorem runMicro_inWriteStore (he : s.ep = some e) (rs : Nat) (bytes : List Byte) (count : Nat) :
    runMicro (.inWriteStore rs bytes count) s =
      .next ((s.setEndpoint { e with input := e.input.accept bytes (e.input.accepts rs count) }).finish
        (some (.count (e.input.accepts rs count)))) :=
  onEndpoint_eq he _

theorem exec_inWrite (h : s.Admits .producerIn e) (bytes : List Byte) (count : Nat) :
    exec (.inWrite bytes count) s = .next (s.begin.push [.micro (.inWriteStore e.input.r bytes count)]) :=
  guarded_eq h _

theorem exec_inRead_empty (h : s.Admits .consumerIn e) (hempty : e.input.isEmpty = true) :
    exec .inRead s = s.answer (.byte none) := by
  rw [exec, execInRead, guarded_eq h, if_pos hempty]

theorem exec_inRead_head (h : s.Admits .consumerIn e) (hne : ¬e.input.isEmpty = true) {v : Byte}
    (hv : Memory.read e.input.cells e.input.r = some v) :
    exec .inRead s = (s.setEndpoint { e with input := e.input.consume 1 }).answer (.byte (some v)) := by
  rw [exec, execInRead, guarded_eq h, if_neg hne, hv]

/-- Both steps of an `IN.WRITE`, with the snapshot still the read cursor. -/
theorem turns_inWrite (h : s.Admits .producerIn e) (bytes : List Byte) (count : Nat) :
    turns s.cur 1 (s.begin.push [.micro (.inWriteStore e.input.r bytes count)]) =
      .next ((s.begin.setEndpoint
        { e with input := e.input.accept bytes (e.input.accepts e.input.r count) }).finish
          (some (.count (e.input.accepts e.input.r count)))) :=
  turns_push (s := s.begin) (ts := []) 0 (by
    rw [push_nil]; exact runMicro_inWriteStore (s := s.begin) h.present _ _ _)

end steps

/-! ### The operations -/

/-- Settles O32: the two steps accept by the read cursor as it is. -/
theorem inWriteAcceptsFirstBytes : Obligations.InWriteAcceptsFirstBytes := by
  intro s e bytes h _
  exact ⟨_, _, _, _, exec_inWrite h bytes _, goesOn_begin_push s _, rfl, turns_inWrite h bytes _, rfl,
    returned_begin_setEndpoint s _ _, finish_ep _ _, e.input.stored_accepts _ _⟩

/-- Settles O33: by its snapshot the step accepts no more than is free, so what is unread is not stored to. -/
theorem inWriteStoreSparesUnread : Obligations.InWriteStoreSparesUnread := by
  intro s e rs bytes he hok hs
  exact ⟨_, _, _, runMicro_inWriteStore he rs bytes _, hok.accepts_eq hs _, returned_setEndpoint s _ _,
    finish_ep _ _, e.input.stored_accepts rs bytes, hs.accepts_le_free _,
    fun j hj => hok.read_accept_unread (hok.unread_add_accepts_le hs _) hj⟩

/-- Settles O34: all the free space is accepted, which brings the cursors together. -/
theorem fullInputReadsEmpty : Obligations.FullInputReadsEmpty := by
  intro s e bytes h hok hfree
  have hall : e.input.accepts e.input.r bytes.length = e.input.free := Nat.min_eq_right hfree
  have hturns := turns_inWrite h bytes bytes.length
  rw [hall] at hturns
  have hok' : (e.input.accept bytes e.input.free).Ok := hok.accept (Nat.sub_le _ _) hfree
  have hunread := hok'.unread_eq_zero.2 hok.modAdd_free
  exact ⟨_, _, _, exec_inWrite h bytes _, hturns, returned_begin_setEndpoint s _ _, finish_ep _ _,
    hok.modAdd_free, hunread, hok'.isEmpty_iff.2 hunread⟩

/-- Settles O35: the ring is empty exactly when the cursors are equal, and else its head has been written. -/
theorem inReadTakesOldest : Obligations.InReadTakesOldest := by
  intro s e h hok
  refine ⟨fun heq => ?_, fun hne => ?_⟩
  · exact ⟨_, exec_inRead_empty h (beq_iff_eq.2 heq), returned_finish s _, finish_ep _ _⟩
  · obtain ⟨v, hv⟩ := hok.exists_head fun hz => hne (hok.unread_eq_zero.1 hz).symm
    exact ⟨_, v, exec_inRead_head h (by simpa [Ring.isEmpty] using hne) hv, hv, returned_setEndpoint s _ _,
      finish_ep _ _⟩

end Sys2Proof.Machine
end

section
/-! SUPPORT. The input ring over every step of the machine: a turn's task stores into it, reads from it, or leaves
it alone. -/

namespace Sys2Proof.Machine

/-! ### The store steps -/

section stores
variable {m : Micro} {rs : Nat} {data : List Byte} (hm : m.Stores rs data)
include hm

/-- Only the input loop stores (log 6). -/
theorem Micro.Stores.inputLoop {drv a : Agent} (hb : m.belongs drv a) : a = .bgIn := by
  rcases hm with rfl | ⟨w0, f, rfl⟩
  · exact hb
  · exact hb

theorem Micro.Stores.snapshot {e : Endpoint} (hr : m.Ready e) : e.input.Snapshot rs := by
  rcases hm with rfl | ⟨w0, f, rfl⟩
  · exact hr.2
  · exact hr.2.2.2

theorem Micro.Stores.accepts {s t : State} {e e' : Endpoint} (he : s.ep = some e) (he' : t.ep = some e')
    (ht : runMicro m s = .next t) : e'.input = e.input.accept data (e.input.accepts rs data.length) := by
  rcases hm with rfl | ⟨w0, f, rfl⟩
  · cases (runMicro_inWriteStore he rs data _).symm.trans ht
    cases (finish_ep _ _).symm.trans he'
    rfl
  · obtain ⟨x, hx, ht⟩ := onEndpoint_next ht
    cases hx.symm.trans he
    cases ht
    cases he'
    rfl

end stores

/-! ### Every task -/

/-- What the task `k`, run in the state `s`, does to the input ring on the way from `e` to `e'`. -/
inductive InputMove (k : Task) (s t : State) (e e' : Endpoint) : Prop where
  | stays (input : e'.input = e.input) (noStore : ∀ m rs data, k = .micro m → ¬m.Stores rs data)
      (noRead : k = .issue .inRead → e.input.unread = 0)
  | stores (m : Micro) (rs : Nat) (data : List Byte) (task : k = .micro m) (store : m.Stores rs data)
      (who : s.cur = .bgIn) (snapshot : e.input.Snapshot rs)
      (input : e'.input = e.input.accept data (e.input.accepts rs data.length))
  | reads (v : Byte) (task : k = .issue .inRead) (who : s.cur = .rt) (unread : e.input.unread ≠ 0)
      (head : Memory.read e.input.cells e.input.r = some v) (input : e'.input = e.input.consume 1)
      (ret : (t.thread s.cur).ret = some (.byte (some v)))

section task
variable {k : Task} {s t : State} {e e' : Endpoint} (he : s.ep = some e) (he' : t.ep = some e')
  (hok : e.input.Ok)
include he he' hok

/-- A task that is no store, and no read of a ring that holds a byte, has no effect on the input ring. -/
theorem Effect.input_eq (h : Effect k s t) (hm : ∀ m, k = .micro m → m.Ready e)
    (noStore : ∀ m rs data, k = .micro m → ¬m.Stores rs data) (noRead : k = .issue .inRead → e.input.unread = 0) :
    e'.input = e.input := by
  cases h with
  | quiet ep => cases he.symm.trans (ep.symm.trans he'); rfl
  | created gone => cases gone.symm.trans he
  | destroyed gone => cases gone.symm.trans he'
  | accepted x rs count bytes _ _ _ task =>
    rcases task with hk | ⟨w0, f, hk, -⟩
    · obtain ⟨rfl, -⟩ := hm _ hk
      exact absurd (.inl rfl) (noStore _ rs bytes hk)
    · exact absurd (.inr ⟨w0, f, rfl⟩) (noStore _ rs bytes hk)
  | consumed x v ep unread _ _ _ _ _ task =>
    cases ep.symm.trans he
    rw [hok.isEmpty_iff.2 (noRead task)] at unread; cases unread
  | enqueued x _ ep ep' | drained x _ _ _ _ ep _ _ ep' | decoded x _ _ ep _ ep' | advanced x _ _ ep _ _ ep'
  | registered x _ _ _ ep _ _ ep' => cases ep.symm.trans he; cases ep'.symm.trans he'; rfl

/-- A read of a ring that holds a byte takes the byte at the read cursor. -/
theorem inRead_inputMove (ht : exec .inRead s = .next t) (hu : e.input.unread ≠ 0) :
    InputMove (.issue .inRead) s t e e' := by
  obtain ⟨x, ha, -⟩ := guarded_next ht
  cases ha.present.symm.trans he
  obtain ⟨v, hv⟩ := hok.exists_head hu
  cases (exec_inRead_head ha (fun hx => hu (hok.isEmpty_iff.1 hx)) hv).symm.trans ht
  cases (finish_ep _ _).symm.trans he'
  exact .reads v rfl (by simpa [State.holds] using ha.role) hu hv rfl (returned_setEndpoint s _ _).ret

theorem runTask_inputMove (hm : ∀ m, k = .micro m → s.Takes m) (ht : runTask k s = .next t) :
    InputMove k s t e e' := by
  by_cases hstore : ∃ m rs data, k = .micro m ∧ m.Stores rs data
  · obtain ⟨m, rs, data, rfl, hs⟩ := hstore
    have htakes := hm m rfl
    exact .stores m rs data rfl hs (hs.inputLoop htakes.belongs) (hs.snapshot (htakes.ready e he))
      (hs.accepts he he' ht)
  by_cases hread : k = .issue .inRead ∧ e.input.unread ≠ 0
  · obtain ⟨rfl, hu⟩ := hread
    exact inRead_inputMove he he' hok ht hu
  have noStore : ∀ m rs data, k = .micro m → ¬m.Stores rs data :=
    fun m rs data hk hs => hstore ⟨m, rs, data, hk, hs⟩
  have noRead : k = .issue .inRead → e.input.unread = 0 :=
    fun hk => Classical.byContradiction fun hu => hread ⟨hk, hu⟩
  exact .stays ((runTask_effect ht).input_eq he he' hok (fun m hk => (hm m hk).ready e he) noStore noRead)
    noStore noRead

end task

/-! ### The step -/

/-- Settles O36: what the turn's task does to the ring, as it shows in the queue; the other agents wait. -/
theorem inputIsFirstInFirstOut : Obligations.InputIsFirstInFirstOut := by
  intro s t e e' h ht he he'
  have hok := (h.endpoint e he).input
  rcases step_turn ht with hbeside | ⟨v, a, k, rest, hv, -, hk, ht⟩
  · cases he.symm.trans (hbeside.ep.symm.trans he')
    exact .inl ⟨rfl, fun _ _ _ _ _ _ => .inl (by rw [hbeside.threads]), fun _ _ _ => .inl (by rw [hbeside.threads])⟩
  obtain ⟨(hcur : t.cur = a), -, -, -, hothers⟩ := kept_task ht
  have hwait : ∀ b, b ≠ a → s.Waits t b := fun b hb =>
    (hothers b hb).imp (fun hx => hx.trans (by rw [thread_turnOf_ne _ _ _ hb]; rfl)) id
  have hmove := runTask_inputMove (s := (s.setEnv v).turnOf a rest) he he' hok
    (fun m hm => by subst hm; exact (h.setEnv hv).takes hk) ht
  cases hmove with
  | stays input noStore noRead =>
    refine .inl ⟨by rw [input], fun m rs data rest' hm hs => hwait _ ?_, fun rest' hr hq => hwait _ ?_⟩
    · rintro rfl
      cases hk.symm.trans hm
      exact noStore m rs data rfl hs
    · rintro rfl
      cases hk.symm.trans hr
      exact hq (List.length_eq_zero_iff.1 ((e.input.queue_length).trans (noRead rfl)))
  | stores m rs data task store who snapshot input =>
    cases task
    cases (show a = .bgIn from who)
    refine .inr (.inl ⟨m, rs, data, _, rest, hcur, hk, store, hok.take_accepts snapshot data, ?_, ?_, ?_⟩)
    · rw [input]; exact e.input.stored_accepts rs data
    · rw [e.input.length_take_accepts]; exact hok.unread_add_accepts_le snapshot _
    · rw [input, e.input.length_take_accepts]; exact hok.queue_accepts snapshot data
  | reads v task who unread head input ret =>
    cases task
    cases (show a = .rt from who)
    refine .inr (.inr ⟨v, rest, hcur, hk, ?_, ret⟩)
    rw [input]; exact hok.queue_eq_cons unread head

end Sys2Proof.Machine
end

section
/-! SUPPORT. The operations of the output ring, step by step: bytes stored one after another, and a drain from its
first to its last step (42_ring_output.md R170 to R177). -/

namespace Sys2Proof.Machine

/-! ### Bytes stored in a ring -/

namespace Ring
variable {q q' q'' : Ring}

theorem Stored.refl (h : q.Ok) : q.Stored q [] where
  cap := rfl
  read_cursor := rfl
  write_cursor := (Nat.mod_eq_of_lt h.write_in).symm
  stored := fun i hi => absurd hi (Nat.not_lt_zero i)
  kept := fun _ _ => rfl

/-- Where the next store's `i`-th index stands. -/
theorem Stored.index {xs : List Byte} (h : q.Stored q' xs) (i : Nat) :
    (q'.w + i) % q'.cap = (q.w + (xs.length + i)) % q.cap := by
  rw [h.write_cursor, h.cap, Nat.mod_add_mod, Nat.add_assoc]

/-- One store after another; of the first one that remains which the second has not lapped. -/
theorem Stored.append {xs ys : List Byte} (h : q.Stored q' xs) (h' : q'.Stored q'' ys) :
    q.Stored q'' (xs ++ ys) where
  cap := h'.cap.trans h.cap
  read_cursor := h'.read_cursor.trans h.read_cursor
  write_cursor := by rw [h'.write_cursor, h.index, List.length_append]
  stored := fun i hi hcap => by
    rw [List.length_append] at hi hcap
    by_cases hx : i < xs.length
    · rw [h'.kept _ fun j hj => ?_, h.stored i hx (by omega), List.getElem?_append_left hx]
      rw [h.index]
      exact mod_ne_of_lt (by omega) (by omega)
    · obtain ⟨j, rfl⟩ := Nat.exists_eq_add_of_le (Nat.le_of_not_lt hx)
      rw [← h.index, h'.stored j (by omega) (by rw [h.cap]; omega), List.getElem?_append_right (by omega),
        Nat.add_sub_cancel_left]
  kept := fun a ha => by
    rw [List.length_append] at ha
    rw [h'.kept a fun j hj => h.index j ▸ ha _ (by omega), h.kept a fun i hi => ha i (by omega)]

theorem Ok.stored_enqueue (h : q.Ok) (b : Byte) : q.Stored (q.enqueue b) [b] := by
  have hcap := h.capacity
  rw [h.enqueue_eq_accept]
  exact stored_accept (by omega) le_rfl

/-- `OUT.ENQ` byte by byte stores the list (42_ring_output.md R171). -/
theorem Ok.stored_enqueues (h : q.Ok) (bytes : List Byte) : q.Stored (bytes.foldl Ring.enqueue q) bytes := by
  induction bytes generalizing q with
  | nil => exact .refl h
  | cons b rest ih => exact (h.stored_enqueue b).append (ih (h.enqueue b))

/-- While the ring does not overflow the byte goes to the queue's tail (42_ring_output.md R172). -/
theorem Ok.queue_enqueue (h : q.Ok) (hu : q.unread + 1 < q.cap) (b : Byte) :
    (q.enqueue b).queue = q.queue ++ [some b] := by
  rw [h.enqueue_eq_accept]
  exact h.queue_accept hu le_rfl

/-- Bytes read from the queue's head, with the byte at the next index, are again from its head. -/
theorem prefix_snoc {burst : List Byte} {b : Byte} (hlt : burst.length < q.unread)
    (h : burst.map some <+: q.queue) (hb : Memory.read q.cells (modAdd q.r burst.length q.cap) = some b) :
    (burst ++ [b]).map some <+: q.queue := by
  have hlen : burst.length < q.queue.length := by rwa [queue_length]
  have htake : q.queue.take burst.length = burst.map some := by
    simpa using (List.prefix_iff_eq_take.1 h).symm
  have hsnoc : (burst ++ [b]).map some = q.queue.take (burst.length + 1) := by
    rw [List.take_succ_eq_append_getElem hlen, htake, queue_getElem, hb, List.map_append]; rfl
  rw [hsnoc]
  exact List.take_prefix _ _

end Ring

/-- The next turn takes the one step just pushed. -/
theorem turns_push_micro {s t : State} {m : Micro} (n : Nat) (h : runMicro m s = .next t) :
    turns s.cur (n + 1) (s.push [.micro m]) = turns s.cur n t :=
  turns_push n (by rw [push_nil]; exact h)

/-! ### Enqueuing -/

section enqueue
variable {s : State} {e : Endpoint}

theorem exec_outEnq (h : s.Admits .producerOut e) (b : Byte) :
    exec (.outEnq b) s =
      .next ((s.setEndpoint { e with output := e.output.enqueue b }).finish (some .unit)) :=
  guarded_eq h _

theorem exec_outEnqn (h : s.Admits .producerOut e) (bytes : List Byte) :
    exec (.outEnqn bytes bytes.length) s = enqueueAll bytes s e := by
  rw [exec, execOutEnqn, guarded_eq h, List.take_length]

/-- The first byte of a list in this step, and then the `OUT.ENQ`s of the others. -/
theorem enqueue_turns (b : Byte) (rest : List Byte) :
    ∃ t, enqueueStep b (lastFin rest .unit) (s.push (enqueueTasks rest)) e = .next t ∧
      t.ep = some { e with output := e.output.enqueue b } ∧
      turns s.cur rest.length t =
        .next ((s.setEndpoint { e with output := (b :: rest).foldl Ring.enqueue e.output }).finish (some .unit)) := by
  induction rest generalizing s e b with
  | nil => exact ⟨_, rfl, finish_ep _ _, by rw [enqueueTasks, push_nil]; rfl⟩
  | cons c rest ih =>
    obtain ⟨t, hstep, -, hturns⟩ := ih (s := s.setEndpoint { e with output := e.output.enqueue b })
      (e := { e with output := e.output.enqueue b }) c
    have htake : runTask (.micro (.outEnq c (lastFin rest .unit)))
        ((s.setEndpoint { e with output := e.output.enqueue b }).push (enqueueTasks rest)) = .next t := hstep
    exact ⟨_, rfl, rfl, (turns_push rest.length htake).trans hturns⟩

/-- A list is enqueued from its first to its last step (42_ring_output.md R171). -/
theorem enqueueAll_turns (he : s.ep = some e) (bytes : List Byte) :
    ∃ t u, enqueueAll bytes s e = .next t ∧ turns s.cur (bytes.length - 1) t = .next u ∧ Returned s u .unit ∧
      u.ep = some { e with output := bytes.foldl Ring.enqueue e.output } ∧
      ∀ b rest, bytes = b :: rest → t.ep = some { e with output := e.output.enqueue b } := by
  cases bytes with
  | nil => exact ⟨_, _, rfl, rfl, returned_finish s _, (finish_ep s _).trans he, fun _ _ hx => by cases hx⟩
  | cons b rest =>
    obtain ⟨t, hstep, hep, hturns⟩ := enqueue_turns (s := s.begin) (e := e) b rest
    exact ⟨t, _, hstep, hturns, returned_begin_setEndpoint s _ _, finish_ep _ _, fun _ _ hx => by cases hx; exact hep⟩

end enqueue

/-- Settles O37: the byte is written at the write cursor, which is all that is read of the ring. -/
theorem outEnqStoresUnconditionally : Obligations.OutEnqStoresUnconditionally := by
  intro s e b h _
  exact ⟨_, _, exec_outEnq h b, returned_setEndpoint s _ _, finish_ep _ _, rfl, rfl, rfl,
    Memory.read_write_self _ _ b, fun _ ha => Memory.read_write_ne ha b⟩

/-- Settles O38: the unread count wraps at the capacity, and the write itself spares every other index. -/
theorem outEnqOverflowEmptiesRing : Obligations.OutEnqOverflowEmptiesRing := by
  intro s e b h hok
  refine ⟨_, _, exec_outEnq h b, finish_ep _ _, fun hroom => hok.queue_enqueue (by omega) b, fun hfull => ⟨?_, ?_⟩⟩
  · have hcap := hok.capacity
    rw [hok.unread_enqueue b, if_neg (by omega)]
  · exact fun _ ha => Memory.read_write_ne ha b

/-- Settles O39: the steps enqueue one byte after another. -/
theorem outEnqnEnqueuesInOrder : Obligations.OutEnqnEnqueuesInOrder := by
  intro s e bytes h hok
  obtain ⟨t, u, hstep, hturns, hret, hep, hfirst⟩ := enqueueAll_turns h.present bytes
  exact ⟨t, u, _, (exec_outEnqn h bytes).trans hstep, hturns, hret, hep, hok.stored_enqueues bytes,
    fun b rest hx => ⟨_, hfirst b rest hx, hok.stored_enqueue b⟩⟩

/-! ### Draining -/

section drain
variable {s : State} {e : Endpoint}

theorem exec_outDrain (h : s.Admits .consumerOut e) (hs : s.env.handle.serves .output = true) :
    exec .outDrain s = drainStart false s e := by
  rw [exec, execOutDrain, guarded_eq h, onTransport_eq hs]

theorem exec_outPoll (h : s.Admits .consumerOut e) (hs : s.env.handle.serves .output = true) :
    exec .outPoll s = drainStart true s.polling e := by
  rw [exec, execOutPoll, guarded_eq h, onTransport_eq hs]

/-- An empty ring ends a drain at once, with no draw (42_ring_output.md R173). -/
theorem drainStart_empty (poll : Bool) (s : State) (hu : e.output.unread = 0) :
    drainStart poll s e = .next (s.finish (some (drainResult poll 0))) :=
  if_pos hu

theorem drainStart_unread (poll : Bool) (s : State) (hu : e.output.unread ≠ 0) :
    drainStart poll s e =
      .next (s.begin.push [.micro (.drainRead e.output.r e.output.unread 0 [] poll)]) :=
  if_neg hu

/-- A read step takes the byte that stands at its index now (20_memory.md R77). -/
theorem runMicro_drainRead (he : s.ep = some e) {r0 i : Nat} {b : Byte}
    (hb : Memory.read e.output.cells (modAdd r0 i e.output.cap) = some b) (n : Nat) (burst : List Byte) (poll : Bool) :
    runMicro (.drainRead r0 n i burst poll) s =
      .next (s.push [.micro (if i + 1 < n then .drainRead r0 n (i + 1) (burst ++ [b]) poll
        else .drainFinish r0 (burst ++ [b]) poll)]) := by
  rw [runMicro, drainReadStep, onEndpoint_eq he]
  simp only [hb]
  split <;> rfl

/-- The `n` read steps still to come complete the burst to the whole queue, and the write is next. -/
theorem drainRead_turns (he : s.ep = some e) (hok : e.output.Ok) (poll : Bool) {n : Nat} (hn : n ≠ 0)
    {burst : List Byte} (hlen : burst.length + n = e.output.unread) (hq : burst.map some <+: e.output.queue) :
    ∃ all : List Byte, all.map some = e.output.queue ∧
      turns s.cur n (s.push [.micro (.drainRead e.output.r e.output.unread burst.length burst poll)]) =
        .next (s.push [.micro (.drainFinish e.output.r all poll)]) := by
  induction n generalizing burst with
  | zero => exact absurd rfl hn
  | succ n ih =>
    obtain ⟨b, hb⟩ := Option.isSome_iff_exists.1 (hok.written burst.length (by omega))
    have hnext := Ring.prefix_snoc (by omega) hq hb
    have hrun := runMicro_drainRead he hb e.output.unread burst poll
    by_cases hlast : n = 0
    · rw [if_neg (by omega)] at hrun
      exact ⟨burst ++ [b], hnext.eq_of_length (by simp; omega), hlast ▸ turns_push_micro 0 hrun⟩
    · rw [if_pos (by omega)] at hrun
      obtain ⟨all, hall, hturns⟩ := ih hlast (by simp; omega) hnext
      rw [List.length_append] at hturns
      exact ⟨all, hall, (turns_push_micro n hrun).trans hturns⟩

/-- The transport has answered a write of `burst` with `ans`, and `rest` are the answers still to come
(42_ring_output.md R173 to R175). -/
def Env.afterWrite (v : Env) (ans : WriteAnswer) (rest : List WriteAnswer) (burst : List Byte) : Env :=
  { v with
    writes := rest
    sent := v.sent ++ burst.take (acceptedCount burst.length ans)
    log := if ans = .error then v.log ++ [.transportWriteError] else v.log }

theorem runMicro_drainFinish (he : s.ep = some e) {ans : WriteAnswer} {rest : List WriteAnswer}
    (hw : s.env.writes = ans :: rest) (r0 : Nat) (burst : List Byte) (poll : Bool) :
    runMicro (.drainFinish r0 burst poll) s =
      .next (((s.setEnv (s.env.afterWrite ans rest burst)).setEndpoint
        { e with output := e.output.resume r0 (acceptedCount burst.length ans) }).finish
          (some (drainResult poll (acceptedCount burst.length ans)))) := by
  have hdraw : s.drawWrite = (ans, s.setEnv { s.env with writes := rest }) := by
    simp only [State.drawWrite, hw]
  rw [runMicro, drainFinishStep, onEndpoint_eq he]
  simp only [hdraw, Env.afterWrite]
  split <;> rfl

/-- A drain of a ring with unread bytes from its first to its last step, after what `x` has changed before it begins
(42_ring_output.md R173; 45_bridge_and_system.md R233). -/
theorem drain_turns {x : State} (hx : SameWork s x) (he : x.ep = some e) (hok : e.output.Ok)
    (hu : e.output.unread ≠ 0) {ans : WriteAnswer} {rest : List WriteAnswer} (hw : x.env.writes = ans :: rest)
    (poll : Bool) :
    ∃ (t u : State) (burst : List Byte), drainStart poll x e = .next t ∧ t.ep = x.ep ∧
      turns s.cur (e.output.unread + 1) t = .next u ∧ burst.map some = e.output.queue ∧
      ReturnedIn s u (x.env.afterWrite ans rest burst) (drainResult poll (acceptedCount burst.length ans)) ∧
      u.ep = some { e with output := e.output.resume e.output.r (acceptedCount burst.length ans) } := by
  obtain ⟨burst, hburst, hread⟩ :=
    drainRead_turns (s := x.begin) (burst := []) he hok poll hu (Nat.zero_add _) List.nil_prefix
  have hwrite := runMicro_drainFinish (s := x.begin) he hw e.output.r burst poll
  refine ⟨_, _, burst, drainStart_unread poll x hu, rfl, ?_, hburst,
    ((hx.begin.setEnv (x.env.afterWrite ans rest burst)).setEndpoint _).returned _, finish_ep _ _⟩
  rw [← hx.agent]
  exact turns_add hread (turns_push_micro 0 hwrite)

end drain

/-- Settles O40: the cursors are equal, so the unread count that the first step takes is 0. -/
theorem drainOfEmptyRing : Obligations.DrainOfEmptyRing := by
  intro s e h hs heq
  have hu : e.output.unread = 0 := by simp [Ring.unread, modSub, heq]
  refine ⟨⟨_, (exec_outDrain h hs).trans (drainStart_empty false s hu), returned_finish s _, finish_ep _ _⟩, ?_⟩
  exact ⟨_, (exec_outPoll h hs).trans (drainStart_empty true s.polling hu),
    ((SameWork.refl s).setEnv _).returned _, finish_ep _ _⟩

/-- Settles O42: the byte is appended to the burst, and the index tells which step is next. -/
theorem drainReadsByteAsItStands : Obligations.DrainReadsByteAsItStands := by
  intro s e r0 n i burst poll b he hb
  have hrun := runMicro_drainRead he hb n burst poll
  exact ⟨_, hrun, rfl, fun hlt => if_pos hlt ▸ goesOn_push s _, fun hge => if_neg hge ▸ goesOn_push s _⟩

/-- Settles O41: the read steps collect the queue, and the transport's answer says how much of it is taken. -/
theorem drainSendsBurst : Obligations.DrainSendsBurst := by
  intro s e ans rest h hs hok hu hw
  obtain ⟨t, u, burst, hstart, hept, hturns, hburst, hret, hepu⟩ :=
    drain_turns (.refl s) h.present hok hu hw false
  have hlen : burst.length = e.output.unread := by
    rw [← e.output.queue_length, ← hburst, List.length_map]
  refine ⟨t, u, burst, _, (exec_outDrain h hs).trans hstart, hept, hturns, hburst, ?_, ?_, hret, hepu⟩
  · rintro n rfl
    rw [← hlen]; rfl
  · rintro rfl
    rfl

end Sys2Proof.Machine
end

section
/-! SUPPORT. The output ring over every step of the machine: what a turn's task does to it, which drain steps it
leaves to its agent, and why what they have read stays at the head of the queue (42_ring_output.md R178). -/

namespace Sys2Proof.Machine

/-! ### The drain steps an agent has to do -/

/-- The drain steps the acting agent has still to do. -/
def State.drains (s : State) : List Task := (s.thread s.cur).todo.filter Task.isDrain

theorem mem_drains {s : State} {m : Micro} (hm : Task.micro m ∈ (s.thread s.cur).todo)
    (hd : (Task.micro m).isDrain = true) : Task.micro m ∈ s.drains := List.mem_filter.2 ⟨hm, hd⟩

/-- The same agent with the same work to do has the same drain steps to do. -/
theorem drains_of_same {s t : State} (hcur : t.cur = s.cur) (htodo : ∀ a, (t.thread a).todo = (s.thread a).todo) :
    t.drains = s.drains := by
  rw [State.drains, State.drains, hcur, htodo]

section drains
variable (s : State)
@[simp] theorem drains_finish (fin : Option Result) : (s.finish fin).drains = s.drains :=
  drains_of_same (finish_cur s fin) (finish_todo s fin)
@[simp] theorem drains_begin : s.begin.drains = s.drains := drains_of_same rfl (begin_todo s)
@[simp] theorem drains_setEndpoint (e : Endpoint) : (s.setEndpoint e).drains = s.drains := rfl
@[simp] theorem drains_setDec (e : Endpoint) (d : Dec) : (s.setDec e d).drains = s.drains := rfl
@[simp] theorem drains_setEnv (v : Env) : (s.setEnv v).drains = s.drains := rfl
@[simp] theorem drains_polling : s.polling.drains = s.drains := rfl
@[simp] theorem drains_logLine (x : Diagnostic) : (s.logLine x).drains = s.drains := rfl
@[simp] theorem drains_recordCall (c : Call) : (s.recordCall c).drains = s.drains := rfl
@[simp] theorem drains_transmit (bytes : List Byte) : (s.transmit bytes).drains = s.drains := rfl
@[simp] theorem drains_drawRead (f : Nat) : (s.drawRead f).2.drains = s.drains :=
  drains_of_same (by simp) (by simp)
@[simp] theorem drains_drawWrite : s.drawWrite.2.drains = s.drains := drains_of_same (by simp) (by simp)
@[simp] theorem drains_drawScript : s.drawScript.2.drains = s.drains := drains_of_same (by simp) (by simp)
@[simp] theorem drains_endPeek (x y : Message) : (s.endPeek x y).2.drains = s.drains :=
  drains_of_same (by simp) (by simp)
@[simp] theorem drains_push (ts : List Task) : (s.push ts).drains = ts.filter Task.isDrain ++ s.drains := by
  rw [State.drains, push_cur, thread_push_cur, List.filter_append]; rfl
theorem drains_push_drain {m : Micro} (h : (Task.micro m).isDrain = true) :
    (s.push [.micro m]).drains = .micro m :: s.drains := by
  rw [drains_push, List.filter_cons_of_pos h]; rfl
end drains

/-- Where nothing the acting agent has to do holds a snapshot, none of it is a drain step. -/
theorem State.Clear.drains_eq_nil {s : State} (h : s.Clear) : s.drains = [] :=
  List.filter_eq_nil_iff.2 fun k hk => match k with
    | .issue _ => Bool.false_ne_true
    | .micro m => fun hd => by
      have hno := h m hk
      rw [headOnly_of_isDrain hd] at hno; cases hno

/-! ### Lists of new tasks without a drain step -/

theorem completion_no_drain (d : Dec) (fin : Option Result) : (completion d fin).filter Task.isDrain = [] :=
  List.filter_eq_nil_iff.2 fun k hk => by rcases mem_completion hk with rfl | rfl <;> simp [Task.isDrain]

theorem enqueueTasks_no_drain (bytes : List Byte) : (enqueueTasks bytes).filter Task.isDrain = [] :=
  List.filter_eq_nil_iff.2 fun k hk => by obtain ⟨b, fin, rfl⟩ := mem_enqueueTasks hk; simp [Task.isDrain]

theorem parseTasks_no_drain (n : Nat) (bytes : List Byte) : (parseTasks n bytes).filter Task.isDrain = [] :=
  List.filter_eq_nil_iff.2 fun k hk => by obtain ⟨b, fin, rfl⟩ := mem_parseTasks hk; simp [Task.isDrain]

theorem feedTasks_no_drain (w0 n : Nat) : (feedTasks w0 n).filter Task.isDrain = [] :=
  List.filter_eq_nil_iff.2 fun k hk => by obtain ⟨i, -, rfl⟩ := mem_feedTasks hk; simp [Task.isDrain]

theorem issues_no_drain (is : List Instr) : (is.map Task.issue).filter Task.isDrain = [] :=
  List.filter_eq_nil_iff.2 fun k hk => by obtain ⟨i, -, rfl⟩ := List.mem_map.1 hk; simp [Task.isDrain]

/-! ### Operations that leave the drains alone -/

section shared
variable {s t : State} {e : Endpoint} {d : Dec} {fin : Option Result}

theorem answer_drains {r : Result} (h : s.answer r = .next t) : t.drains = s.drains := by
  cases h; exact drains_finish s _

theorem statusStep_drains {T : MsgType} {ch : Channel} (h : statusStep T ch fin s e d = .next t) :
    t.drains = s.drains := by
  unfold statusStep at h
  split at h <;> cases h <;> simp [completion_no_drain]

theorem dataStep_drains {b : Byte} (h : dataStep b fin s e d = .next t) : t.drains = s.drains := by
  obtain ⟨d', -, ⟨-, rfl⟩ | ⟨-, rfl⟩⟩ := dataStep_next h
  · simp [completion_no_drain]
  · simp

theorem feedByte_drains {b : Byte} (h : feedByte b fin s = .next t) : t.drains = s.drains := by
  obtain ⟨e, -, h⟩ := onEndpoint_next h
  obtain ⟨d, -, h⟩ := onDecoder_next h
  rcases byteStep_next h with ⟨-, -, -, h⟩ | ⟨-, -, rfl⟩ | ⟨-, -, rfl⟩ | ⟨-, rfl⟩ | ⟨-, h⟩
  · exact statusStep_drains h
  · simp
  · simp
  · simp
  · exact dataStep_drains h

theorem enqueueStep_drains {b : Byte} (h : enqueueStep b fin s e = .next t) : t.drains = s.drains := by
  cases h; simp

theorem enqueueAll_drains {bytes : List Byte} (h : enqueueAll bytes s e = .next t) : t.drains = s.drains := by
  cases bytes with
  | nil => exact answer_drains h
  | cons b rest => exact (enqueueStep_drains h).trans (by simp [enqueueTasks_no_drain])

theorem encodeAll_drains {kind : Byte} {ch d0 d1 : Nat} (h : encodeAll kind ch d0 d1 s = .next t) :
    t.drains = s.drains := by
  obtain ⟨e, -, h⟩ := guarded_next h
  split at h
  · cases h
  · exact enqueueAll_drains h

theorem onWire_drains {st : DecState} {k : Endpoint → Dec → Outcome} (h : onWire st s k = .next t)
    (hk : ∀ e d, k e d = .next t → t.drains = s.begin.drains) : t.drains = s.drains := by
  obtain ⟨e, d, -, -, -, h⟩ := onWire_next h
  exact (hk e d h).trans (drains_begin s)

end shared

/-! ### Every task -/

/-- What a drain step has read stands at the head of the queue, and what it is still to read follows. -/
def Micro.AtHead (q : Ring) : Micro → Prop
  | .drainRead _ n _ burst _ => n ≤ q.unread ∧ burst.map some <+: q.queue
  | .drainFinish _ burst _ => burst.map some <+: q.queue
  | _ => True

theorem Micro.atHead_of_not_drain {m : Micro} (h : (Task.micro m).isDrain = false) (q : Ring) : m.AtHead q := by
  cases m with
  | drainRead | drainFinish => cases h
  | _ => trivial

theorem outputCoherent_iff {s : State} : OutputCoherent s ↔
    ∀ e, s.ep = some e → ∀ a m, Task.micro m ∈ (s.thread a).todo → m.AtHead e.output := by
  constructor
  · intro h e he a m hm
    obtain ⟨hread, hfinish⟩ := h e he
    cases m with
    | drainRead => exact hread _ _ _ _ _ _ hm
    | drainFinish => exact hfinish _ _ _ _ hm
    | _ => trivial
  · intro h e he
    exact ⟨fun a _ _ _ _ _ hm => h e he a _ hm, fun a _ _ _ hm => h e he a _ hm⟩

/-- Fewer steps to take on the same endpoint. -/
theorem OutputCoherent.of_subset {s t : State} (h : OutputCoherent s) (hep : t.ep = s.ep)
    (hsub : ∀ a, (t.thread a).todo ⊆ (s.thread a).todo) : OutputCoherent t :=
  outputCoherent_iff.2 fun e he a m hm => outputCoherent_iff.1 h e (hep ▸ he) a m (hsub a hm)

/-- A task leaves its agent's drain steps as they are, or leaves the endpoint as it is and a drain step at the head
of its queue to come. -/
def DrainsOn (s t : State) (q : Ring) : Prop :=
  t.drains = s.drains ∨ (t.ep = s.ep ∧ ∃ m : Micro, m.AtHead q ∧ t.drains = .micro m :: s.drains)

theorem drainStart_drainsOn {poll : Bool} {s s1 t : State} {e : Endpoint} (h : drainStart poll s1 e = .next t)
    (hep : s1.ep = s.ep) (hd : s1.drains = s.drains) : DrainsOn s t e.output := by
  unfold drainStart at h
  simp only at h
  split at h
  · exact .inl ((answer_drains h).trans hd)
  · cases h
    refine .inr ⟨hep, _, ?_, (drains_push_drain _ rfl).trans (congrArg _ ((drains_begin s1).trans hd))⟩
    exact ⟨le_rfl, List.nil_prefix⟩

theorem drainRead_drainsOn {r0 n i : Nat} {burst : List Byte} {poll : Bool} {s t : State} {e : Endpoint}
    (he : s.ep = some e) (hr : (Micro.drainRead r0 n i burst poll).Ready e)
    (hq : (Micro.drainRead r0 n i burst poll).AtHead e.output)
    (h : runMicro (.drainRead r0 n i burst poll) s = .next t) : DrainsOn s t e.output := by
  obtain ⟨rfl, hi, rfl, -⟩ := hr
  obtain ⟨hn, hburst⟩ := hq
  rw [runMicro, drainReadStep, onEndpoint_eq he] at h
  simp only at h
  split at h
  · cases h
  rename_i b hb
  have hnext := Ring.prefix_snoc (hi.trans_le hn) hburst hb
  split at h <;> cases h
  · exact .inr ⟨rfl, .drainRead _ _ _ _ _, ⟨hn, hnext⟩, drains_push_drain s rfl⟩
  · exact .inr ⟨rfl, .drainFinish _ _ _, hnext, drains_push_drain s rfl⟩

theorem exec_drainsOn {i : Instr} {s t : State} {e : Endpoint} (he : s.ep = some e) (h : exec i s = .next t) :
    DrainsOn s t e.output := by
  cases i with
  | outDrain | outPoll =>
    obtain ⟨x, ha, h⟩ := guarded_next h
    cases ha.present.symm.trans he
    exact drainStart_drainsOn (onTransport_next h) rfl rfl
  | noteoff | noteon | polykey | cc | program | chanpress | pitchbend =>
    exact .inl (onWire_drains h fun _ _ => statusStep_drains)
  | sox | eox => exact .inl (onWire_drains h fun _ _ h => by cases h; simp)
  | discardData | discardSyscommon | discardEox | discardRealtime | discardSysex =>
    exact .inl (onWire_drains h fun _ _ h => by cases h; simp)
  | data b => exact .inl (onWire_drains h fun _ _ => dataStep_drains)
  | decByte b =>
    obtain ⟨x, -, h⟩ := guarded_next h
    exact .inl ((feedByte_drains h).trans (drains_begin s))
  | decParse bytes n =>
    obtain ⟨x, -, h⟩ := guarded_next h
    obtain ⟨d, -, h⟩ := onDecoder_next h
    split at h
    · cases h
    cases bytes with
    | nil => exact .inl (answer_drains h)
    | cons b rest => exact .inl ((feedByte_drains h).trans (by simp [parseTasks_no_drain]))
  | inWrite bytes n =>
    obtain ⟨x, -, h⟩ := guarded_next h
    cases h; exact .inl (by simp [Task.isDrain])
  | inRead =>
    obtain ⟨x, -, h⟩ := guarded_next h
    repeat' split at h
    · exact .inl (answer_drains h)
    · cases h
    · exact .inl ((answer_drains h).trans (drains_setEndpoint s _))
  | outEnq b =>
    obtain ⟨x, -, h⟩ := guarded_next h
    exact .inl (enqueueStep_drains h)
  | outEnqn bytes n =>
    obtain ⟨x, -, h⟩ := guarded_next h
    exact .inl (enqueueAll_drains h)
  | encNoteoff | encNoteon | encPolykey | encCc | encProgram | encChanpress | encPitchbend =>
    simp only [exec] at h; exact .inl (encodeAll_drains h)
  | mqPeek c =>
    obtain ⟨x, -, h⟩ := guarded_next h
    obtain ⟨d, -, h⟩ := onDecoder_next h
    cases (onSlot_next h).2; exact .inl (by simp [Task.isDrain])
  | mqAvail c =>
    obtain ⟨x, -, h⟩ := guarded_next h
    obtain ⟨d, -, h⟩ := onDecoder_next h
    exact .inl (answer_drains (onSlot_next h).2)
  | mqNext c =>
    obtain ⟨x, -, h⟩ := guarded_next h
    obtain ⟨d, -, h⟩ := onDecoder_next h
    have h := (onSlot_next h).2
    split at h
    · exact .inl (answer_drains h)
    · cases h; exact .inl (by simp [Task.isDrain])
  | decSetcb f a =>
    obtain ⟨x, -, h⟩ := guarded_next h
    obtain ⟨d, -, h⟩ := onDecoder_next h
    split at h
    · cases h
    · exact .inl ((answer_drains h).trans (drains_setDec s _ _))
  | inPoll =>
    obtain ⟨x, -, h⟩ := guarded_next h
    cases onTransport_next h; exact .inl (by simp [pollHead, Task.isDrain])
  | epReset =>
    simp only [exec, execEpReset] at h
    split at h
    · split at h
      · cases h
      · rename_i hn
        simp [he] at hn
    · cases h
  | epClose =>
    obtain ⟨x, ha, h⟩ := guarded_next h
    have hcur : s.cur = .owner := by simpa [State.holds] using ha.role
    cases h
    have hlose : s.loseOthers.drains = s.drains := by
      simp only [State.drains, loseOthers_cur, hcur, thread_loseOthers_owner]
    exact .inl (by simp [hlose, Task.isDrain])

theorem runMicro_drainsOn {m : Micro} {s t : State} {e : Endpoint} (he : s.ep = some e) (hr : m.Ready e)
    (hq : m.AtHead e.output) (h : runMicro m s = .next t) : DrainsOn s t e.output := by
  cases m with
  | drainRead r0 n i burst poll => exact drainRead_drainsOn he hr hq h
  | inWriteStore =>
    obtain ⟨x, -, h⟩ := onEndpoint_next h
    exact .inl ((answer_drains h).trans (drains_setEndpoint s _))
  | drainFinish =>
    obtain ⟨x, -, h⟩ := onEndpoint_next h
    refine .inl ((answer_drains h).trans ?_)
    rw [drains_setEndpoint]
    split <;> simp
  | outEnq =>
    obtain ⟨x, -, h⟩ := onEndpoint_next h
    exact .inl (enqueueStep_drains h)
  | decByte => exact .inl (feedByte_drains h)
  | callback =>
    obtain ⟨x, -, h⟩ := onEndpoint_next h
    obtain ⟨d, -, h⟩ := onDecoder_next h
    split at h <;> cases h
    · exact .inl rfl
    · exact .inl (by simp [issues_no_drain])
  | advance =>
    obtain ⟨x, -, h⟩ := onEndpoint_next h
    obtain ⟨d, -, h⟩ := onDecoder_next h
    cases h; exact .inl (by simp)
  | peekFinish | nextFinish =>
    obtain ⟨x, -, h⟩ := onEndpoint_next h
    obtain ⟨d, -, h⟩ := onDecoder_next h
    exact .inl ((answer_drains h).trans (drains_endPeek s _ _))
  | nextPeek =>
    obtain ⟨x, -, h⟩ := onEndpoint_next h
    obtain ⟨d, -, h⟩ := onDecoder_next h
    cases h; exact .inl (by simp [Task.isDrain])
  | pollDraw =>
    simp only [runMicro, pollDrawStep] at h
    split at h <;> cases h <;> exact .inl (by simp [Task.isDrain])
  | pollSnap =>
    obtain ⟨x, -, h⟩ := onEndpoint_next h
    cases h; exact .inl (by simp [Task.isDrain])
  | pollStore =>
    obtain ⟨x, -, h⟩ := onEndpoint_next h
    cases h
    left
    split <;> simp [feedTasks_no_drain, Task.isDrain]
  | pollFeed =>
    obtain ⟨x, -, h⟩ := onEndpoint_next h
    simp only at h
    split at h
    · cases h
    · exact .inl (feedByte_drains h)
  | pollNext =>
    obtain ⟨x, -, h⟩ := onEndpoint_next h
    split at h
    · cases h; exact .inl (by simp [pollHead, Task.isDrain])
    · exact .inl (answer_drains h)
  | closeTransport => cases h; exact .inl (by simp [Task.isDrain])
  | closeDestroy => cases h; exact .inl (drains_finish _ _)
  | lost => cases h

theorem runTask_drainsOn {k : Task} {s t : State} {e : Endpoint} (he : s.ep = some e)
    (hk : ∀ m, k = .micro m → m.Ready e ∧ m.AtHead e.output) (h : runTask k s = .next t) :
    DrainsOn s t e.output := by
  cases k with
  | issue i =>
    simp only [runTask] at h
    split at h
    · exact exec_drainsOn he h
    · cases h
  | micro m =>
    obtain ⟨hr, hq⟩ := hk m rfl
    exact runMicro_drainsOn he hr hq h

/-! ### The ring and what the transport has taken -/

/-- What the task `k`, run in the state `s`, does to the output ring on the way from `e` to `e'`, and to what the
transport has taken. -/
inductive OutputMove (k : Task) (s t : State) (e e' : Endpoint) : Prop where
  | stays (output : e'.output = e.output) (sent : t.env.sent = s.env.sent)
  | enqueues (b : Byte) (output : e'.output = e.output.enqueue b) (sent : t.env.sent = s.env.sent)
      (who : s.cur = .rt ∨ ∃ fin, k = .micro (.outEnq b fin))
  | drains (r0 n : Nat) (burst : List Byte) (poll : Bool) (task : k = .micro (.drainFinish r0 burst poll))
      (le : n ≤ burst.length) (output : e'.output = e.output.resume r0 n)
      (sent : t.env.sent = s.env.sent ++ burst.take n)

theorem Effect.outputMove {k : Task} {s t : State} (h : Effect k s t) {e e' : Endpoint} (he : s.ep = some e)
    (he' : t.ep = some e') : OutputMove k s t e e' := by
  cases h with
  | quiet ep sent => cases he.symm.trans (ep.symm.trans he'); exact .stays rfl sent
  | created gone => cases gone.symm.trans he
  | destroyed gone => cases gone.symm.trans he'
  | accepted x _ _ _ ep ep' sent | consumed x _ ep _ _ ep' sent | decoded x _ _ ep _ ep' sent
  | advanced x _ _ ep _ _ ep' sent | registered x _ _ _ ep _ _ ep' sent =>
    cases ep.symm.trans he; cases ep'.symm.trans he'; exact .stays rfl sent
  | enqueued x b ep ep' sent who =>
    cases ep.symm.trans he; cases ep'.symm.trans he'; exact .enqueues b rfl sent who
  | drained x r0 n burst poll ep task le ep' sent =>
    cases ep.symm.trans he; cases ep'.symm.trans he'; exact .drains r0 n burst poll task le rfl sent

namespace Ring.Ok
variable {q : Ring} (h : q.Ok)
include h

/-- An enqueued byte moves the write cursor, so that an unmoved one shows that none was enqueued. -/
theorem enqueue_w_ne (b : Byte) : (q.enqueue b).w ≠ q.w := by
  have hcap := h.capacity
  have hw := h.write_in
  rw [enqueue_w, modAdd_eq hw (by omega)]
  split <;> omega

theorem atHead_enqueue (hu : q.unread + 1 < q.cap) (b : Byte) {m : Micro} (hm : m.AtHead q) :
    m.AtHead (q.enqueue b) := by
  have hgrow : q.queue <+: (q.enqueue b).queue := by
    rw [h.queue_enqueue hu]; exact List.prefix_append _ _
  have hle := hgrow.length_le
  rw [queue_length, queue_length] at hle
  cases m with
  | drainRead => exact ⟨hm.1.trans hle, hm.2.trans hgrow⟩
  | drainFinish => exact hm.trans hgrow
  | _ => trivial

/-- The bytes taken of a burst at the queue's head leave the queue, in order (42_ring_output.md R173). -/
theorem take_append_queue_resume {burst : List Byte} {n : Nat} (hq : burst.map some <+: q.queue)
    (hn : n ≤ burst.length) : (burst.take n).map some ++ (q.resume q.r n).queue = q.queue := by
  have hle := hq.length_le
  rw [List.length_map, queue_length] at hle
  have htake : (burst.take n).map some = q.queue.take n := by
    obtain ⟨rest, hrest⟩ := hq
    rw [← hrest, List.map_take, List.take_append_of_le_length (by simpa using hn)]
  rw [htake, show (q.resume q.r n).queue = q.queue.drop n from h.queue_consume (hn.trans hle),
    List.take_append_drop]

end Ring.Ok

/-! ### The turn and the step -/

section turn
variable {s t : State} {k : Task} {e e' : Endpoint} (he : s.ep = some e) (he' : t.ep = some e')
  (hok : e.output.Ok) (hm : ∀ m, k = .micro m → s.Takes m) (hq : ∀ m, k = .micro m → m.AtHead e.output)
  (ht : runTask k s = .next t) (hroom : e'.output.w = e.output.w ∨ e.output.unread + 1 < e.output.cap)
include he he' hok hm ht hroom

include hq in
/-- What has been sent followed by what is unread grows by the byte enqueued, and only RT enqueues. -/
theorem runTask_sent_append_queue :
    ∃ bytes : List Byte, bytes.length ≤ 1 ∧ (bytes ≠ [] → s.cur = .rt) ∧
      t.env.sent.map some ++ e'.output.queue = s.env.sent.map some ++ e.output.queue ++ bytes.map some := by
  cases (runTask_effect ht).outputMove he he' with
  | stays output sent => exact ⟨[], Nat.zero_le 1, fun hne => absurd rfl hne, by simp [output, sent]⟩
  | enqueues b output sent who =>
    have hu := hroom.resolve_left (output ▸ hok.enqueue_w_ne b)
    refine ⟨[b], le_rfl, fun _ => who.elim id fun ⟨fin, hk⟩ => (hm _ hk).belongs, ?_⟩
    simp [output, sent, hok.queue_enqueue hu]
  | drains r0 n burst poll task le output sent =>
    obtain ⟨rfl, -⟩ := (hm _ task).ready e he
    refine ⟨[], Nat.zero_le 1, fun hne => absurd rfl hne, ?_⟩
    rw [sent, output, List.map_append, List.append_assoc, hok.take_append_queue_resume (hq _ task) le]
    simp

/-- What a drain step that waits has read is still at the head: a byte enqueued goes to the tail, and while such a
step waits no other drain ends. -/
theorem runTask_atHead_of_waiting (hw : WorkInv s) {b : Agent} {m : Micro}
    (hmem : Task.micro m ∈ (s.thread b).todo) (hm' : m.AtHead e.output) : m.AtHead e'.output := by
  cases (runTask_effect ht).outputMove he he' with
  | stays output => rw [output]; exact hm'
  | enqueues x output =>
    rw [output]
    exact hok.atHead_enqueue (hroom.resolve_left (output ▸ hok.enqueue_w_ne x)) x hm'
  | drains r0 n burst poll task =>
    have hno := hw.no_drain ((hm _ task).drain rfl) b
    exact Micro.atHead_of_not_drain (any_isDrain_eq_false.1 hno m hmem) _

include hq in
/-- The acting agent's drain step, if it has one, is the one its task left; the other agents wait. -/
theorem runTask_outputCoherent (hcoh : OutputCoherent s) (hw : WorkInv s) (hno : s.Clear) : OutputCoherent t := by
  obtain ⟨hcur, -, -, -, hothers⟩ := kept_task ht
  refine outputCoherent_iff.2 fun x hx b m hmem => ?_
  cases he'.symm.trans hx
  by_cases hb : b = s.cur
  · cases hd : (Task.micro m).isDrain with
    | false => exact Micro.atHead_of_not_drain hd _
    | true =>
      have hleft : Task.micro m ∈ t.drains := mem_drains (hcur ▸ hb ▸ hmem) hd
      rcases runTask_drainsOn he (fun m hk => ⟨(hm m hk).ready e he, hq m hk⟩) ht with hs | ⟨hep, m', hm', hs⟩ <;>
        rw [hs, hno.drains_eq_nil] at hleft
      · cases hleft
      · cases List.mem_singleton.1 hleft
        cases he.symm.trans (hep.symm.trans he')
        exact hm'
  · rcases hothers b hb with hsame | hlost
    · rw [hsame] at hmem
      exact runTask_atHead_of_waiting he he' hok hm ht hroom hw hmem (outputCoherent_iff.1 hcoh e he b m hmem)
    · rw [hlost, List.mem_singleton] at hmem
      cases hmem
      trivial

end turn

/-- Settles O43: the turn's task sends from the head of the queue or enqueues at its tail, and a drain step reads the
byte that is next. -/
theorem outputIsSentInOrder : Obligations.OutputIsSentInOrder := by
  intro s t e e' h hcoh ht he he' hroom
  rcases step_turn ht with hbeside | ⟨v, a, k, rest, hv, hsent, hk, ht⟩
  · cases he.symm.trans (hbeside.ep.symm.trans he')
    refine ⟨hcoh.of_subset hbeside.ep fun b => (hbeside.threads b ▸ List.Subset.refl _), [], Nat.zero_le 1,
      fun hne => absurd rfl hne, ?_⟩
    simp [hbeside.sent]
  have hinv := h.setEnv hv
  have hok := (h.endpoint e he).output
  have htakes : ∀ m, k = .micro m → ((s.setEnv v).turnOf a rest).Takes m := fun m hm => hinv.takes (hm ▸ hk)
  have hhead : ∀ m, k = .micro m → m.AtHead e.output := fun m hm =>
    outputCoherent_iff.1 hcoh e he a m (by rw [hk, hm]; exact List.mem_cons_self)
  have hcoh' : OutputCoherent ((s.setEnv v).turnOf a rest) :=
    hcoh.of_subset rfl fun b => (turnOf_todo_sublist (s := s.setEnv v) hk b).subset
  refine ⟨runTask_outputCoherent (s := (s.setEnv v).turnOf a rest) he he' hok htakes hhead ht hroom hcoh'
    (hinv.toWorkInv.turnOf hk) (hinv.clear_turnOf hk), ?_⟩
  have hcur : t.cur = a := (kept_task ht).1
  rw [hcur, ← hsent]
  exact runTask_sent_append_queue (s := (s.setEnv v).turnOf a rest) he he' hok htakes hhead ht hroom

end Sys2Proof.Machine
end

section
/-! SUPPORT. Who writes the message store and the decoder's control registers, read off from the effect of a turn. -/

namespace Sys2Proof.Machine

/-- Agent `a` takes the decoder from `d` to `d'` and writes no slot but the one at `writeSlot`, the control registers
only as the driver `drv`, and `writeSlot` only at the end of a completion (43_message_store.md R196;
10_state.md R29). -/
structure Dec.WrittenBy (drv a : Agent) (d d' : Dec) : Prop where
  others : ∀ k, k ≠ d.writeSlot → d'.store[k]? = d.store[k]?
  who : d'.store ≠ d.store ∨ d'.writeSlot ≠ d.writeSlot ∨ d'.state ≠ d.state ∨ d'.elapsed ≠ d.elapsed → a = drv
  moved : d'.writeSlot ≠ d.writeSlot → d.completing = true ∧ d'.state = .waitingForStatus ∧ d'.store = d.store ∧
    d'.writeSlot = (d.writeSlot + 1) % d.store.length

namespace Dec.WrittenBy
variable {drv a : Agent} {d d' : Dec}

theorem of_same (hstore : d'.store = d.store) (hslot : d'.writeSlot = d.writeSlot) (hstate : d'.state = d.state)
    (helapsed : d'.elapsed = d.elapsed) : d.WrittenBy drv a d' where
  others := fun k _ => by rw [hstore]
  who := by simp [hstore, hslot, hstate, helapsed]
  moved := fun hne => absurd hslot hne

theorem refl : d.WrittenBy drv a d := of_same rfl rfl rfl rfl

theorem of_changed (ha : a = drv) (h : d.Changed d') : d.WrittenBy drv a d' where
  others := h.others
  who := fun _ => ha
  moved := fun hne => absurd h.writeSlot hne

theorem advance (ha : a = drv) (hc : d.completing = true) : d.WrittenBy drv a d.advance where
  others := fun _ _ => rfl
  who := fun _ => ha
  moved := fun _ => ⟨hc, rfl, rfl, rfl⟩

end Dec.WrittenBy

/-- A turn's task writes the store and the control registers only as the driver's; a later step's agent is the one it
belongs to, and the last step of a completion finds the message complete. -/
theorem Effect.writtenBy {k : Task} {s t : State} (h : Effect k s t) (hm : ∀ m, k = .micro m → s.Takes m)
    {e e' : Endpoint} {d d' : Dec} (he : s.ep = some e) (he' : t.ep = some e') (hd : e.dec = some d)
    (hd' : e'.dec = some d') : d.WrittenBy s.driverAgent s.cur d' := by
  cases h with
  | quiet ep => cases he.symm.trans (ep.symm.trans he'); cases hd.symm.trans hd'; exact .refl
  | created gone => cases gone.symm.trans he
  | destroyed gone => cases gone.symm.trans he'
  | accepted x _ _ _ ep ep' | consumed x _ ep _ _ ep' | enqueued x _ ep ep' | drained x _ _ _ _ ep _ _ ep' =>
    cases ep.symm.trans he; cases ep'.symm.trans he'; cases hd.symm.trans hd'; exact .refl
  | decoded x d₀ d₁ ep dec ep' _ change who =>
    cases ep.symm.trans he; cases ep'.symm.trans he'; cases dec.symm.trans hd; cases hd'
    refine .of_changed ?_ change
    rcases who with hdrv | ⟨m, hk, hdrv⟩
    · exact hdrv
    · exact hdrv _ _ (hm m hk).belongs
  | advanced x d₀ fin ep dec task ep' =>
    cases ep.symm.trans he; cases ep'.symm.trans he'; cases dec.symm.trans hd; cases hd'
    have htakes := hm _ task
    obtain ⟨d₁, hd₁, hc⟩ := htakes.ready e he
    cases hd₁.symm.trans hd
    exact .advance htakes.belongs hc
  | registered x d₀ f b ep dec _ ep' =>
    cases ep.symm.trans he; cases ep'.symm.trans he'; cases dec.symm.trans hd; cases hd'
    exact .of_same rfl rfl rfl rfl

/-- Settles O6: an event at the boundary leaves the decoder alone, and a turn writes it as its effect says. -/
theorem storeWriters : Obligations.StoreWriters := by
  intro s t e e' d d' h ht he he' hd hd'
  suffices hw : d.WrittenBy s.driverAgent t.cur d' from ⟨hw.others, hw.who, hw.moved⟩
  rcases step_turn ht with hbeside | ⟨v, a, k, rest, hv, -, hk, ht⟩
  · cases he.symm.trans (hbeside.ep.symm.trans he')
    cases hd.symm.trans hd'
    exact .refl
  · have hcur : t.cur = a := (kept_task ht).1
    have hdrv : (s.setEnv v).driverAgent = s.driverAgent := congrArg Driver.agent hv.driver
    have hw := (runTask_effect ht).writtenBy (fun m hm => (h.setEnv hv).takes (hm ▸ hk)) he he' hd hd'
    rw [turnOf_driverAgent, hdrv] at hw
    exact hcur ▸ hw

end Sys2Proof.Machine
end

section
/-! SUPPORT. The readers' operations on the message store, step by step, with no step of the decoder's in between. -/

namespace Sys2Proof.Machine

section readers
variable {s : State} {e : Endpoint} {d : Dec}

theorem Dec.Ok.available_eq_mod (h : d.Ok) {c : Nat} (hc : c < d.store.length) :
    d.available c = (d.writeSlot + d.store.length - c) % d.store.length :=
  modSub_eq_mod h.slot_in hc

/-- Nothing is pending exactly for a reader at `writeSlot` (43_message_store.md R191). -/
theorem available_eq_zero {c : Nat} (hc : c < d.store.length) : d.available c = 0 ↔ c = d.writeSlot :=
  (modSub_eq_zero hc).trans eq_comm

/-- A reader's operation on a slot of the store passes its guards. -/
theorem reader_guards_eq (h : s.Admits .reader e) (hd : e.dec = some d) {i : Nat} (hi : i < d.store.length)
    (k : Dec → Outcome) : guarded .reader s (fun e => onDecoder e fun d => onSlot d i (k d)) = k d := by
  rw [guarded_eq h, onDecoder_eq hd, onSlot_eq hi]

theorem exec_mqAvail (h : s.Admits .reader e) (hd : e.dec = some d) {c : Nat} (hc : c < d.store.length) :
    exec (.mqAvail c) s = s.answer (.count (d.available c)) :=
  reader_guards_eq h hd hc _

theorem exec_mqPeek (h : s.Admits .reader e) (hd : e.dec = some d) {i : Nat} {m : Message}
    (hm : d.store[i]? = some m) : exec (.mqPeek i) s = .next (s.begin.push [.micro (.peekFinish i m)]) := by
  rw [← slotAt_of_getElem? hm]
  exact reader_guards_eq h hd (List.getElem?_eq_some_iff.1 hm).1 _

theorem exec_mqNext (h : s.Admits .reader e) (hd : e.dec = some d) {c : Nat} (hc : c < d.store.length) :
    exec (.mqNext c) s =
      if d.available c = 0 then s.answer (.next none) else .next (s.begin.push [.micro (.nextPeek c)]) :=
  reader_guards_eq h hd hc _

/-- The end of a peek of a slot that has not been written since it began. -/
theorem runMicro_peekFinish_same (he : s.ep = some e) (hd : e.dec = some d) {i : Nat} {m : Message}
    (hm : d.store[i]? = some m) : runMicro (.peekFinish i m) s = s.answer (.message m) := by
  rw [runMicro_peekFinish he hd hm, endPeek_same]

theorem runMicro_nextPeek (he : s.ep = some e) (hd : e.dec = some d) {c : Nat} {m : Message}
    (hm : d.store[c]? = some m) : runMicro (.nextPeek c) s = .next (s.push [.micro (.nextFinish c m)]) := by
  rw [runMicro, nextPeekStep, onEndpoint_eq he, onDecoder_eq hd, slotAt_of_getElem? hm]

theorem runMicro_nextFinish_same (he : s.ep = some e) (hd : e.dec = some d) {c : Nat} {m : Message}
    (hm : d.store[c]? = some m) :
    runMicro (.nextFinish c m) s = s.answer (.next (some (m, modAdd c 1 d.store.length))) := by
  rw [runMicro, nextFinishStep, onEndpoint_eq he, onDecoder_eq hd, slotAt_of_getElem? hm, endPeek_same]

/-- The two steps of `MQ.NEXT` that follow its `MQ.AVAIL` step (43_message_store.md R192; log 11). -/
theorem turns_nextPeek (he : s.ep = some e) (hd : e.dec = some d) {c : Nat} {m : Message}
    (hm : d.store[c]? = some m) :
    turns s.cur 2 (s.push [.micro (.nextPeek c)]) = s.answer (.next (some (m, modAdd c 1 d.store.length))) := by
  rw [turns_push_micro 1 (runMicro_nextPeek he hd hm), turns_push_micro 0 (runMicro_nextFinish_same he hd hm)]
  rfl

end readers

/-- An operation that began in an earlier step returns, with nothing changed but the result. -/
theorem returned_begin_finish (s : State) (r : Result) : Returned s (s.begin.finish (some r)) r :=
  (SameWork.refl s).begin.returned r

/-- Settles O44: the difference by cases is the one modulo the number of slots. -/
theorem mqAvailCountsPending : Obligations.MqAvailCountsPending := by
  intro s e d c h hd hok hc
  rw [exec_mqAvail h hd hc, hok.available_eq_mod hc]
  exact ⟨_, rfl, finish_ep _ _, returned_finish s _⟩

/-- Settles O45: with no step of the decoder's in between, the slot at the end of the peek is as at its beginning. -/
theorem mqPeekReturnsRecord : Obligations.MqPeekReturnsRecord := by
  intro s e d i m h hd hm
  have hfinish := runMicro_peekFinish_same (s := s.begin) h.present hd hm
  exact ⟨_, _, exec_mqPeek h hd hm, turns_push_micro (s := s.begin) 0 hfinish, returned_begin_finish s _,
    finish_ep s.begin _⟩

/-- Settles O47: the count of the `MQ.AVAIL` step is 0 exactly at `writeSlot`, and elsewhere the peek follows. -/
theorem mqNextReturnsOldestPending : Obligations.MqNextReturnsOldestPending := by
  intro s e d c m h hd hok hm
  have hc : c < d.store.length := (List.getElem?_eq_some_iff.1 hm).1
  rw [exec_mqNext h hd hc]
  refine ⟨fun hat => ?_, fun hne => ?_⟩
  · rw [if_pos ((available_eq_zero hc).2 hat)]
    exact ⟨_, rfl, returned_finish s _, finish_ep _ _⟩
  · rw [if_neg (mt (available_eq_zero hc).1 hne)]
    exact ⟨_, _, rfl, turns_nextPeek (s := s.begin) h.present hd hm, returned_begin_finish s _, finish_ep s.begin _⟩

end Sys2Proof.Machine
end

section
/-! SUPPORT. The encoder's operations: the bytes each one enqueues, and the message a decoder makes of them
(44_encoder.md R205 to R214). -/

namespace Sys2Proof.Machine

/-! ### Masked operands -/

/-- A mask of the low `k` bits is a remainder (30_encoding.md R98). -/
theorem toNat_low_bits (x : Nat) {k : Nat} (hk : k ≤ 8) :
    (BitVec.ofNat 8 x &&& BitVec.ofNat 8 (2 ^ k - 1)).toNat = x % 2 ^ k := by
  have hpos : 0 < 2 ^ k := Nat.two_pow_pos k
  have hle : 2 ^ k ≤ 2 ^ 8 := Nat.pow_le_pow_right (by decide) hk
  rw [BitVec.toNat_and, BitVec.toNat_ofNat, BitVec.toNat_ofNat, Nat.mod_eq_of_lt (a := 2 ^ k - 1) (by omega),
    Nat.and_two_pow_sub_one_eq_mod, Nat.mod_mod_of_dvd _ (Nat.pow_dvd_pow 2 hk)]

theorem dataByte_eq (d : Nat) : dataByte d = BitVec.ofNat 8 (d % 128) := by
  have hmask : (dataByte d).toNat = d % 128 := toNat_low_bits d (k := 7) (by decide)
  rw [← hmask, BitVec.ofNat_toNat, BitVec.setWidth_eq]

/-- The kind stands in the high nibble of a status byte, the masked channel in the low one. -/
theorem statusByte_eq {kind : Byte} (hk : hiNibble kind = kind) (ch : Nat) :
    statusByte kind ch = BitVec.ofNat 8 (kind.toNat + ch % 16) := by
  have hmask : (BitVec.ofNat 8 ch &&& 0x0F#8).toNat = ch % 16 := toNat_low_bits ch (k := 4) (by decide)
  have hdisjoint : hiNibble kind &&& (BitVec.ofNat 8 ch &&& 0x0F#8) = 0#8 := by
    refine BitVec.eq_of_getLsbD_eq fun i hi => ?_
    interval_cases i <;> simp [hiNibble]
  rw [statusByte, ← BitVec.add_eq_or_of_and_eq_zero _ _ hdisjoint, hk, ← hmask, BitVec.ofNat_add,
    BitVec.ofNat_toNat, BitVec.ofNat_toNat, BitVec.setWidth_eq, BitVec.setWidth_eq]

theorem hiNibble_statusByte (kind : Byte) (ch : Nat) : hiNibble (statusByte kind ch) = hiNibble kind := by
  refine BitVec.eq_of_getLsbD_eq fun i hi => ?_
  interval_cases i <;> simp [statusByte, hiNibble]

/-- The low nibble drops the kind and keeps the channel. -/
theorem loNibble_statusByte (kind : Byte) (ch : Nat) : loNibble (statusByte kind ch) = BitVec.ofNat 4 ch := by
  have hlow (b : Byte) : loNibble b = b.setWidth 4 := (BitVec.setWidth_eq_extractLsb' (by decide)).symm
  have hkind : (0xF0#8).setWidth 4 = 0#4 := rfl
  have hchannel : (0x0F#8).setWidth 4 = BitVec.allOnes 4 := rfl
  rw [hlow, statusByte, hiNibble, BitVec.setWidth_or, BitVec.setWidth_and, BitVec.setWidth_and, hkind, hchannel,
    BitVec.and_zero, BitVec.zero_or, BitVec.and_allOnes, BitVec.setWidth_ofNat_of_le (by decide)]

/-- A byte whose high nibble has a row in the status table is a status byte (30_encoding.md R92). -/
theorem status_of_tableType {b : Byte} (h : tableType (hiNibble b) ≠ .none) : 0x80#8 ≤ b ∧ b < 0xF0#8 := by
  revert b
  decide

/-! ### The bytes of a message -/

/-- The high nibble of a type's status byte (30_encoding.md R92). -/
def MsgType.kind : MsgType → Byte
  | .noteOff => 0x80#8
  | .noteOn => 0x90#8
  | .polyKeyPressure => 0xA0#8
  | .controlChange => 0xB0#8
  | .programChange => 0xC0#8
  | .channelPressure => 0xD0#8
  | .pitchBend => 0xE0#8
  | .none => 0x00#8

theorem hiNibble_kind (T : MsgType) : hiNibble T.kind = T.kind := by cases T <;> rfl

theorem tableType_kind (T : MsgType) : tableType T.kind = T := by cases T <;> rfl

/-- The data bytes of a message: as many of the two values as its type takes. -/
def MsgType.dataBytes (T : MsgType) (d0 d1 : Nat) : List Byte := [dataByte d0, dataByte d1].take T.count.toNat

/-- The bytes of a message: its status byte and its data bytes. -/
def MsgType.wireBytes (T : MsgType) (ch d0 d1 : Nat) : List Byte := statusByte T.kind ch :: T.dataBytes d0 d1

theorem length_dataBytes {T : MsgType} (hT : T ≠ .none) (d0 d1 : Nat) :
    (T.dataBytes d0 d1).length = T.count.toNat := by
  rcases count_eq_one_or_two hT with h | h <;> simp [MsgType.dataBytes, h]

theorem length_wireBytes {T : MsgType} (hT : T ≠ .none) (ch d0 d1 : Nat) :
    (T.wireBytes ch d0 d1).length = T.count.toNat + 1 := by
  rw [MsgType.wireBytes, List.length_cons, length_dataBytes hT]

theorem encBytes_kind {T : MsgType} (hT : T ≠ .none) (ch d0 d1 : Nat) :
    encBytes T.kind ch d0 d1 = some (T.wireBytes ch d0 d1) := by
  rw [encBytes, hiNibble_kind, tableType_kind, MsgType.wireBytes, MsgType.dataBytes]
  rcases count_eq_one_or_two hT with h | h <;> simp [h]

/-! ### The operations -/

/-- The seven operations, each with the type of its message (44_encoder.md R206 to R212). -/
def encoders (ch d0 d1 : Nat) : List (Instr × MsgType) :=
  [(.encNoteoff ch d0 d1, .noteOff), (.encNoteon ch d0 d1, .noteOn), (.encPolykey ch d0 d1, .polyKeyPressure),
    (.encCc ch d0 d1, .controlChange), (.encProgram ch d0, .programChange), (.encChanpress ch d0, .channelPressure),
    (.encPitchbend ch d0 d1, .pitchBend)]

section operation
variable {s : State} {e : Endpoint} {ch d0 d1 : Nat} {i : Instr} {T : MsgType}

theorem encodeAll_kind (h : s.Admits .producerOut e) (hT : T ≠ .none) (ch d0 d1 : Nat) :
    encodeAll T.kind ch d0 d1 s = enqueueAll (T.wireBytes ch d0 d1) s e := by
  rw [encodeAll, guarded_eq h, encBytes_kind hT]

theorem type_ne_none_of_encoder (hi : (i, T) ∈ encoders ch d0 d1) : T ≠ .none := by
  rintro rfl
  simp [encoders] at hi

/-- Each operation enqueues the bytes of a message of its type. -/
theorem exec_encoder (h : s.Admits .producerOut e) (hi : (i, T) ∈ encoders ch d0 d1) :
    exec i s = enqueueAll (T.wireBytes ch d0 d1) s e := by
  have hT := type_ne_none_of_encoder hi
  have hgeneral := encodeAll_kind h hT ch d0
  simp only [encoders, List.mem_cons, Prod.mk.injEq, List.not_mem_nil, or_false] at hi
  rcases hi with ⟨rfl, rfl⟩ | ⟨rfl, rfl⟩ | ⟨rfl, rfl⟩ | ⟨rfl, rfl⟩ | ⟨rfl, rfl⟩ | ⟨rfl, rfl⟩ | ⟨rfl, rfl⟩
  · exact hgeneral d1
  · exact hgeneral d1
  · exact hgeneral d1
  · exact hgeneral d1
  · exact hgeneral 0
  · exact hgeneral 0
  · exact hgeneral d1

/-- An operation from its first to its last step, one step for each byte. -/
theorem encoder_turns (h : s.Admits .producerOut e) (hi : (i, T) ∈ encoders ch d0 d1) :
    ∃ t u, exec i s = .next t ∧ turns s.cur T.count.toNat t = .next u ∧ Returned s u .unit ∧
      u.ep = some { e with output := (T.wireBytes ch d0 d1).foldl Ring.enqueue e.output } := by
  obtain ⟨t, u, hstep, hturns, hret, hep, -⟩ := enqueueAll_turns h.present (T.wireBytes ch d0 d1)
  rw [length_wireBytes (type_ne_none_of_encoder hi), Nat.add_sub_cancel] at hturns
  exact ⟨t, u, (exec_encoder h hi).trans hstep, hturns, hret, hep⟩

end operation

/-- The bytes of a message with two data bytes, the operands masked by remainder. -/
theorem wireBytes_of_two {T : MsgType} (hT : T.count = 2) (ch d0 d1 : Nat) :
    T.wireBytes ch d0 d1 =
      [BitVec.ofNat 8 (T.kind.toNat + ch % 16), BitVec.ofNat 8 (d0 % 128), BitVec.ofNat 8 (d1 % 128)] := by
  rw [MsgType.wireBytes, MsgType.dataBytes, hT, statusByte_eq (hiNibble_kind T), dataByte_eq, dataByte_eq]
  rfl

/-- The bytes of a message with one data byte, the operands masked by remainder. -/
theorem wireBytes_of_one {T : MsgType} (hT : T.count = 1) (ch d0 d1 : Nat) :
    T.wireBytes ch d0 d1 = [BitVec.ofNat 8 (T.kind.toNat + ch % 16), BitVec.ofNat 8 (d0 % 128)] := by
  rw [MsgType.wireBytes, MsgType.dataBytes, hT, statusByte_eq (hiNibble_kind T), dataByte_eq]
  rfl

/-- Settles O49: the operation's bytes are those of a `PitchBend`, stored one a step. -/
theorem encoderPitchbendEmitsMaskedBytes : Obligations.EncoderPitchbendEmitsMaskedBytes := by
  intro s e ch d0 d1 h hok
  have hi : (Instr.encPitchbend ch d0 d1, MsgType.pitchBend) ∈ encoders ch d0 d1 := by simp [encoders]
  obtain ⟨t, u, hstep, hturns, hret, hep⟩ := encoder_turns h hi
  rw [wireBytes_of_two rfl] at hep
  exact ⟨t, u, _, hstep, hturns, hret, hep, hok.stored_enqueues _⟩

/-- Settles O48: each operation's bytes are those of a message of its type, stored one a step. -/
theorem encoderEmitsMaskedBytes : Obligations.EncoderEmitsMaskedBytes := by
  intro s e ch d0 d1 i bytes h hok hi
  have hbytes : ∃ T, (i, T) ∈ encoders ch d0 d1 ∧ T.wireBytes ch d0 d1 = bytes := by
    simp only [List.mem_cons, Prod.mk.injEq, List.not_mem_nil, or_false] at hi
    rcases hi with ⟨rfl, rfl⟩ | ⟨rfl, rfl⟩ | ⟨rfl, rfl⟩ | ⟨rfl, rfl⟩ | ⟨rfl, rfl⟩ | ⟨rfl, rfl⟩
    · exact ⟨.noteOff, by simp [encoders], wireBytes_of_two rfl ch d0 d1⟩
    · exact ⟨.noteOn, by simp [encoders], wireBytes_of_two rfl ch d0 d1⟩
    · exact ⟨.polyKeyPressure, by simp [encoders], wireBytes_of_two rfl ch d0 d1⟩
    · exact ⟨.controlChange, by simp [encoders], wireBytes_of_two rfl ch d0 d1⟩
    · exact ⟨.programChange, by simp [encoders], wireBytes_of_one rfl ch d0 d1⟩
    · exact ⟨.channelPressure, by simp [encoders], wireBytes_of_one rfl ch d0 d1⟩
  obtain ⟨T, hT, rfl⟩ := hbytes
  obtain ⟨t, u, hstep, hturns, hret, hep⟩ := encoder_turns h hT
  rw [length_wireBytes (type_ne_none_of_encoder hT), Nat.add_sub_cancel]
  exact ⟨t, u, _, hstep, hturns, hret, hep, hok.stored_enqueues _⟩

/-! ### Encoded and decoded -/

/-- A list that does not fill the ring goes to the queue's tail (42_ring_output.md R172). -/
theorem Ring.Ok.queue_enqueues {q : Ring} (h : q.Ok) {bytes : List Byte} (hu : q.unread + bytes.length < q.cap) :
    (bytes.foldl Ring.enqueue q).queue = q.queue ++ bytes.map some := by
  induction bytes generalizing q with
  | nil => rw [List.foldl_nil, List.map_nil, List.append_nil]
  | cons b rest ih =>
    rw [List.length_cons] at hu
    have hroom : q.unread + 1 < q.cap := by omega
    have hrest : (q.enqueue b).unread + rest.length < q.cap := by rw [h.unread_enqueue, if_pos hroom]; omega
    rw [List.foldl_cons, ih (h.enqueue b) hrest, h.queue_enqueue hroom, List.append_assoc, List.map_cons,
      List.singleton_append]

/-- A decoder between messages makes exactly one message of a message's bytes (40_decoder.md R146 item 1); the data
byte that the type does not have stays what the slot held. -/
theorem Dec.Ok.decodes_wireBytes {d : Dec} (h : d.Ok) (hst : d.state = .waitingForStatus) {T : MsgType}
    (hT : T ≠ .none) (ch d0 d1 : Nat) :
    d.messages (T.wireBytes ch d0 d1) =
      [{ type := T, channel := BitVec.ofNat 4 ch, data0 := BitVec.ofNat 8 (d0 % 128),
         data1 := if T.count = 2 then BitVec.ofNat 8 (d1 % 128) else d.slot.data1, dataByteCount := T.count }] ∧
    ((T.wireBytes ch d0 d1).foldl Dec.feed d).state = .waitingForStatus := by
  have htype : tableType (hiNibble (statusByte T.kind ch)) = T := by
    rw [hiNibble_statusByte, hiNibble_kind, tableType_kind]
  obtain ⟨hlo, hhi⟩ := status_of_tableType (htype.trans_ne hT)
  obtain ⟨hms, hd⟩ := oneMessagePerStatusByte d _ (T.dataBytes d0 d1) [] h hst hlo hhi
    (by rw [htype]; exact length_dataBytes hT d0 d1) (fun _ hx => absurd hx List.not_mem_nil)
  rw [htype, loNibble_statusByte, List.append_nil] at hms hd
  rw [MsgType.wireBytes]
  refine ⟨hms.trans ?_, by rw [hd]; exact hst⟩
  rcases count_eq_one_or_two hT with hone | htwo
  · simp [MsgType.dataBytes, hone, dataByte_eq]
  · simp [MsgType.dataBytes, htwo, dataByte_eq]

/-- Settles O50: the bytes enqueued are those of one message, which is what a decoder between messages makes of
them. -/
theorem encodeDecodeRoundTrip : Obligations.EncodeDecodeRoundTrip := by
  intro s e ch d0 d1 i T h hok hi hroom
  have hT := type_ne_none_of_encoder hi
  obtain ⟨t, u, hstep, hturns, hret, hep⟩ := encoder_turns h hi
  have hqueue := hok.queue_enqueues (bytes := T.wireBytes ch d0 d1) (by rw [length_wireBytes hT]; omega)
  exact ⟨t, u, _, _, hstep, hturns, hret, hep, hqueue, fun d hd hst => hd.decodes_wireBytes hst hT ch d0 d1⟩

end Sys2Proof.Machine
end

section
/-! SUPPORT. The background task's two loops, activation by activation: an `IN.POLL` from its read to its loop test,
and the one drain of an `OUT.POLL` (45_bridge_and_system.md R227 to R233). -/

namespace Sys2Proof.Machine

/-! ### The steps of `IN.POLL` -/

/-- By a snapshot that shows room for all of the bytes offered, all are accepted. -/
theorem Ring.accepts_eq_count {q : Ring} {rs count : Nat} (h : count ≤ q.cap - modSub q.w rs q.cap) :
    q.accepts rs count = count :=
  Nat.min_eq_left h

theorem exec_inPoll {s : State} {e : Endpoint} (h : s.Admits .producerIn e)
    (hs : s.env.handle.serves .input = true) :
    exec .inPoll s = .next (s.polling.begin.push [.micro (.pollDraw e.input.w e.input.free)]) := by
  rw [exec, execInPoll, guarded_eq h, onTransport_eq hs, pollHead]

theorem drawRead_of_cons {s : State} {a : ReadAnswer} {rest : List ReadAnswer} (h : s.env.reads = a :: rest)
    (f : Nat) : s.drawRead f = (clampRead f a, s.setEnv { s.env with reads := rest }) := by
  simp only [State.drawRead, h]

/-- The law of 45_bridge_and_system.md R237 leaves an answer alone that meets it. -/
theorem clampRead_read {f : Nat} {data : List Byte} (h : data.length ≤ f) :
    clampRead f (.read data) = .read data := by
  rw [clampRead, List.take_of_length_le h]

section pollDraw
variable {s : State} {rest : List ReadAnswer} (w0 f : Nat)

theorem runMicro_pollDraw_wouldBlock (h : s.env.reads = .wouldBlock :: rest) :
    runMicro (.pollDraw w0 f) s = .next ((s.setEnv { s.env with reads := rest }).finish (some .unit)) := by
  rw [runMicro, pollDrawStep, drawRead_of_cons h]
  rfl

theorem runMicro_pollDraw_error (h : s.env.reads = .error :: rest) :
    runMicro (.pollDraw w0 f) s = .next ((s.setEnv { s.env with
      reads := rest, log := s.env.log ++ [.transportReadError] }).finish (some .unit)) := by
  rw [runMicro, pollDrawStep, drawRead_of_cons h]
  rfl

theorem runMicro_pollDraw_read {data : List Byte} (h : s.env.reads = .read data :: rest) (hle : data.length ≤ f) :
    runMicro (.pollDraw w0 f) s =
      .next ((s.setEnv { s.env with reads := rest }).push [.micro (.pollSnap w0 f data)]) := by
  rw [runMicro, pollDrawStep, drawRead_of_cons h, clampRead_read hle]

end pollDraw

section steps
variable {s : State} {e : Endpoint} (he : s.ep = some e)
include he

theorem runMicro_pollSnap (w0 f : Nat) (data : List Byte) :
    runMicro (.pollSnap w0 f data) s = .next (s.push [.micro (.pollStore e.input.r w0 f data)]) :=
  onEndpoint_eq he _

/-- The store step leaves the feed of the bytes accepted, if they are fed, and the loop test. -/
theorem runMicro_pollStore (rs w0 f : Nat) (data : List Byte) :
    runMicro (.pollStore rs w0 f data) s =
      .next ((s.setEndpoint { e with input := e.input.accept data (e.input.accepts rs data.length) }).push
        ((if feeds s e then feedTasks w0 (e.input.accepts rs data.length) else []) ++
          [.micro (.pollNext data.length f)])) :=
  onEndpoint_eq he _

/-- A fed byte is the one in the ring (45_bridge_and_system.md R232). -/
theorem runMicro_pollFeed {w0 i : Nat} {b : Byte}
    (hb : Memory.read e.input.cells (modAdd w0 i e.input.cap) = some b) :
    runMicro (.pollFeed w0 i) s = feedByte b none s := by
  rw [runMicro, pollFeedStep, onEndpoint_eq he]
  simp only [hb]

/-- A short read ends the activation (45_bridge_and_system.md R229). -/
theorem runMicro_pollNext_short {k f : Nat} (h : k ≠ f) :
    runMicro (.pollNext k f) s = .next (s.finish (some .unit)) := by
  rw [runMicro, pollNextStep, onEndpoint_eq he, if_neg h]
  rfl

/-- An exact fill goes round again (45_bridge_and_system.md R229). -/
theorem runMicro_pollNext_filled (k : Nat) :
    runMicro (.pollNext k k) s = .next (s.push [.micro (.pollDraw e.input.w e.input.free)]) := by
  rw [runMicro, pollNextStep, onEndpoint_eq he, if_pos rfl, pollHead]

end steps

/-- Settles O51: the first step asks for the free space, and each answer but data ends the activation. -/
theorem inPollEndsOnWouldBlockOrError : Obligations.InPollEndsOnWouldBlockOrError := by
  refine ⟨fun s e h hs => ?_, fun s w0 f rest hr => ?_, fun s w0 f rest hr => ?_⟩
  · exact ⟨_, exec_inPoll h hs, rfl, ((SameWork.refl s).setEnv _).begin.goesOn _⟩
  · exact ⟨_, runMicro_pollDraw_wouldBlock w0 f hr, finish_ep _ _, ((SameWork.refl s).setEnv _).returned _⟩
  · exact ⟨_, runMicro_pollDraw_error w0 f hr, finish_ep _ _, ((SameWork.refl s).setEnv _).returned _⟩

/-- Settles O54: what the store step relies on says that its snapshot shows room for all it read. -/
theorem inPollAcceptsAllItRead : Obligations.InPollAcceptsAllItRead := by
  intro s e rs w0 f data h he hmem
  obtain ⟨-, hlen, hroom, hsnap⟩ := h.ready .bgIn _ hmem e he
  have hall : e.input.accepts rs data.length = data.length := Ring.accepts_eq_count (hlen.trans hroom)
  exact ⟨hall, hall ▸ (h.endpoint e he).input.unread_add_accepts_le hsnap data.length⟩

/-! ### One turn of the loop of `IN.POLL`, uninterrupted -/

/-- What the ring is after a burst that there is room for. -/
theorem Ring.stored_all {q : Ring} {data : List Byte} (h : data.length ≤ q.free) :
    q.Stored (q.accept data data.length) data := by
  have hst := Ring.stored_accept (q := q) (bytes := data) (h.trans (Nat.sub_le _ _)) le_rfl
  rwa [List.take_length] at hst

/-- The transport has answered with `data`, all of which is in the ring, and `rest` are the answers still to come. -/
def State.afterBurst (s : State) (e : Endpoint) (data : List Byte) (rest : List ReadAnswer) : State :=
  (s.setEnv { s.env with reads := rest }).setEndpoint { e with input := e.input.accept data data.length }

/-- Read, snapshot and store: the burst is in the ring, its feed and the loop test are next. -/
theorem pollBurst_turns {s : State} {e : Endpoint} (he : s.ep = some e) {data : List Byte} {rest : List ReadAnswer}
    (hr : s.env.reads = .read data :: rest) (hlen : data.length ≤ e.input.free) (w0 : Nat) :
    turns s.cur 3 (s.push [.micro (.pollDraw w0 e.input.free)]) =
      .next ((s.afterBurst e data rest).push ((if feeds s e then feedTasks w0 data.length else []) ++
        [.micro (.pollNext data.length e.input.free)])) := by
  have hdraw := runMicro_pollDraw_read w0 e.input.free hr hlen
  have hsnap := runMicro_pollSnap (s := s.setEnv { s.env with reads := rest }) he w0 e.input.free data
  have hstore := runMicro_pollStore (s := s.setEnv { s.env with reads := rest }) he e.input.r w0 e.input.free data
  rw [Ring.accepts_eq_count hlen] at hstore
  exact ((turns_push_micro 2 hdraw).trans (turns_push_micro 1 hsnap)).trans (turns_push_micro 0 hstore)

/-- The feed of the `n` bytes of a burst from the `k`-th on. -/
def feedTasksFrom (w0 k n : Nat) : List Task := (List.range' k n).map fun i => .micro (.pollFeed w0 i)

theorem feedTasks_eq (w0 n : Nat) : feedTasks w0 n = feedTasksFrom w0 0 n := by
  rw [feedTasks, List.range_eq_range', feedTasksFrom]

theorem feedTasksFrom_succ (w0 k n : Nat) :
    feedTasksFrom w0 k (n + 1) = .micro (.pollFeed w0 k) :: feedTasksFrom w0 (k + 1) n := by
  rw [feedTasksFrom, List.range'_succ, List.map_cons, feedTasksFrom]

/-- Each byte of a burst is fed from the ring, which stays as it is (45_bridge_and_system.md R232). -/
theorem pollFeed_turns {s : State} {e : Endpoint} {d : Dec} (he : s.ep = some e) (hd : e.dec = some d) (hok : d.Ok)
    (hc : d.completing = false) (hcb : d.cb = none) (w0 k : Nat) (bytes : List Byte) (tasks : List Task)
    (hread : ∀ i, i < bytes.length → Memory.read e.input.cells (modAdd w0 (k + i) e.input.cap) = bytes[i]?) :
    ∃ n, turns s.cur n (s.push (feedTasksFrom w0 k bytes.length ++ tasks)) =
      .next ((s.setDec e (bytes.foldl Dec.feed d)).push tasks) := by
  induction bytes generalizing s e d k with
  | nil => exact ⟨0, by rw [List.foldl_nil, setDec_self he hd]; rfl⟩
  | cons b rest ih =>
    obtain ⟨hok', hc'⟩ := hok.feed hc b
    have hcb' := (hok.feed_callback hc b).1.trans hcb
    obtain ⟨m, hothers⟩ := ih (s := s.setDec e (d.feed b)) rfl rfl hok' hc' hcb' (k + 1)
      fun i hi => by simpa [Nat.add_comm 1 i, Nat.add_assoc] using hread (i + 1) (Nat.succ_lt_succ hi)
    obtain ⟨n, t, -, hstep, hfirst⟩ := feedByte_turns
      (s := s.push (feedTasksFrom w0 (k + 1) rest.length ++ tasks)) hok hc he hd b (.unregistered hcb) none
    have htake : runTask (.micro (.pollFeed w0 k)) (s.push (feedTasksFrom w0 (k + 1) rest.length ++ tasks)) = .next t :=
      (runMicro_pollFeed (s := s.push _) he (hread 0 (Nat.succ_pos _))).trans hstep
    refine ⟨(n + m) + 1, ?_⟩
    rw [List.length_cons, feedTasksFrom_succ, List.cons_append, turns_push (n + m) htake]
    exact turns_add hfirst hothers

/-- The loop test after a burst (45_bridge_and_system.md R229). -/
theorem pollNext_turns {s x : State} (hx : SameWork s x) {e : Endpoint} (he : x.ep = some e) (k f : Nat) :
    ∃ u, turns s.cur 1 (x.push [.micro (.pollNext k f)]) = .next u ∧ u.ep = some e ∧
      (k < f → ReturnedIn s u x.env .unit) ∧
      (k = f → GoesOnIn s u x.env [.micro (.pollDraw e.input.w e.input.free)]) := by
  rw [← hx.agent]
  by_cases hkf : k = f
  · subst hkf
    exact ⟨_, turns_push_micro 0 (runMicro_pollNext_filled he k), he, fun hlt => absurd rfl hlt.ne,
      fun _ => hx.goesOn _⟩
  · exact ⟨_, turns_push_micro 0 (runMicro_pollNext_short he hkf), (finish_ep _ _).trans he,
      fun _ => hx.returned _, fun heq => absurd heq hkf⟩

/-- One turn of the loop from the issue of `IN.POLL` to the loop test, in which the feed takes `n` steps and leaves the
endpoint as `e'`. -/
theorem inPoll_turns {s : State} {e e' : Endpoint} {data : List Byte} {rest : List ReadAnswer}
    (h : s.Admits .producerIn e) (hs : s.env.handle.serves .input = true)
    (hr : s.env.reads = .read data :: rest) (hlen : data.length ≤ e.input.free) {n : Nat}
    (hfeed : turns s.cur n ((s.polling.begin.afterBurst e data rest).push
        ((if feeds s e then feedTasks e.input.w data.length else []) ++
          [.micro (.pollNext data.length e.input.free)])) =
      .next (((s.polling.begin.afterBurst e data rest).setEndpoint e').push
        [.micro (.pollNext data.length e.input.free)])) :
    ∃ t u, exec .inPoll s = .next t ∧ turns s.cur (3 + (n + 1)) t = .next u ∧ u.ep = some e' ∧
      (data.length < e.input.free → ReturnedIn s u { s.env with reads := rest, begun := true } .unit) ∧
      (data.length = e.input.free → GoesOnIn s u { s.env with reads := rest, begun := true }
        [.micro (.pollDraw e'.input.w e'.input.free)]) := by
  have hburst := pollBurst_turns (s := s.polling.begin) h.present hr hlen e.input.w
  have hsame : SameWork s ((s.polling.begin.afterBurst e data rest).setEndpoint e') :=
    ((((SameWork.refl s).setEnv _).begin.setEnv _).setEndpoint _).setEndpoint _
  obtain ⟨u, htest, hep, hends⟩ := pollNext_turns hsame rfl data.length e.input.free
  exact ⟨_, u, exec_inPoll h hs, turns_add hburst (turns_add hfeed htest), hep, hends⟩

/-- Settles O53: with nothing to feed the loop test follows the store step. -/
theorem inPollWithoutFeed : Obligations.InPollWithoutFeed := by
  intro s e data rest h hs _ hno hr hlen
  have hfeeds : feeds s e = false := by rcases hno with hno | hno <;> simp [feeds, hno]
  obtain ⟨t, u, hexec, hturns, hep, hends⟩ := inPoll_turns h hs hr hlen
    (n := 0) (e' := { e with input := e.input.accept data data.length }) (by rw [hfeeds]; rfl)
  exact ⟨t, u, _, hexec, hturns, hep, Ring.stored_all hlen, hends⟩

/-- Settles O52: between the store step and the loop test every byte of the burst is fed. -/
theorem inPollFeedsDecoder : Obligations.InPollFeedsDecoder := by
  intro s e d data rest h hs _ hd hdrv hok hc hcb hr hlen
  have hfeeds : feeds s e = true := by simp [feeds, hd, hdrv]
  have hread : ∀ i, i < data.length →
      Memory.read (e.input.accept data data.length).cells (modAdd e.input.w (0 + i) e.input.cap) = data[i]? := by
    intro i hi
    rw [Nat.zero_add]
    exact Ring.read_accept (hlen.trans (Nat.sub_le _ _)) hi le_rfl
  obtain ⟨n, hfeed⟩ := pollFeed_turns (s := s.polling.begin.afterBurst e data rest) rfl hd hok hc hcb e.input.w 0
    data [.micro (.pollNext data.length e.input.free)] hread
  obtain ⟨t, u, hexec, hturns, hep, hends⟩ := inPoll_turns h hs hr hlen (n := n)
    (by rw [hfeeds, if_pos rfl, feedTasks_eq]; exact hfeed)
  exact ⟨t, _, u, _, hexec, hturns, hep, Ring.stored_all hlen, hends⟩

/-! ### `OUT.POLL` -/

/-- Settles O55: an `OUT.POLL` is a drain that hands back nothing. -/
theorem outPollDrainsOnce : Obligations.OutPollDrainsOnce := by
  intro s e ans rest h hs hok hu hw
  obtain ⟨t, u, burst, hstart, hept, hturns, hburst, hret, hepu⟩ :=
    drain_turns (x := s.polling) ((SameWork.refl s).setEnv _) h.present hok hu hw true
  have hlen : burst.length = e.output.unread := by
    rw [← e.output.queue_length, ← hburst, List.length_map]
  refine ⟨t, u, burst, _, (exec_outPoll h hs).trans hstart, hept, hturns, hburst, ?_, ?_, hret, hepu⟩
  · rintro n rfl
    rw [← hlen]; rfl
  · rintro rfl
    rfl

end Sys2Proof.Machine
end

section
/-! SUPPORT. The boundary: what its events do, and why a background task that was shut down moves nothing
(45_bridge_and_system.md R225, R234 to R236). -/

namespace Sys2Proof.Machine

/-! ### The events -/

theorem step_of_sched {s : State} {x : Event} {v : List Event} (h : s.env.sched = x :: v) :
    step s = takeEvent x (s.setEnv { s.env with sched := v }) := by
  rw [step, h]

theorem openTransportEvent_opens {s : State} (hep : s.ep = none) (hclosed : s.env.handle.isOpen = false)
    (a : Access) (ok : Bool) :
    openTransportEvent a ok s = s.setEnv { s.env with handle := if ok then .opened a else .failed } :=
  if_pos ⟨hep, hclosed⟩

theorem openTransportEvent_ignored {s : State} (h : s.ep ≠ none ∨ s.env.handle.isOpen = true) (a : Access)
    (ok : Bool) : openTransportEvent a ok s = s :=
  if_neg fun ⟨hep, hclosed⟩ => h.elim (absurd hep) fun hopen => by simp [hopen] at hclosed

section register
variable {s : State}

theorem registerEvent_input (hep : s.ep ≠ none) (hserves : s.env.handle.serves .input = true)
    (hclosing : s.env.closing = false) (hshutdown : s.env.shutdown = false) :
    registerEvent .input s = s.setEnv { s.env with polledIn := true } :=
  if_pos ⟨hep, hserves, hclosing, hshutdown⟩

theorem registerEvent_output (hep : s.ep ≠ none) (hserves : s.env.handle.serves .output = true)
    (hclosing : s.env.closing = false) (hshutdown : s.env.shutdown = false) :
    registerEvent .output s = s.setEnv { s.env with polledOut := true } :=
  if_pos ⟨hep, hserves, hclosing, hshutdown⟩

theorem registerEvent_ignored {d : Direction} (h : s.ep = none ∨ s.env.handle.serves d = false ∨
    s.env.closing = true ∨ s.env.shutdown = true) : registerEvent d s = s :=
  if_neg fun ⟨hep, hserves, hclosing, hshutdown⟩ => by simp_all

end register

section shutdown
variable {s : State}

theorem shutdownEvent_of_idle (hin : (s.thread .bgIn).inFlight = false) (hout : (s.thread .bgOut).inFlight = false) :
    shutdownEvent s = s.setEnv { s.env with
      polledIn := false
      polledOut := false
      shutdown := true
      handle := if s.env.polledIn || s.env.polledOut then s.env.handle.release else s.env.handle } :=
  if_neg (by simp [hin, hout])

theorem shutdownEvent_of_busy (h : (s.thread .bgIn).inFlight = true ∨ (s.thread .bgOut).inFlight = true) :
    shutdownEvent s = s :=
  if_pos (Bool.or_eq_true_iff.2 h)

end shutdown

theorem Handle.release_of_open {h : Handle} (ho : h.isOpen = true) : h.release = .released := by
  cases h with
  | opened => rfl
  | _ => cases ho

theorem Handle.release_of_not_open {h : Handle} (ho : h.isOpen = false) : h.release = h := by
  cases h with
  | opened => cases ho
  | _ => rfl

/-- Settles O9: each event is taken from the state with the schedule moved on. -/
theorem boundaryEventsDoAsSaid : Obligations.BoundaryEventsDoAsSaid := by
  intro s v
  refine ⟨fun a ok hx => ?_, fun d hx => ?_, fun hx => ?_⟩ <;> rw [step_of_sched hx]
  · refine ⟨fun hep hclosed => congrArg Host.Outcome.next ?_, fun hno => congrArg Host.Outcome.next ?_⟩
    · exact openTransportEvent_opens (s := s.setEnv { s.env with sched := v }) hep hclosed a ok
    · exact openTransportEvent_ignored (s := s.setEnv { s.env with sched := v }) hno a ok
  · refine ⟨fun hep hserves hclosing hshutdown => ⟨?_, ?_⟩,
      fun hno => congrArg Host.Outcome.next (registerEvent_ignored (s := s.setEnv _) hno)⟩
    · rintro rfl
      exact congrArg Host.Outcome.next (registerEvent_input (s := s.setEnv _) hep hserves hclosing hshutdown)
    · rintro rfl
      exact congrArg Host.Outcome.next (registerEvent_output (s := s.setEnv _) hep hserves hclosing hshutdown)
  · refine ⟨fun hin hout => ?_,
      fun hbusy => congrArg Host.Outcome.next (shutdownEvent_of_busy (s := s.setEnv _) hbusy)⟩
    refine ⟨_, congrArg Host.Outcome.next (shutdownEvent_of_idle (s := s.setEnv _) hin hout), rfl, rfl, rfl, rfl,
      fun hopen hpolled => ?_, fun hno => ?_⟩
    · exact (if_pos (Bool.or_eq_true_iff.2 hpolled)).trans (Handle.release_of_open hopen)
    · rcases hno with hclosed | ⟨hin, hout⟩
      · exact ite_eq_right_iff.2 fun _ => Handle.release_of_not_open hclosed
      · exact if_neg (by simp [hin, hout])

/-! ### The shutdown -/

/-- After the shutdown neither loop of BG has a step to take but one that is refused. -/
theorem SysInv.lost_of_shutdown {s : State} (h : SysInv s) (hs : s.env.shutdown = true) {a : Agent} {m : Micro}
    (hm : Task.micro m ∈ (s.thread a).todo) (ha : a = .bgIn ∨ a = .bgOut) : m = .lost := by
  have hnot : ∀ d, s.env.polled d ≠ true := fun d hd => by
    obtain ⟨-, -, hrun⟩ := h.boundary.alive d hd
    rw [hs] at hrun; cases hrun
  refine Classical.byContradiction fun hl => ?_
  rcases ha with rfl | rfl
  · exact hnot .input (h.pollsIn m hm hl)
  · exact hnot .output (h.pollsOut m hm hl)

/-- A task that is no step of BG's moves no byte to or from the transport: only BG's steps store into IN, move
OUT's read cursor or send (60_exceptions.md R263). -/
theorem Effect.transport_kept {k : Task} {s t : State} (h : Effect k s t)
    (hno : ∀ m, k = .micro m → ¬∀ drv a, m.belongs drv a → a = .bgIn ∨ a = .bgOut) :
    t.env.sent = s.env.sent ∧ ∀ e e', s.ep = some e → t.ep = some e' →
      e'.input.w = e.input.w ∧ e'.input.cells = e.input.cells ∧ e'.output.r = e.output.r := by
  cases h with
  | quiet ep sent =>
    exact ⟨sent, fun e e' he he' => by cases he.symm.trans (ep.symm.trans he'); exact ⟨rfl, rfl, rfl⟩⟩
  | created gone sent => exact ⟨sent, fun e e' he _ => by cases gone.symm.trans he⟩
  | destroyed gone sent => exact ⟨sent, fun e e' _ he' => by cases gone.symm.trans he'⟩
  | accepted x rs count bytes _ _ _ task =>
    rcases task with hk | ⟨w0, f, hk, -⟩
    · exact absurd (fun _ _ => .inl) (hno _ hk)
    · exact absurd (fun _ _ => .inl) (hno _ hk)
  | drained x r0 n burst poll _ task => exact absurd (fun _ _ hb => hb.symm.imp_left And.left) (hno _ task)
  | consumed x _ ep _ _ ep' sent | enqueued x _ ep ep' sent | decoded x _ _ ep _ ep' sent
  | advanced x _ _ ep _ _ ep' sent | registered x _ _ _ ep _ _ ep' sent =>
    exact ⟨sent, fun e e' he he' => by
      cases ep.symm.trans he; cases ep'.symm.trans he'; exact ⟨rfl, rfl, rfl⟩⟩

/-- Settles O8: a shutdown is final and keeps the polled sets empty, and what BG has in progress can only be refused. -/
theorem shutdownStopsPolling : Obligations.ShutdownStopsPolling := by
  intro s t h hs ht
  suffices hkept : t.env.shutdown = true ∧ t.env.sent = s.env.sent ∧ ∀ e e', s.ep = some e → t.ep = some e' →
      e'.input.w = e.input.w ∧ e'.input.cells = e.input.cells ∧ e'.output.r = e.output.r by
    obtain ⟨hshut, hsent, hep⟩ := hkept
    have hnot : ∀ d, t.env.polled d = false := fun d => Bool.eq_false_iff.2 fun hd => by
      obtain ⟨-, -, hrun⟩ := (stepKeepsInv s t h ht).boundary.alive d hd
      rw [hshut] at hrun; cases hrun
    exact ⟨hshut, hnot .input, hnot .output, hsent, hep⟩
  rcases step_turn ht with hbeside | ⟨v, a, k, rest, hv, hsent, hk, ht⟩
  · refine ⟨hbeside.shutdown hs, hbeside.sent, fun e e' he he' => ?_⟩
    cases he.symm.trans (hbeside.ep.symm.trans he')
    exact ⟨rfl, rfl, rfl⟩
  · obtain ⟨-, -, -, hshut, -⟩ := kept_task ht
    obtain ⟨hsame, hep⟩ := (runTask_effect ht).transport_kept fun m hm hbg => by
      have hmem : Task.micro m ∈ (s.thread a).todo := by rw [hk, hm]; exact List.mem_cons_self
      cases h.lost_of_shutdown hs hmem (hbg _ a (h.roles a m hmem))
      rcases hbg .rt .rt (by simp [Micro.belongs]) with hrt | hrt <;> cases hrt
    exact ⟨hshut.trans (hv.shutdown.trans hs), hsame.trans hsent, hep⟩

/-! ### The callback register pair -/

theorem exec_decSetcb {s : State} {e : Endpoint} {d : Dec} (h : s.Admits .registrar e) (hd : e.dec = some d)
    (hfree : d.completing = true → s.cur = s.driverAgent) (f : Option Handler) (a : ContextValue) :
    exec (.decSetcb f a) s = .next ((s.setDec e { d with cb := f, cbArg := a }).finish (some .unit)) := by
  rw [exec, execDecSetcb, guarded_eq h, onDecoder_eq hd]
  exact if_neg (by simpa using hfree)

/-- Settles O31: the one step writes the pair and returns. -/
theorem setcbWritesBothRegisters : Obligations.SetcbWritesBothRegisters := by
  intro s e d f a h hd hfree
  exact ⟨_, exec_decSetcb h hd hfree f a, returned_setEndpoint s _ _, finish_ep _ _⟩

end Sys2Proof.Machine
end

section
/-! SUPPORT. Executions without a meaning: every operation but `EP.RESET` passes one guard, for its role, and what the
guard does not refuse is refused where the decoder, the transport or the slot is not there
(60_exceptions.md R261, R263; 93_implementation_defined.md U3, U5, U16). -/

namespace Sys2Proof.Machine

/-! ### The guard of each operation -/

/-- The role an operation takes (60_exceptions.md R263). -/
def roleOf : Instr → Role
  | .inWrite _ _ | .inPoll => .producerIn
  | .inRead => .consumerIn
  | .outEnq _ | .outEnqn _ _
  | .encNoteoff _ _ _ | .encNoteon _ _ _ | .encPolykey _ _ _ | .encCc _ _ _
  | .encProgram _ _ | .encChanpress _ _ | .encPitchbend _ _ _ => .producerOut
  | .outDrain | .outPoll => .consumerOut
  | .noteoff _ | .noteon _ | .polykey _ | .cc _ | .program _ | .chanpress _ | .pitchbend _
  | .sox | .discardData _ | .discardSyscommon _ | .discardEox | .discardRealtime _ | .eox
  | .discardSysex _ | .data _ | .decByte _ | .decParse _ _ => .driver
  | .mqPeek _ | .mqAvail _ | .mqNext _ => .reader
  | .decSetcb _ _ => .registrar
  | .epReset _ _ _ _ | .epClose => .owner

/-- The matrix is that of the roles. -/
theorem holds_roleOf (s : State) (i : Instr) : s.holds (roleOf i) = mayIssue s s.cur i := by
  cases i with
  | mqPeek | mqAvail | mqNext => simp only [roleOf, State.holds, mayIssue]; cases s.cur <;> rfl
  | _ => rfl

theorem exec_eq_guarded {i : Instr} (hi : ∀ a b c h, i ≠ .epReset a b c h) (s : State) :
    ∃ k, exec i s = guarded (roleOf i) s k := by
  cases i with
  | epReset a b c h => exact absurd rfl (hi a b c h)
  | _ => exact ⟨_, rfl⟩

section guard
variable {r : Role} {s : State} (hr : s.holds r = true) (k : Endpoint → Outcome)
include hr

theorem guarded_noEndpoint (he : s.ep = none) : guarded r s k = .refused .noEndpoint := by
  rw [guarded, if_pos hr, he]

theorem guarded_closing {e : Endpoint} (he : s.ep = some e) (hc : s.env.closing = true) :
    guarded r s k = .refused .closing := by
  simp only [guarded, if_pos hr, he, if_pos hc]

theorem guarded_notRegistered {e : Endpoint} (he : s.ep = some e) (hc : s.env.closing = false) {d : Direction}
    (hd : s.unregistered r = some d) : guarded r s k = .refused (.notRegistered d) := by
  simp only [guarded, if_pos hr, he, hc, hd]; rfl

end guard

section unregistered
variable {s : State} {r : Role}

theorem unregistered_input (hcur : s.cur = .bgIn) (hp : s.env.polledIn = false) : s.unregistered r = some .input :=
  if_pos ⟨.inl hcur, hp⟩

/-- Where the input set is not what is lacking. -/
theorem unregistered_output (hin : ¬((s.cur = .bgIn ∨ r = .producerIn) ∧ s.env.polledIn = false))
    (hout : s.cur = .bgOut ∨ r = .consumerOut) (hp : s.env.polledOut = false) : s.unregistered r = some .output :=
  (if_neg hin).trans (if_pos ⟨hout, hp⟩)

theorem unregistered_none (hin : s.cur = .bgIn ∨ r = .producerIn → s.env.polledIn = true)
    (hout : s.cur = .bgOut ∨ r = .consumerOut → s.env.polledOut = true) : s.unregistered r = none :=
  (if_neg fun ⟨hx, hp⟩ => by simp [hin hx] at hp).trans (if_neg fun ⟨hx, hp⟩ => by simp [hout hx] at hp)

end unregistered

theorem holds_producerIn {s : State} (h : s.holds .producerIn = true) : s.cur = .bgIn := by
  simpa [State.holds] using h

theorem roleOf_eq_consumerOut {i : Instr} : roleOf i = .consumerOut ↔ i = .outPoll ∨ i = .outDrain := by
  cases i <;> simp [roleOf]

/-! ### The decoder of each operation that acts on it -/

theorem exec_eq_onDecoder {s : State} {e : Endpoint} {i : Instr} (hn : needsDecoder i = true)
    (h : s.Admits (roleOf i) e) : ∃ k, exec i s = onDecoder e k := by
  cases i with
  | decByte b => exact ⟨_, (guarded_eq h _).trans (onEndpoint_eq (s := s.begin) h.present _)⟩
  | noteoff | noteon | polykey | cc | program | chanpress | pitchbend | sox | discardData | discardSyscommon
  | discardEox | discardRealtime | eox | discardSysex | data | decParse | mqPeek | mqAvail | mqNext | decSetcb =>
    exact ⟨_, guarded_eq h _⟩
  | _ => cases hn

theorem exec_eq_onWire {i : Instr} {st : DecState} {b : Byte} (h : encode i = some (st, b)) (s : State) :
    roleOf i = .driver ∧ ∃ k, exec i s = onWire st s k := by
  cases i with
  | noteoff | noteon | polykey | cc | program | chanpress | pitchbend | sox | discardData | discardSyscommon
  | discardEox | discardRealtime | eox | discardSysex | data => cases h; exact ⟨rfl, _, rfl⟩
  | _ => cases h

/-- While a message is handed over the decoder has no room for a byte (60_exceptions.md R261). -/
theorem dataStep_reentry {d : Dec} (hc : d.completing = true) (b : Byte) (fin : Option Result) (s : State)
    (e : Endpoint) : dataStep b fin s e d = .refused .reentry := by
  have hnone : d.storeData b = none := Option.eq_none_iff_forall_ne_some.2 fun d' hs => by
    rw [storeData_owed hs] at hc; cases hc
  rw [dataStep, hnone]

section refused
variable {s : State} {e : Endpoint} {i : Instr}

theorem exec_noDecoder (hn : needsDecoder i = true) (h : s.Admits (roleOf i) e) (hd : e.dec = none) :
    exec i s = .refused .noDecoder := by
  obtain ⟨k, hk⟩ := exec_eq_onDecoder hn h
  rw [hk, onDecoder, hd]

/-- A transfer needs a handle open for its direction (45_bridge_and_system.md R234; log 18). -/
theorem onTransport_notOpen {d : Direction} (hs : s.env.handle.serves d = false) (k : Outcome) :
    onTransport d s k = .refused .transportNotOpen :=
  if_neg (by simp [hs])

theorem exec_inPoll_notOpen (h : s.Admits .producerIn e) (hs : s.env.handle.serves .input = false) :
    exec .inPoll s = .refused .transportNotOpen := by
  rw [exec, execInPoll, guarded_eq h, onTransport_notOpen hs]

theorem exec_drain_notOpen (h : s.Admits .consumerOut e) (hs : s.env.handle.serves .output = false)
    (hi : i = .outPoll ∨ i = .outDrain) : exec i s = .refused .transportNotOpen := by
  rcases hi with rfl | rfl
  · rw [exec, execOutPoll, guarded_eq h, onTransport_notOpen hs]
  · rw [exec, execOutDrain, guarded_eq h, onTransport_notOpen hs]

variable {d : Dec} (hd : e.dec = some d)
include hd

/-- A wire row has a meaning in its own state only (30_encoding.md R103; log 8). -/
theorem exec_wireRow (h : s.Admits .driver e) {st : DecState} {b : Byte} (hi : encode i = some (st, b))
    (hst : d.state ≠ st) : exec i s = .refused (.wireRow st) := by
  obtain ⟨-, k, hk⟩ := exec_eq_onWire hi s
  rw [hk, onWire, guarded_eq h, onDecoder_eq hd, if_neg hst]

theorem exec_slotIndex (h : s.Admits .reader e) {c : Nat} (hc : d.store.length ≤ c)
    (hi : i = .mqPeek c ∨ i = .mqAvail c ∨ i = .mqNext c) : exec i s = .refused (.slotIndex c) := by
  have hslot : ∀ k, onSlot d c k = .refused (.slotIndex c) := fun k => if_neg (Nat.not_lt.2 hc)
  rcases hi with rfl | rfl | rfl
  · rw [exec, execMqPeek, guarded_eq h, onDecoder_eq hd, hslot]
  · rw [exec, execMqAvail, guarded_eq h, onDecoder_eq hd, hslot]
  · rw [exec, execMqNext, guarded_eq h, onDecoder_eq hd, hslot]

variable (hc : d.completing = true)
include hc

/-- The owner's `DEC.SETCB` must not meet a byte being decoded (45_bridge_and_system.md R225). -/
theorem exec_setcbDuringByte (h : s.Admits .registrar e) (hcur : s.cur = .owner) (f : Option Handler)
    (a : ContextValue) : exec (.decSetcb f a) s = .refused .setcbDuringByte := by
  rw [exec, execDecSetcb, guarded_eq h, onDecoder_eq hd]
  exact if_pos (by simp [hc, hcur, (driverAgent_ne_owner s).symm])

theorem exec_reentry (h : s.Admits .driver e)
    (hi : (∃ b, i = .decByte b ∨ i = .data b) ∨ ∃ bytes n, i = .decParse bytes n) :
    exec i s = .refused .reentry := by
  have hst : d.state = .accumulatingData := Classical.byContradiction fun hne => by
    rw [not_completing_of_state hne] at hc; cases hc
  rcases hi with ⟨b, rfl | rfl⟩ | ⟨bytes, n, rfl⟩
  · rw [exec, execDecByte, guarded_eq h, feedByte_eq (s := s.begin) h.present hd, byteStep_data hst,
      dataStep_reentry hc]
  · rw [exec, execData, onWire_eq h hd hst, dataStep_reentry hc]
  · exact (guarded_eq h _).trans ((onDecoder_eq hd _).trans (if_pos hc))

end refused

/-- Settles O59: what the guard does not refuse it admits, and then the decoder, the transport or the slot is what is
not there. -/
theorem undefinedExecutionsAreRefused : Obligations.UndefinedExecutionsAreRefused := by
  intro s i hmay hreset
  have hr : s.holds (roleOf i) = true := (holds_roleOf s i).trans hmay
  obtain ⟨k, hk⟩ := exec_eq_guarded hreset s
  refine ⟨fun he => hk.trans (guarded_noEndpoint hr k he), fun e he =>
    ⟨fun hc => hk.trans (guarded_closing hr k he hc), fun hc => ?_⟩⟩
  have hset : ∀ d, s.unregistered (roleOf i) = some d → exec i s = .refused (.notRegistered d) :=
    fun d hd => hk.trans (guarded_notRegistered hr k he hc hd)
  have hcurIn : s.cur = .bgIn ∨ roleOf i = .producerIn → s.cur = .bgIn :=
    fun hx => hx.elim id fun hrole => holds_producerIn (hrole ▸ hr)
  refine ⟨fun hcur hp => hset _ (unregistered_input hcur hp),
    fun hcur hp => hset _ (unregistered_output (fun ⟨hx, _⟩ => by simp [hcurIn hx] at hcur) (.inl hcur) hp),
    fun hcur hin hp hi => hset _ (unregistered_output (by simp [hin])
      (.inr (roleOf_eq_consumerOut.2 hi.symm)) hp), fun hin hout => ?_⟩
  have hadm : ∀ {r}, roleOf i = r → (r = .consumerOut → s.env.polledOut = true) → s.Admits r e := by
    rintro r rfl hx
    exact ⟨hr, he, hc, unregistered_none (fun hy => hin (hcurIn hy)) fun hy => hy.elim hout hx⟩
  refine ⟨fun hd hn => exec_noDecoder hn (hadm rfl fun hx => ?_) hd, fun hs hi => ?_, fun hs hp hi => ?_,
    fun d hd => ⟨fun hcompl hi => ?_, fun hcompl hcur hi => ?_, fun c hlen hi => ?_, fun st b hi hst => ?_⟩⟩
  · rcases roleOf_eq_consumerOut.1 hx with rfl | rfl <;> cases hn
  · subst hi
    exact exec_inPoll_notOpen (hadm rfl nofun) hs
  · exact exec_drain_notOpen (hadm (roleOf_eq_consumerOut.2 hi) fun _ => hp) hs hi
  · exact exec_reentry hd hcompl (hadm (by rcases hi with ⟨b, rfl | rfl⟩ | ⟨bytes, n, rfl⟩ <;> rfl) nofun) hi
  · obtain ⟨f, a, rfl⟩ := hi
    exact exec_setcbDuringByte hd hcompl (hadm rfl nofun) hcur f a
  · exact exec_slotIndex hd (hadm (by rcases hi with rfl | rfl | rfl <;> rfl) nofun) hlen hi
  · exact exec_wireRow hd (hadm (exec_eq_onWire hi s).1 nofun) hi hst

end Sys2Proof.Machine
end

section
/-! SUPPORT. The callback's entry and the role matrix: what a handler's call records, and that an agent's operation
outside its roles is refused before anything else is looked at (60_exceptions.md R260 to R263). -/

namespace Sys2Proof.Machine

/-- Settles O23: the entry sets the environment alone and puts what the handler issues before the driver's tasks. -/
theorem callbackEntryPassesRecord : Obligations.CallbackEntryPassesRecord := by
  intro s e d h script rest he hd hcb hscripts
  have hsame := (SameWork.refl s).setEnv (s.env.afterCalls [⟨h, d.slot, d.cbArg⟩] rest)
  exact ⟨_, runMicro_callback he hd hcb hscripts, rfl, hsame.goesOn (script.map .issue)⟩

/-! ### The role is tested first -/

theorem guarded_role {r : Role} {s : State} (hr : s.holds r = false) (k : Endpoint → Outcome) :
    guarded r s k = .refused (.role s.cur) :=
  if_neg (Bool.eq_false_iff.1 hr)

/-- `EP.RESET` has no endpoint to be guarded, and its own test of the role comes first too. -/
theorem exec_epReset_role {s : State} (hr : s.holds .owner = false) (capIn capOut slots : Nat) (hasDecoder : Bool) :
    exec (.epReset capIn capOut slots hasDecoder) s = .refused (.role s.cur) := by
  rw [exec, execEpReset]
  exact if_neg (Bool.eq_false_iff.1 hr)

/-- Settles O58: the matrix is that of the roles, and the role is what `EP.RESET` and the guard of every other
operation test first. -/
theorem roleMatrixIsEnforced : Obligations.RoleMatrixIsEnforced := by
  intro s i hdenied
  have hr : s.holds (roleOf i) = false := (holds_roleOf s i).trans hdenied
  by_cases hreset : ∃ a b c h, i = .epReset a b c h
  · obtain ⟨capIn, capOut, slots, hasDecoder, rfl⟩ := hreset
    exact exec_epReset_role hr capIn capOut slots hasDecoder
  · obtain ⟨k, hk⟩ := exec_eq_guarded (i := i) (fun a b c h hi => hreset ⟨a, b, c, h, hi⟩) s
    exact hk.trans (guarded_role hr k)

end Sys2Proof.Machine
end

section
/-! SUPPORT. Creation and teardown: what `EP.RESET` answers the owner with and without an endpoint, and the three steps
of `EP.CLOSE` (70_reset_and_hazards.md R280 to R282). -/

namespace Sys2Proof.Machine

/-! ### Creation -/

theorem holds_owner {s : State} (hcur : s.cur = .owner) : s.holds .owner = true := by
  simp [State.holds, hcur]

section epReset
variable {s : State} (hcur : s.cur = .owner) (capIn capOut slots : Nat) (hasDecoder : Bool)
include hcur

theorem exec_epReset_endpointExists (he : s.ep ≠ none) :
    exec (.epReset capIn capOut slots hasDecoder) s = .refused .endpointExists := by
  rw [exec, execEpReset, if_pos (holds_owner hcur), if_pos (Option.isSome_iff_ne_none.2 he)]

/-- Where the owner finds no endpoint, the transport and then the capacities decide. -/
theorem exec_epReset_of_none (he : s.ep = none) :
    exec (.epReset capIn capOut slots hasDecoder) s =
      if s.env.handle.isOpen then
        if fitsCursors s.env.cursorBits capIn capOut then
          ((s.setEndpoint (Endpoint.reset capIn capOut slots hasDecoder)).setEnv { s.env with
            polledIn := false, polledOut := false, begun := false, closing := false }).answer .unit
        else .refused .cursorWidth
      else .refused .transportNotOpen := by
  rw [exec, execEpReset, if_pos (holds_owner hcur), if_neg (by simp [he])]

end epReset

/-- Settles O56: the endpoint is `Endpoint.reset`, whose rings and decoder are the reset values. -/
theorem epResetCreatesEndpoint : Obligations.EpResetCreatesEndpoint := by
  intro s capIn capOut slots hasDecoder hcur he hopen hin hout
  have hfits : fitsCursors s.env.cursorBits capIn capOut = true := by simp [fitsCursors, hin, hout]
  have hexec := exec_epReset_of_none hcur capIn capOut slots hasDecoder he
  rw [if_pos hopen, if_pos hfits] at hexec
  exact ⟨_, hexec, (((SameWork.refl s).setEndpoint _).setEnv _).returned .unit, finish_ep _ _⟩

/-- Settles O60: the three tests of `EP.RESET`, in their order. -/
theorem epResetNeedsNoEndpointAndOpenTransport : Obligations.EpResetNeedsNoEndpointAndOpenTransport := by
  intro s a b c h hcur
  refine ⟨exec_epReset_endpointExists hcur a b c h, fun he hclosed => ?_, fun he hopen hwide => ?_⟩
  · rw [exec_epReset_of_none hcur a b c h he, if_neg (by simp [hclosed])]
  · have hfits : ¬fitsCursors s.env.cursorBits a b = true := by
      rw [fitsCursors, Bool.and_eq_true, decide_eq_true_eq, decide_eq_true_eq]
      omega
    rw [exec_epReset_of_none hcur a b c h he, if_pos hopen, if_neg hfits]

/-! ### Teardown -/

theorem Thread.lose_of_idle {t : Thread} (h : t.inFlight = false) : t.lose = t :=
  if_neg (by simp [h])

theorem Thread.lose_of_inFlight {t : Thread} (h : t.inFlight = true) :
    t.lose = { t with todo := [.micro .lost] } :=
  if_pos h

theorem Handle.release_eq (h : Handle) : h.release = if h.isOpen then .released else h := by
  split
  · next ho => exact release_of_open ho
  · next ho => exact release_of_not_open (Bool.eq_false_iff.2 ho)

/-- The endpoint is gone and no teardown is in progress (R282 step 3). -/
def State.destroyed (s : State) : State := ({ s with ep := none } : State).setEnv { s.env with closing := false }

theorem SameWork.destroyed {s x : State} (h : SameWork s x) : SameWork s x.destroyed :=
  ⟨h.agent, h.others, h.todo⟩

theorem exec_epClose {s : State} {e : Endpoint} (h : s.Admits .owner e) :
    exec .epClose s = .next ((s.loseOthers.setEnv { s.env with
      polledIn := false, polledOut := false, closing := true }).begin.push [.micro .closeTransport]) :=
  guarded_eq h _

theorem runMicro_closeTransport (s : State) :
    runMicro .closeTransport s =
      .next ((s.setEnv { s.env with handle := s.env.handle.release }).push [.micro .closeDestroy]) :=
  rfl

theorem runMicro_closeDestroy (s : State) :
    runMicro .closeDestroy s = .next (s.destroyed.finish (some .unit)) :=
  rfl

/-- Settles O57: `EP.CLOSE` pushes one step at a time, and neither later step looks at what it finds; `x` is `s` with
the operations of RT and BG lost. -/
theorem epCloseTearsDownInOrder : Obligations.EpCloseTearsDownInOrder := by
  refine ⟨fun s e h => ?_, fun y => ⟨?_, ?_, rfl⟩⟩
  · have hlose : ∀ a, a ≠ .owner → s.loseOthers.thread a = (s.thread a).lose := fun a => thread_loseOthers_ne s
    have hbegun := ((SameWork.refl s.loseOthers).setEnv { s.env with
      polledIn := false, polledOut := false, closing := true }).begin
    have hreleased := hbegun.setEnv { s.env with
      polledIn := false, polledOut := false, closing := true, handle := s.env.handle.release }
    exact ⟨s.loseOthers, _, _, _, rfl, rfl, rfl, rfl,
      fun a ha => ⟨fun hi => (hlose a ha).trans (Thread.lose_of_idle hi),
        fun hi => (hlose a ha).trans (Thread.lose_of_inFlight hi)⟩,
      exec_epClose h, rfl, hbegun.goesOn _,
      turns_push_micro 0 (runMicro_closeTransport _), rfl, Handle.release_of_open, Handle.release_of_not_open,
      hreleased.goesOn _,
      turns_push_micro 0 (runMicro_closeDestroy _), finish_ep _ _, hreleased.destroyed.returned _⟩
  · exact ⟨_, runMicro_closeTransport y, rfl, Handle.release_eq _, ((SameWork.refl y).setEnv _).goesOn _⟩
  · exact ⟨_, runMicro_closeDestroy y, finish_ep _ _, (SameWork.refl y).destroyed.returned _⟩

end Sys2Proof.Machine
end
